-- ==== Sys2Proof/Word.lean ====
section
/-! DEFINITION. The word types of the unit (00_scope.md R11, R13). -/

namespace Sys2Proof

/-- One byte of the raw receive buffer (20_memory.md R60). -/
abbrev Byte := BitVec 8

/-- A slot word, hi word, lo word or PcmBlock sample: a `bits16`, a pattern with no arithmetic meaning (R11, R13). -/
abbrev Sample := BitVec 16

/-- A command word or a register of the register view (R90, R45). -/
abbrev Word := BitVec 32

/-- A raw frame value `Fv`: 256 bits, bit 255 first on the wire (R13, 20_memory.md R64). -/
abbrev Frame := BitVec 256

/-- A PcmBlock handle: a 32-bit word, 0 being EMPTY (10_state.md R35). -/
abbrev Handle := BitVec 32

/-- EMPTY: the handle value that names no block (R35). -/
abbrev emptyHandle : Handle := 0#32

end Sys2Proof
end

