-- ==== Sys2Proof/Config.lean ====
section
/-! DEFINITION. What an implementation fixes (00_scope.md R9, 92_eei_decisions.md "Open parameters") and the free values that
`draw()` stands for. -/

namespace Sys2Proof

/-- RAW_LAYOUT: the placement of slot words in a frame's 32 bytes. The spec admits these two values and no other
(20_memory.md R62, R63), so a platform with another layout is no `Params` (93_implementation_defined.md U11). -/
inductive RawLayout where
  /-- WORD32_HI_FIRST, the default: little-endian word j holds slot 2j above slot 2j+1. -/
  | word32HiFirst
  /-- HALF16_SEQ: slot k is the little-endian halfword at offset 2k. -/
  | half16Seq
  deriving DecidableEq, Repr

/-- A strictly rising list of handles: the one canonical list of a set of handles. -/
abbrev handlesRising (hs : List Handle) : Prop := hs.Pairwise fun a b => a.toNat < b.toNat

/-- The constraints on the open parameters: 92_eei_decisions.md, table "Open parameters", and 20_memory.md R71. -/
def paramsOk (n rawBase : Nat) (hasDcache : Bool) (line : Nat) (handles : List Handle) : Bool :=
  decide (1 ≤ n) && decide (n ≤ 65536) && decide (line = 2 ^ line.log2) && decide (rawBase % max 32 line = 0) &&
  decide (rawBase + 64 * n ≤ 2 ^ 32) && (!hasDcache || decide (32 * n % line = 0)) &&
  handles.all (fun h => h != emptyHandle) && decide (handlesRising handles)

/-- The implementation parameters of 00_scope.md R9. A platform that breaks a constraint is refused by the spec (R71, U10):
here it cannot be written down, since `ok` is part of the value. -/
structure Params where
  /-- `N`: frames per buffer half, and samples per PcmBlock. -/
  n : Nat
  /-- `RAW_BASE`: byte address of the raw buffer. -/
  rawBase : Nat
  /-- `HAS_DCACHE`: whether the CPU's view of the raw buffer can be stale. -/
  hasDcache : Bool
  /-- `LINE`: cache line size in bytes. -/
  line : Nat
  /-- `RAW_LAYOUT`. -/
  layout : RawLayout
  /-- `HANDLE`: the finite set of PcmBlock handles, as its rising list. -/
  handles : List Handle
  /-- The pool's policy (45_init_and_interfaces.md R196): false is the default pool, which fails exactly when its free set is
  empty; true is the variant the spec admits, which may fail at will. -/
  poolMayFail : Bool
  /-- The constraints hold. -/
  ok : paramsOk n rawBase hasDcache line handles = true
  deriving DecidableEq, Repr

/-- The platform of the spec's test vectors (95_test_vectors.md, "Conventions"): handles 1 to 40, WORD32_HI_FIRST, no data
cache, RAW_BASE 0x20000000, and N = 2 as in its programs P1 to P5.
DESIGN CHOICE (log entry 1), unsafe: `State.reset` stands on this one platform; every other definition takes any. -/
def Params.vectors : Params where
  n := 2
  rawBase := 0x20000000
  hasDcache := false
  line := 32
  layout := .word32HiFirst
  handles := (List.range 40).map fun k => BitVec.ofNat 32 (k + 1)
  poolMayFail := false
  ok := by decide

namespace Config

/-- Free value (log entry 4): the k-th result of `draw()`. Nothing constrains it. -/
opaque freeChoice : Nat → Nat

/-- Free value (log entry 5): the byte that RAW holds at an address which the DMA has not written (10_state.md R48). -/
opaque powerOnByte : Nat → Byte

/-- Free value (log entry 6): what block `h` holds at index `f`, unwritten since the `g`-th allocation of the run handed it
out; `g = 0` is power-on (10_state.md R41, R48). -/
opaque freshSample : Nat → Handle → Nat → Sample

/-- Free value (log entry 2): the k-th frame of an endless wire (41_raw_buffer.md R110). -/
opaque wireFrame : Nat → Frame

end Config

end Sys2Proof
end

