-- ==== Sys2Proof/Syntax.lean ====
section
/-! DEFINITION. The commands of 30_encoding.md R93, one constructor per row of the opcode table, and the names they use. -/

namespace Sys2Proof

/-- BitDepthMode (10_state.md R24). -/
inductive BitDepth where
  | bits16
  | bits24
  | bits32
  | unsupported
  deriving DecidableEq, Repr

/-- The three agents that perform steps (10_state.md R20). -/
inductive Agent where
  | coop
  | isr
  | dma
  deriving DecidableEq, Repr

/-- A command with its operands assembled (30_encoding.md R92): `Fv` is a pattern of bits, `DEPTH` and `F` are unsigned
integers, `TK` is a Boolean. -/
inductive Instr where
  /-- DMA.FRAME Fv (41_raw_buffer.md R111). -/
  | dmaFrame (fv : Frame)
  /-- INIT DEPTH, TK (45_init_and_interfaces.md R190). -/
  | init (depth : Nat) (tk : Bool)
  /-- XC16 F (42_transcoder.md R123). -/
  | xc16 (f : Nat)
  /-- XC24 F (42_transcoder.md R124). -/
  | xc24 (f : Nat)
  /-- XC32 F (42_transcoder.md R125). -/
  | xc32 (f : Nat)
  /-- XCUNS F (42_transcoder.md R126). -/
  | xcuns (f : Nat)
  /-- SEL (43_interrupt_handler.md R141). -/
  | sel
  /-- CINV (43_interrupt_handler.md R142). -/
  | cinv
  /-- UPDALL (43_interrupt_handler.md R143). -/
  | updall
  /-- IRET (43_interrupt_handler.md R144). -/
  | iret
  /-- ALLOC16 (44_block_exchange.md R161). -/
  | alloc16
  /-- SWAP (44_block_exchange.md R164). -/
  | swap
  /-- FWD (44_block_exchange.md R165). -/
  | fwd
  /-- CSD (44_block_exchange.md R162). -/
  | csd
  /-- CSE (44_block_exchange.md R163). -/
  | cse
  deriving DecidableEq, Repr

end Sys2Proof
end

