-- ==== Sys2Proof/WellFormed.lean ====
section
/-! DEFINITION. Which commands exist: the operand ranges of 30_encoding.md R92 and R97. -/

namespace Sys2Proof

/-- An operand lies in its field: `DEPTH` is 0..255 and `F` is 0..65535; "an operand out of its range is an assembly error,
not a command" (R97). -/
def Instr.wellFormed : Instr → Bool
  | .dmaFrame _ => true
  | .init depth _ => decide (depth < 256)
  | .xc16 f => decide (f < 65536)
  | .xc24 f => decide (f < 65536)
  | .xc32 f => decide (f < 65536)
  | .xcuns f => decide (f < 65536)
  | .sel => true
  | .cinv => true
  | .updall => true
  | .iret => true
  | .alloc16 => true
  | .swap => true
  | .fwd => true
  | .csd => true
  | .cse => true

end Sys2Proof
end

