-- ==== Sys2Proof/Decode.lean ====
section
/-! DEFINITION. The opcode map, the decoder and the encoder (30_encoding.md R90 to R96). -/

namespace Sys2Proof

/-- The four formats of R91. -/
inductive Format where
  | n
  | i
  | x
  | p
  deriving DecidableEq, Repr

/-- The rows of the opcode table, one per mnemonic (R93). -/
inductive Op where
  | dmaFrame | init | xc16 | xc24 | xc32 | xcuns | sel | cinv | updall | iret | alloc16 | swap | fwd | csd | cse
  deriving DecidableEq, Repr

/-- Every row, in the table's order. -/
def allOps : List Op :=
  [.dmaFrame, .init, .xc16, .xc24, .xc32, .xcuns, .sel, .cinv, .updall, .iret, .alloc16, .swap, .fwd, .csd, .cse]

/-- Column OPC of R93. -/
def opcOf : Op → BitVec 8
  | .dmaFrame => 0x01#8
  | .init => 0x10#8
  | .xc16 => 0x20#8
  | .xc24 => 0x21#8
  | .xc32 => 0x22#8
  | .xcuns => 0x23#8
  | .sel => 0x30#8
  | .cinv => 0x31#8
  | .updall => 0x32#8
  | .iret => 0x33#8
  | .alloc16 => 0x40#8
  | .swap => 0x41#8
  | .fwd => 0x42#8
  | .csd => 0x50#8
  | .cse => 0x51#8

/-- Column "format" of R93. -/
def formatOf : Op → Format
  | .dmaFrame => .p
  | .init => .i
  | .xc16 => .x
  | .xc24 => .x
  | .xc32 => .x
  | .xcuns => .x
  | .sel => .n
  | .cinv => .n
  | .updall => .n
  | .iret => .n
  | .alloc16 => .n
  | .swap => .n
  | .fwd => .n
  | .csd => .n
  | .cse => .n

/-- Column "agent" of R93: the agent that may issue the command. -/
def agentOf : Op → Agent
  | .dmaFrame => .dma
  | .init => .coop
  | .xc16 => .isr
  | .xc24 => .isr
  | .xc32 => .isr
  | .xcuns => .isr
  | .sel => .isr
  | .cinv => .isr
  | .updall => .isr
  | .iret => .isr
  | .alloc16 => .coop
  | .swap => .coop
  | .fwd => .coop
  | .csd => .coop
  | .cse => .coop

/-- Column "mask" of R93: ones in the opcode and in every reserved bit of the row's format (R91). -/
def maskOf (o : Op) : Word :=
  match formatOf o with
  | .n => 0xFFFFFFFF#32
  | .i => 0xFFFFFE00#32
  | .x => 0xFFFF0000#32
  | .p => 0xFFFFFFFF#32

/-- Column "match" of R93: the opcode over zero bits. -/
def matchOf (o : Op) : Word := opcOf o ++ 0#24

/-- A command as it is issued: its word, and the payload that only format P carries outside the word (R90). -/
structure Command where
  word : Word
  payload : Frame
  deriving DecidableEq, Repr

/-- Why bytes or a word are no command. A word that matches no row faults with ILLEGAL_COMMAND when issued (R95). -/
inductive DecodeError where
  /-- The opcode is in no row of R93. -/
  | unassignedOpcode (opc : BitVec 8)
  /-- The opcode is assigned, and a reserved bit of its format is 1. -/
  | reservedBitSet (w : Word)
  /-- Fewer bytes than the command's length (R90). -/
  | truncated
  deriving DecidableEq, Repr

/-- `OPC`: bits 31:24 (R90). -/
def opcField (w : Word) : BitVec 8 := w.extractLsb' 24 8

/-- `DEPTH`: bits 7:0 (R92). -/
def depthField (w : Word) : Nat := (w.extractLsb' 0 8).toNat

/-- `TK`: bit 8 (R92). -/
def tkField (w : Word) : Bool := w.getLsbD 8

/-- `F`: bits 15:0 (R92). -/
def frameField (w : Word) : Nat := (w.extractLsb' 0 16).toNat

/-- R94: the row whose `(w AND mask) = match`. -/
def decodeOp (w : Word) : Option Op := allOps.find? fun o => w &&& maskOf o == matchOf o

/-- The command of a row, its operands assembled (R92). -/
def assemble (o : Op) (c : Command) : Instr :=
  match o with
  | .dmaFrame => .dmaFrame c.payload
  | .init => .init (depthField c.word) (tkField c.word)
  | .xc16 => .xc16 (frameField c.word)
  | .xc24 => .xc24 (frameField c.word)
  | .xc32 => .xc32 (frameField c.word)
  | .xcuns => .xcuns (frameField c.word)
  | .sel => .sel
  | .cinv => .cinv
  | .updall => .updall
  | .iret => .iret
  | .alloc16 => .alloc16
  | .swap => .swap
  | .fwd => .fwd
  | .csd => .csd
  | .cse => .cse

/-- R94, R95: total on every 32-bit word. -/
def decode (c : Command) : Except DecodeError Instr :=
  match decodeOp c.word with
  | some o => .ok (assemble o c)
  | none =>
    if allOps.any fun o => opcOf o == opcField c.word then .error (.reservedBitSet c.word)
    else .error (.unassignedOpcode (opcField c.word))

/-- A stored word is little-endian (R90). -/
def wordOfBytes (b0 b1 b2 b3 : Byte) : Word := b3 ++ b2 ++ b1 ++ b0

/-- The `w`-bit value whose bytes, least significant first, are `bs` (00_scope.md R12). -/
def ofLeBytes (w : Nat) (bs : List Byte) : BitVec w :=
  BitVec.ofNat w (bs.foldr (fun b acc => b.toNat + 256 * acc) 0)

/-- The `k` low bytes of a value, least significant first (R12). -/
def leBytes {w : Nat} (k : Nat) (v : BitVec w) : List Byte :=
  (List.range k).map fun b => v.extractLsb' (8 * b) 8

/-- A stored payload, least significant byte first. DESIGN CHOICE (log entry 11): R90 gives the byte order of the word only;
the payload follows D9, "Little-endian everywhere". -/
def frameOfBytes (bs : List Byte) : Frame := ofLeBytes 256 bs

/-- R90: 4 bytes, plus 32 payload bytes when `OPC = 0x01`; the rest of the bytes comes back with the command. -/
def decodeBytes : List Byte → Except DecodeError (Instr × List Byte)
  | b0 :: b1 :: b2 :: b3 :: rest =>
    let w := wordOfBytes b0 b1 b2 b3
    if opcField w == 0x01#8 then
      if rest.length < 32 then .error .truncated
      else match decode ⟨w, frameOfBytes (rest.take 32)⟩ with
        | .ok i => .ok (i, rest.drop 32)
        | .error e => .error e
    else match decode ⟨w, 0#256⟩ with
      | .ok i => .ok (i, rest)
      | .error e => .error e
  | _ => .error .truncated

/-- The row of a command. -/
def opOf : Instr → Op
  | .dmaFrame _ => .dmaFrame
  | .init _ _ => .init
  | .xc16 _ => .xc16
  | .xc24 _ => .xc24
  | .xc32 _ => .xc32
  | .xcuns _ => .xcuns
  | .sel => .sel
  | .cinv => .cinv
  | .updall => .updall
  | .iret => .iret
  | .alloc16 => .alloc16
  | .swap => .swap
  | .fwd => .fwd
  | .csd => .csd
  | .cse => .cse

/-- Bits 23:0 of a command's word: its format's operand fields over zero reserved bits (R91). -/
def operandBits : Instr → BitVec 24
  | .dmaFrame _ => 0#24
  | .init depth tk => (0#15 ++ BitVec.ofBool tk ++ BitVec.ofNat 8 depth : BitVec 24)
  | .xc16 f => (0#8 ++ BitVec.ofNat 16 f : BitVec 24)
  | .xc24 f => (0#8 ++ BitVec.ofNat 16 f : BitVec 24)
  | .xc32 f => (0#8 ++ BitVec.ofNat 16 f : BitVec 24)
  | .xcuns f => (0#8 ++ BitVec.ofNat 16 f : BitVec 24)
  | .sel => 0#24
  | .cinv => 0#24
  | .updall => 0#24
  | .iret => 0#24
  | .alloc16 => 0#24
  | .swap => 0#24
  | .fwd => 0#24
  | .csd => 0#24
  | .cse => 0#24

/-- The command word of a command (R90, R91). -/
def encodeWord (i : Instr) : Word := opcOf (opOf i) ++ operandBits i

/-- The payload of a command: `Fv` for format P, none (here zero) for the others (R91). -/
def encodePayload : Instr → Frame
  | .dmaFrame fv => fv
  | .init _ _ => 0#256
  | .xc16 _ => 0#256
  | .xc24 _ => 0#256
  | .xc32 _ => 0#256
  | .xcuns _ => 0#256
  | .sel => 0#256
  | .cinv => 0#256
  | .updall => 0#256
  | .iret => 0#256
  | .alloc16 => 0#256
  | .swap => 0#256
  | .fwd => 0#256
  | .csd => 0#256
  | .cse => 0#256

/-- The encoder: the words of a well-formed command. -/
def encode (i : Instr) : Command := ⟨encodeWord i, encodePayload i⟩

/-- A command as stored bytes (R90): the word, then, for `OPC = 0x01`, the payload. -/
def commandBytes (c : Command) : List Byte :=
  leBytes 4 c.word ++ (if opcField c.word == 0x01#8 then leBytes 32 c.payload else [])

/-- The `k` low bytes of a number, least significant first. -/
def natBytes : Nat → Nat → List Byte
  | 0, _ => []
  | k + 1, w => BitVec.ofNat 8 w :: natBytes k (w / 256)

/-- The instruction the decoder reads from `w`, numbered as the opcode table numbers it; bits at and above `nbits` are 0. -/
def decodeTableWord (nbits w : Nat) : Option Instr :=
  match decodeBytes (natBytes 36 (w % 2 ^ nbits)) with
  | .ok (i, _) => some i
  | .error _ => none

end Sys2Proof
end

