-- ==== Sys2Proof/Machine/State.lean ====
section
/-! DEFINITION. The state of the unit (10_state.md), of its external collaborators where a command reads it, and reset. -/

namespace Sys2Proof.Machine

/-- One of the two halves of the raw buffer (00_scope.md R14): `h0` has the lower addresses. -/
inductive Half where
  | h0
  | h1
  deriving DecidableEq, Repr

/-- The driver's state machine, `CFG.STATE` (10_state.md R26). -/
inductive DriverState where
  | uninitialized
  | streaming
  deriving DecidableEq, Repr

/-- The fault codes of 60_exceptions.md R210, `none` being code 0. -/
inductive FaultCode where
  | none
  | illegalCommand
  | notStreaming
  | reinit
  | wrongContext
  | swapUnmasked
  | frameRange
  | modeMismatch
  | worksetBusy
  | noSource
  deriving DecidableEq, Repr

/-- Sixteen handle registers (10_state.md R36 to R38). -/
structure Bank where
  /-- Element k is register k of the array. -/
  list : List Handle
  len : list.length = 16
  deriving DecidableEq, Repr

/-- All sixteen EMPTY. -/
def Bank.empty : Bank := ⟨List.replicate 16 emptyHandle, by decide⟩

/-- The contents of one PcmBlock (R41): the samples written since it was handed out, by index, and which hand-out that was.
A sample not listed is the free value `Config.freshSample` (log entry 6). -/
structure Block where
  /-- 0 at power-on, else the number of the allocation that handed the block out. -/
  gen : Nat
  /-- Written samples, indexes strictly rising. -/
  samples : List (Nat × Sample)
  deriving DecidableEq, Repr

/-- Memory of the raw buffer: bytes by address, addresses strictly rising. An unlisted address holds no value that the DMA
wrote; a CPU read of it gives the free byte `Config.powerOnByte` (log entry 5). -/
abbrev Memory := List Host.Cell

/-- What a DMA write overwrote (log entry 7): before the step `at`, the bytes from `addr` on held `old`. -/
structure Overwrite where
  /-- Step index of the write. -/
  step : Nat
  /-- First byte address written. -/
  addr : Nat
  /-- The bytes held there until that step; `none` is a byte that nothing had written. -/
  old : List (Option Byte)
  deriving DecidableEq, Repr

/-- Entries of EVENTS (10_state.md R44). -/
inductive Event where
  /-- `Graph.transmit(h, k)` with the snapshot of the block's samples. -/
  | transmit (k : Nat) (h : Handle) (contents : List Sample)
  | release (h : Handle)
  | alloc (h : Handle)
  | allocFail
  | runAllUpdates
  | completion (half : Half)
  deriving DecidableEq, Repr

/-- A move of another client of the pool (45_init_and_interfaces.md R196). -/
inductive ClientMove where
  /-- The client allocates `h` from the free set. -/
  | acquire (h : Handle)
  /-- The client releases `h` to the free set. -/
  | giveBack (h : Handle)
  deriving DecidableEq, Repr

/-- Why a step has no next state. Each is raised by `step` alone, where the spec gives the machine no step (10_state.md R21).
All are safe: nothing can be proved of a step that the spec does not have. -/
inductive Fault where
  /-- FAULT is not 0, so no agent is enabled: the run stopped at a recorded fault (60_exceptions.md R211). Safe. -/
  | stoppedByFault
  /-- The state is final (45_init_and_interfaces.md R200): the run has ended. Safe. -/
  | runEnded
  /-- No agent is enabled, in a state that is neither faulted nor final: for example before INIT when the host program has
  ended and the wire still has frames (10_state.md R21). Safe. -/
  | noAgentEnabled
  deriving DecidableEq, Repr

/-- Why an instruction has no meaning. -/
inductive Refusal where
  /-- No meaning is written yet for the instruction of this mnemonic; raised by an arm of `exec` only. Safe. -/
  | notModelled (mnemonic : String)
  deriving DecidableEq, Repr

/-- The whole state. INVENTORY.md, "State", gives each field's rule and reset value. -/
structure State where
  /-- The implementation parameters (00_scope.md R9); no step writes them. -/
  par : Params
  /-- CFG.MODE; `none` is "holds no value" (R24, R47). -/
  mode : Option BitDepth
  /-- CFG.TK (R25). -/
  tk : Bool
  /-- CFG.STATE (R26). -/
  drv : DriverState
  /-- STAT.IRQ_MASK (R28). -/
  irqMask : Bool
  /-- STAT.IRQ_PENDING (R29). -/
  irqPending : Bool
  /-- STAT.IN_ISR (R27). -/
  inIsr : Bool
  /-- STAT.SRC where SRC_VALID = 1, `none` where SRC_VALID = 0 (R30, R47). -/
  src : Option Half
  /-- STAT.FAULT (R31). -/
  fault : FaultCode
  /-- STAT.FAGENT; `none` is 00 (R27). -/
  fagent : Option Agent
  /-- FWORD (R49). -/
  fword : Word
  /-- WPOS, the index in 0..2N-1 of the frame written next (R32). -/
  wpos : Nat
  /-- UPDREQ (R34). -/
  updreq : Word
  /-- SLOT[0..15] (R36). -/
  slot : Bank
  /-- NEW[0..15] (R37). -/
  new : Bank
  /-- RET[0..15] (R38). -/
  ret : Bank
  /-- BLK by handle (R41): handles strictly rising, no entry equal to the power-on contents. -/
  blk : List (Nat × Block)
  /-- RAW (R42). -/
  raw : Memory
  /-- LASTINV by the line's base address (R43); an unlisted line has the reset step, 0. -/
  lastInv : List (Nat × Nat)
  /-- EVENTS, oldest first (R44). -/
  events : List Event
  /-- Command index of COOP (R22). -/
  pcCoop : Nat
  /-- Command index of ISR (R22). -/
  pcIsr : Nat
  /-- Command index of DMA: the frames consumed (R22). -/
  pcDma : Nat
  /-- FREE, the pool's free set, as its rising list (45_init_and_interfaces.md R196). -/
  free : List Handle
  /-- Input: the host program of COOP (R22). -/
  prog : List Command
  /-- Input: the frames of the wire (41_raw_buffer.md R110). -/
  wire : List Frame
  /-- Input: whether the wire goes on after `wire`, with free frames. -/
  endless : Bool
  /-- Input: the coming choices among enabled agents (R21); free choices follow them. -/
  sched : List Agent
  /-- Input: the coming results of `draw()` (00_scope.md R12); free values follow them. -/
  draws : List Nat
  /-- Input: the moves of other pool clients before each coming COOP command (R196). -/
  clients : List (List ClientMove)
  /-- Model's own: the step index of the current or last step; reset is step 0 (log entry 8). -/
  now : Nat
  /-- Model's own: the step index of the last SEL (20_memory.md R81). -/
  selAt : Nat
  /-- Model's own: what DMA writes overwrote, newest first (20_memory.md R66, R81). -/
  rawPast : List Overwrite
  /-- Model's own: the agent of the current or last step, the "issuing agent" (log entry 15). -/
  actor : Agent
  /-- Model's own: allocations so far (log entry 6). -/
  allocs : Nat
  /-- Model's own: free choices used so far (log entry 4). -/
  drawn : Nat
  deriving DecidableEq, Repr

/-- The inputs of a run that no rule fixes (45_init_and_interfaces.md R199). -/
structure Inputs where
  prog : List Command
  wire : List Frame
  endless : Bool
  sched : List Agent
  draws : List Nat
  clients : List (List ClientMove)
  /-- The pool's free set at the start. -/
  free : List Handle
  deriving DecidableEq, Repr

/-- The state after power-on on any platform with any inputs: the table of 10_state.md R48. -/
def State.initial (p : Params) (inp : Inputs) : State where
  par := p
  mode := Option.none
  tk := false
  drv := .uninitialized
  irqMask := false
  irqPending := false
  inIsr := false
  src := Option.none
  fault := .none
  fagent := Option.none
  fword := 0#32
  wpos := 0
  updreq := 0#32
  slot := Bank.empty
  new := Bank.empty
  ret := Bank.empty
  blk := []
  raw := []
  lastInv := []
  events := []
  pcCoop := 0
  pcIsr := 0
  pcDma := 0
  free := inp.free
  prog := inp.prog
  wire := inp.wire
  endless := inp.endless
  sched := inp.sched
  draws := inp.draws
  clients := inp.clients
  now := 0
  selAt := 0
  rawPast := []
  actor := .coop
  allocs := 0
  drawn := 0

/-- No input: no program, no frame, no listed choice, and every handle free.
DESIGN CHOICE (log entries 2 and 9). -/
def Inputs.none (p : Params) : Inputs where
  prog := []
  wire := []
  endless := false
  sched := []
  draws := []
  clients := []
  free := p.handles

/-- The machine right after reset (70_reset_and_hazards.md R240, 10_state.md R48), on the platform of the spec's test vectors
with no input (log entries 1 and 2). -/
def State.reset : State := State.initial Params.vectors (Inputs.none Params.vectors)

end Sys2Proof.Machine
end

