-- ==== Sys2Proof/Machine/Cells.lean ====
section
/-! DEFINITION. Sparse tables with natural-number keys in one canonical form: keys strictly rising. RAW, BLK, a block's samples
and LASTINV are such tables. -/

namespace Sys2Proof.Machine

/-- The value listed under a key. -/
def cellGet {α : Type} : List (Nat × α) → Nat → Option α
  | [], _ => none
  | (k, v) :: rest, a => if k = a then some v else cellGet rest a

/-- List a value under a key, replacing the one there, in rising order. -/
def cellPut {α : Type} : List (Nat × α) → Nat → α → List (Nat × α)
  | [], a, v => [(a, v)]
  | (k, w) :: rest, a, v =>
    if a < k then (a, v) :: (k, w) :: rest
    else if a = k then (a, v) :: rest
    else (k, w) :: cellPut rest a v

/-- Keys are strictly rising. -/
abbrev cellsRising {α : Type} (m : List (Nat × α)) : Prop := m.Pairwise fun a b => a.1 < b.1

/-- The canonical form of RAW's memory. An unlisted address holds no listed value, so no entry can equal what an unlisted
address holds, and rising addresses are the whole form (log entry 5). -/
abbrev Memory.wf (m : Memory) : Prop := cellsRising m

/-- Put a handle into a rising list of handles. -/
def insertHandle (h : Handle) : List Handle → List Handle
  | [] => [h]
  | g :: rest =>
    if h.toNat < g.toNat then h :: g :: rest
    else if h = g then g :: rest
    else g :: insertHandle h rest

/-- Take a handle out of a list of handles. -/
def removeHandle (h : Handle) (hs : List Handle) : List Handle := hs.filter fun g => g != h

/-- The distinct members of a list, in the order of their first places. -/
def distinct {α : Type} [DecidableEq α] (xs : List α) : List α :=
  xs.foldl (fun acc x => if x ∈ acc then acc else acc ++ [x]) []

end Sys2Proof.Machine
end

