-- ==== Sys2Proof/Machine/Operands.lean ====
section
/-! DEFINITION. Operand forms: what the operands of a command name (the mode of a depth, addresses, slot words, channels) and
the value each mode puts into each block. -/

namespace Sys2Proof.Machine

/-- `ModeOf` (45_init_and_interfaces.md R191). -/
def modeOf (depth : Nat) : BitDepth :=
  if depth = 16 then .bits16
  else if depth = 24 then .bits24
  else if depth = 32 then .bits32
  else .unsupported

/-- The number of input channels of a mode (00_scope.md R10). -/
def channelsOf : BitDepth → Nat
  | .bits16 => 16
  | .bits24 => 8
  | .bits32 => 8
  | .unsupported => 0

/-- The number of a half (00_scope.md R14). -/
def halfIndex : Half → Nat
  | .h0 => 0
  | .h1 => 1

/-- The other half: `1 - half` (43_interrupt_handler.md R141). -/
def otherHalf : Half → Half
  | .h0 => .h1
  | .h1 => .h0

/-- First byte address of a half (20_memory.md R61). -/
def halfBase (p : Params) (h : Half) : Nat := p.rawBase + 32 * p.n * halfIndex h

/-- `FrameAddr(h, f)` (R61). -/
def frameAddr (p : Params) (h : Half) (f : Nat) : Nat := p.rawBase + 32 * (p.n * halfIndex h + f)

/-- The address of the frame that `WPOS` names (R61). -/
def wposAddr (p : Params) (wpos : Nat) : Nat := p.rawBase + 32 * wpos

/-- The base address of the cache line that holds a byte (10_state.md R43). -/
def lineBase (p : Params) (a : Nat) : Nat := a / p.line * p.line

/-- The base addresses of the cache lines of a half. `LINE` divides `RAW_BASE` and `32N` (20_memory.md R71), so these are the
lines that intersect the half, and each lies wholly inside it (R67). -/
def halfLines (p : Params) (h : Half) : List Nat :=
  (List.range (32 * p.n / p.line)).map fun k => halfBase p h + p.line * k

/-- Slot word `w[k]` of a frame value (20_memory.md R64). -/
def slotWord (fv : Frame) (k : Nat) : Sample := fv.extractLsb' (240 - 16 * k) 16

/-- Word `j` of a frame under WORD32_HI_FIRST: `Fv[255-32j : 224-32j]` (R62, 41_raw_buffer.md R111). -/
def frameWord (fv : Frame) (j : Nat) : Word := fv.extractLsb' (224 - 32 * j) 32

/-- The frame value of sixteen slot words: `w[0] : w[1] : ... : w[15]` (R64). -/
def frameOfSlots (ws : List Sample) : Frame :=
  BitVec.ofNat 256 (ws.foldl (fun acc w => 65536 * acc + w.toNat) 0)

/-- Channel `i` of mode Bits24: `Fv[255-24i : 232-24i]` (42_transcoder.md R124). -/
def channel24 (fv : Frame) (i : Nat) : BitVec 24 := fv.extractLsb' (232 - 24 * i) 24

/-- The hi word of a 24-bit sample: `s[23:8]` (R124). -/
def hi24 (s : BitVec 24) : Sample := s.extractLsb' 8 16

/-- The lo word of a 24-bit sample: `zext_16(s[7:0]) << 8` (R124). -/
def lo24 (s : BitVec 24) : Sample := (s.extractLsb' 0 8).setWidth 16 <<< 8

/-- Channel `i` of mode Bits32: `w[2i] : w[2i+1]` (R125). -/
def channel32 (fv : Frame) (i : Nat) : Word := slotWord fv (2 * i) ++ slotWord fv (2 * i + 1)

/-- The hi word of a 32-bit sample: `S[31:16]` (R125). -/
def hi32 (s : Word) : Sample := s.extractLsb' 16 16

/-- The lo word of a 32-bit sample: `S[15:0]` (R125). -/
def lo32 (s : Word) : Sample := s.extractLsb' 0 16

/-- The sixteen values of mode Bits24, by block: hi and lo of each of the eight channels (R124, R130). -/
def lanes24 (fv : Frame) : List Sample :=
  (List.range 8).flatMap fun i => [hi24 (channel24 fv i), lo24 (channel24 fv i)]

/-- The sixteen values of mode Bits32, by block (R125, R130). -/
def lanes32 (fv : Frame) : List Sample :=
  (List.range 8).flatMap fun i => [hi32 (channel32 fv i), lo32 (channel32 fv i)]

/-- The sixteen zero values of modes Bits16 and Unsupported (R123, R126). -/
def silentLanes : List Sample := List.replicate 16 0x0000#16

end Sys2Proof.Machine
end

