-- ==== Sys2Proof/Machine/Flags.lean ====
section
/-! DEFINITION. Computed flags and the register view (10_state.md R23, R27, R32, R33, R36, R45, R49). No command reads a
register by number (R45); the view only names state. -/

namespace Sys2Proof.Machine

/-- `allEmpty(X)` (R36). -/
def allEmpty (b : Bank) : Bool := b.list.all fun h => h == emptyHandle

/-- Every element is non-EMPTY (R36). -/
def allFull (b : Bank) : Bool := b.list.all fun h => h != emptyHandle

/-- STAT.SLOTS_FULL, computed (R27, R36). -/
def slotsFull (s : State) : Bool := allFull s.slot

/-- STAT.SRC_VALID (R27, R30). -/
def srcValid (s : State) : Bool := s.src.isSome

/-- WHALF: the half the hardware is writing, computed (R33). -/
def whalf (s : State) : Half := if s.wpos < s.par.n then .h0 else .h1

/-- The number of a fault code (60_exceptions.md R210). -/
def faultNumber : FaultCode → BitVec 8
  | .none => 0#8
  | .illegalCommand => 1#8
  | .notStreaming => 2#8
  | .reinit => 3#8
  | .wrongContext => 4#8
  | .swapUnmasked => 5#8
  | .frameRange => 6#8
  | .modeMismatch => 7#8
  | .worksetBusy => 8#8
  | .noSource => 9#8

/-- STAT.FAGENT: 00 none, 01 COOP, 10 ISR, 11 DMA (R27). -/
def agentBits : Option Agent → BitVec 2
  | Option.none => 0#2
  | some .coop => 1#2
  | some .isr => 2#2
  | some .dma => 3#2

/-- CFG.MODE: 00 Bits16, 01 Bits24, 10 Bits32, 11 Unsupported (R23). -/
def modeBits : BitDepth → BitVec 2
  | .bits16 => 0#2
  | .bits24 => 1#2
  | .bits32 => 2#2
  | .unsupported => 3#2

/-- Register 0x00, CFG (R23); no value while MODE holds none (R47). -/
def cfgWord (s : State) : Option Word :=
  s.mode.map fun m =>
    (0#28 ++ BitVec.ofBool (decide (s.drv = .streaming)) ++ BitVec.ofBool s.tk ++ modeBits m : BitVec 32)

/-- Register 0x01, STAT (R27), "writing the valueless SRC bit as 0" (95_test_vectors.md, 2.7). -/
def statWord (s : State) : Word :=
  (0#16 ++ faultNumber s.fault ++ agentBits s.fagent ++ BitVec.ofBool (slotsFull s) ++ BitVec.ofBool (srcValid s) ++
    BitVec.ofBool (decide (s.src = some .h1)) ++ BitVec.ofBool s.inIsr ++ BitVec.ofBool s.irqPending ++
    BitVec.ofBool s.irqMask : BitVec 32)

/-- Register 0x02, WPOS: the index in bits 16:0, bits 31:17 hardwired 0 (R32). -/
def wposWord (s : State) : Word := (0#15 ++ BitVec.ofNat 17 s.wpos : BitVec 32)

/-- The register view of R45: `none` for a number that names no register, and for CFG while MODE holds no value. -/
def regView (s : State) (number : Nat) : Option Word :=
  if number = 0x00 then cfgWord s
  else if number = 0x01 then some (statWord s)
  else if number = 0x02 then some (wposWord s)
  else if number = 0x03 then some s.updreq
  else if number = 0x04 then some s.fword
  else if 0x10 ≤ number ∧ number < 0x20 then s.slot.list[number - 0x10]?
  else if 0x20 ≤ number ∧ number < 0x30 then s.new.list[number - 0x20]?
  else if 0x30 ≤ number ∧ number < 0x40 then s.ret.list[number - 0x30]?
  else none

end Sys2Proof.Machine
end

