-- ==== Sys2Proof/Machine/Ops.lean ====
section
/-! DEFINITION. The named operations over state: the command index, faults, interrupt entry and return, `draw()`, EVENTS, the
raw buffer and the CPU's view of it, block storage, and the pool. -/

namespace Sys2Proof.Machine

/-- The outcome of a command. -/
abbrev Result := Host.Outcome State Fault Refusal

/-- `pc <- pc + 1` of the issuing agent (10_state.md R22). -/
def advance (s : State) : State :=
  match s.actor with
  | .coop => { s with pcCoop := s.pcCoop + 1 }
  | .isr => { s with pcIsr := s.pcIsr + 1 }
  | .dma => { s with pcDma := s.pcDma + 1 }

/-- `EVENTS <- EVENTS ++ [e]` (R44). -/
def logEvent (e : Event) (s : State) : State := { s with events := s.events ++ [e] }

/-! ### Faults -/

/-- `raise Fault(code)` by a command whose word is `w` (60_exceptions.md R211): FAULT, FAGENT and FWORD are written and nothing
else changes. The first fault of a run is kept (10_state.md R31, R49), so a recorded fault is left as it is. -/
def raiseFault (code : FaultCode) (w : Word) (s : State) : State :=
  if s.fault = .none then { s with fault := code, fagent := some s.actor, fword := w } else s

/-- Go on with `k` if the check holds, else the command raises `code`. -/
def require (check : Bool) (code : FaultCode) (i : Instr) (s : State) (k : Result) : Result :=
  if check then k else .next (raiseFault code (encodeWord i) s)

/-- `if issuing agent ≠ a: raise Fault(WRONG_CONTEXT)` (R212, R221). -/
def issuedBy (a : Agent) (i : Instr) (s : State) (k : Result) : Result :=
  require (decide (s.actor = a)) .wrongContext i s k

/-- The two checks that every command but DMA.FRAME and INIT makes first: WRONG_CONTEXT, then NOT_STREAMING (R212). -/
def streamingCommand (a : Agent) (i : Instr) (s : State) (k : Result) : Result :=
  issuedBy a i s (require (decide (s.drv = .streaming)) .notStreaming i s k)

/-! ### The completion interrupt -/

/-- `Complete(h)` (41_raw_buffer.md R111): the request merges with a pending one. -/
def complete (h : Half) (s : State) : State := logEvent (.completion h) { s with irqPending := true }

/-- Interrupt entry (60_exceptions.md R216). Nothing of COOP changes: that is its saved context. -/
def interruptEntry (s : State) : State := { s with irqPending := false, inIsr := true, pcIsr := 0 }

/-- Return from the handler (R218, 43_interrupt_handler.md R144). -/
def interruptReturn (s : State) : State := { s with inIsr := false, src := Option.none, pcIsr := 0 }

/-! ### draw() -/

/-- One of `m` alternatives, open (00_scope.md R12): the next listed choice, or a free value when none is listed. A single
alternative is no choice (log entry 4). -/
def draw (m : Nat) (s : State) : Nat × State :=
  if m ≤ 1 then (0, s)
  else match s.draws with
    | d :: rest => (d % m, { s with draws := rest })
    | [] => (Config.freeChoice s.drawn % m, { s with drawn := s.drawn + 1 })

/-- `draw()` restricted to a list of values; `dflt` stands for the choice from no values, which no rule makes. -/
def drawFrom {α : Type} (xs : List α) (dflt : α) (s : State) : α × State :=
  let (k, t) := draw xs.length s
  (xs.getD k dflt, t)

/-! ### The raw buffer -/

/-- List bytes at consecutive addresses. -/
def putBytes : Memory → Nat → List Byte → Memory
  | m, _, [] => m
  | m, a, b :: bs => putBytes (cellPut m a b) (a + 1) bs

/-- `DmaWrite` (20_memory.md R65): memory changes at once, and what it held goes on record for R66 and R81. -/
def dmaWrite (a : Nat) (bs : List Byte) (s : State) : State :=
  { s with
    raw := putBytes s.raw a bs
    rawPast := ⟨s.now, a, (List.range bs.length).map fun b => cellGet s.raw (a + b)⟩ :: s.rawPast }

/-- Write a frame value at a frame's address in the platform's layout (41_raw_buffer.md R111). -/
def dmaWriteFrame (a : Nat) (fv : Frame) (s : State) : State :=
  match s.par.layout with
  | .word32HiFirst => (List.range 8).foldl (fun t j => dmaWrite (a + 4 * j) (leBytes 4 (frameWord fv j)) t) s
  | .half16Seq => (List.range 16).foldl (fun t k => dmaWrite (a + 2 * k) (leBytes 2 (slotWord fv k)) t) s

/-- `LASTINV` of the line that holds byte `a`; the reset step, 0, where no CINV covered it (10_state.md R43). -/
def lastInvOf (s : State) (a : Nat) : Nat := (cellGet s.lastInv (lineBase s.par a)).getD 0

/-- The step from which the values of byte `a` may still be read. With a cache it is LASTINV of the line (R66, R80), and R81 adds
nothing: "Rule R66 already admits the draw". Without one, R81 keeps the values since the handler's SEL (log entry 7). -/
def windowStart (s : State) (a : Nat) : Nat :=
  if s.par.hasDcache then lastInvOf s a else s.selAt

/-- What an overwritten range held at byte `a`, if it covers `a`. -/
def overwrittenAt (o : Overwrite) (a : Nat) : Option (Option Byte) :=
  if o.addr ≤ a then o.old[a - o.addr]? else none

/-- The values memory held for byte `a` at any step from `t` on: the present one, and each one overwritten after step `t`
(R66). `none` is the unwritten byte of power-on. -/
def heldSince (s : State) (t a : Nat) : List (Option Byte) :=
  distinct (cellGet s.raw a ::
    (s.rawPast.filter fun o => decide (t < o.step)).filterMap fun o => overwrittenAt o a)

/-- The CPU reads one byte of RAW (R66, R81). -/
def cpuByte (a : Nat) (s : State) : Byte × State :=
  let (v, t) := drawFrom (heldSince s (windowStart s a) a) Option.none s
  (v.getD (Config.powerOnByte a), t)

/-- The bytes of `MemRead(a, k)`, lowest address first (00_scope.md R12). -/
def memRead : Nat → Nat → State → List Byte × State
  | _, 0, s => ([], s)
  | a, k + 1, s =>
    let (b, s1) := cpuByte a s
    let (bs, s2) := memRead (a + 1) k s1
    (b :: bs, s2)

/-- The slot words of 32-bit words at consecutive addresses: the upper halfword of each first (20_memory.md R62, R64). -/
def readSlots32 : Nat → Nat → State → List Sample × State
  | _, 0, s => ([], s)
  | a, j + 1, s =>
    let (bs, s1) := memRead a 4 s
    let (ws, s2) := readSlots32 (a + 4) j s1
    ((ofLeBytes 32 bs).extractLsb' 16 16 :: (ofLeBytes 32 bs).extractLsb' 0 16 :: ws, s2)

/-- The slot words of 16-bit halfwords at consecutive addresses (R63, R64). -/
def readSlots16 : Nat → Nat → State → List Sample × State
  | _, 0, s => ([], s)
  | a, k + 1, s =>
    let (bs, s1) := memRead a 2 s
    let (ws, s2) := readSlots16 (a + 2) k s1
    (ofLeBytes 16 bs :: ws, s2)

/-- `FrameSlots(h, f)` (R64). -/
def frameSlots (h : Half) (f : Nat) (s : State) : List Sample × State :=
  match s.par.layout with
  | .word32HiFirst => readSlots32 (frameAddr s.par h f) 8 s
  | .half16Seq => readSlots16 (frameAddr s.par h f) 16 s

/-- The frame value the CPU reads from frame `f` of half `h` (R64, 42_transcoder.md R122). -/
def readFrame (h : Half) (f : Nat) (s : State) : Frame × State :=
  let (ws, t) := frameSlots h f s
  (frameOfSlots ws, t)

/-- `LASTINV[L] <- current step` for every line of a half, when there is a cache (R67). -/
def invalidateHalf (h : Half) (s : State) : State :=
  if s.par.hasDcache then
    { s with lastInv := (halfLines s.par h).foldl (fun m l => cellPut m l s.now) s.lastInv }
  else s

/-! ### Block storage -/

/-- A block nothing has handed out or written: its power-on contents. -/
def powerOnBlock : Block := ⟨0, []⟩

/-- The block of a handle. -/
def blockOf (s : State) (h : Handle) : Block := (cellGet s.blk h.toNat).getD powerOnBlock

/-- `BlkRead(h, f)` (00_scope.md R12): the sample written, or the free contents of the block's last hand-out. -/
def blkRead (s : State) (h : Handle) (f : Nat) : Sample :=
  (cellGet (blockOf s h).samples f).getD (Config.freshSample (blockOf s h).gen h f)

/-- `BlkWrite(h, f, v)` (R12). EMPTY names no block (10_state.md R35), so writing to it writes nothing: DESIGN CHOICE (log
entry 14); the all-or-nothing invariant (R39) keeps every run clear of it. -/
def blkWrite (h : Handle) (f : Nat) (v : Sample) (s : State) : State :=
  if h = emptyHandle then s
  else { s with blk := cellPut s.blk h.toNat { blockOf s h with samples := cellPut (blockOf s h).samples f v } }

/-- Lane k writes block `hs[k]` at index `f` (42_transcoder.md R130). -/
def writeLanes : List Handle → List Sample → Nat → State → State
  | h :: hs, v :: vs, f, s => writeLanes hs vs f (blkWrite h f v s)
  | _, _, _, s => s

/-- `BLK[h][0..N-1]` (44_block_exchange.md R165). -/
def blockContents (s : State) (h : Handle) : List Sample := (List.range s.par.n).map fun f => blkRead s h f

/-! ### The pool -/

/-- A block is handed out: its contents are unspecified anew (10_state.md R41). -/
def handOut (h : Handle) (s : State) : State :=
  { s with
    free := removeHandle h s.free
    blk := cellPut s.blk h.toNat ⟨s.allocs + 1, []⟩
    allocs := s.allocs + 1 }

/-- What `Pool.allocate()` may return (45_init_and_interfaces.md R196): any free handle; `none` from a pool that may fail. -/
def allocChoices (s : State) : List (Option Handle) :=
  s.free.map some ++ (if s.par.poolMayFail then [Option.none] else [])

/-- `Pool.allocate()` (R195, R196): `none` when there is nothing to return. -/
def poolAllocate (s : State) : Option Handle × State :=
  match drawFrom (allocChoices s) Option.none s with
  | (Option.none, s1) => (Option.none, s1)
  | (some h, s1) => (some h, handOut h s1)

/-- `Pool.release(h)` (R195, R196). EMPTY names no block, so there is nothing to release: DESIGN CHOICE (log entry 14). -/
def poolRelease (h : Handle) (s : State) : State :=
  if h = emptyHandle then s else { s with free := insertHandle h s.free }

/-- The unit holds the handle in SLOT, NEW or RET (10_state.md R40). -/
def unitOwns (s : State) (h : Handle) : Bool :=
  s.slot.list.contains h || s.new.list.contains h || s.ret.list.contains h

/-- A move of another pool client (R196). A client can release only a handle of the set that it can hold, so never one that
the unit holds (log entry 10). -/
def clientMove (s : State) (m : ClientMove) : State :=
  match m with
  | .acquire h => { s with free := removeHandle h s.free }
  | .giveBack h =>
    if s.par.handles.contains h && !unitOwns s h then { s with free := insertHandle h s.free } else s

/-- The other clients' moves before a COOP command (R196): "between any two COOP commands, but not within one". -/
def clientsAct (s : State) : State :=
  match s.clients with
  | [] => s
  | ms :: rest => ms.foldl clientMove { s with clients := rest }

end Sys2Proof.Machine
end

