-- ==== Sys2Proof/Machine/Dma.lean ====
section
/-! DEFINITION. The raw buffer's command (41_raw_buffer.md): DMA.FRAME. -/

namespace Sys2Proof.Machine

/-- `WPOS <- (WPOS + 1) mod 2N` (R111). -/
def stepWpos (s : State) : State := { s with wpos := (s.wpos + 1) % (2 * s.par.n) }

/-- The completions of R111, by the position just reached: N is half 0 full, 0 is half 1 full. -/
def completeAtBoundary (s : State) : State :=
  if s.wpos = s.par.n then complete .h0 s
  else if s.wpos = 0 then complete .h1 s
  else s

/-- DMA.FRAME Fv (R111). N is at least 1, so the two completions exclude each other. -/
def execDmaFrame (fv : Frame) (s : State) : Result :=
  issuedBy .dma (.dmaFrame fv) s
    (.next (advance (completeAtBoundary (stepWpos (dmaWriteFrame (wposAddr s.par s.wpos) fv s)))))

end Sys2Proof.Machine
end

