-- ==== Sys2Proof/Machine/Exchange.lean ====
section
/-! DEFINITION. The block exchange (44_block_exchange.md): ALLOC16, SWAP, FWD, CSD, CSE. -/

namespace Sys2Proof.Machine

/-- Sixteen handles as a set of registers; missing ones are EMPTY. -/
def bankOf (hs : List Handle) : Bank :=
  ⟨(hs ++ List.replicate 16 emptyHandle).take 16, by simp⟩

/-- Release every block acquired in this attempt, in the order acquired (R161). -/
def rollback : List Handle → State → State
  | [], s => s
  | h :: hs, s => rollback hs (logEvent (.release h) (poolRelease h s))

/-- `k` more allocations after those in `got` (R161): `none` if one failed, with everything released again. -/
def allocateMore : Nat → List Handle → State → Option (List Handle) × State
  | 0, got, s => (some got, s)
  | k + 1, got, s =>
    match poolAllocate s with
    | (Option.none, s1) => (Option.none, rollback got (logEvent .allocFail s1))
    | (some h, s1) => allocateMore k (got ++ [h]) (logEvent (.alloc h) s1)

/-- ALLOC16 (R161). -/
def execAlloc16 (s : State) : Result :=
  streamingCommand .coop .alloc16 s
    (require (allEmpty s.new) .worksetBusy .alloc16 s
      (match allocateMore 16 [] s with
      | (Option.none, s1) => .next (advance s1)
      | (some got, s1) => .next (advance { s1 with new := bankOf got })))

/-- SWAP (R164): RET <- SLOT, SLOT <- NEW, NEW <- EMPTY in one atomic step. -/
def execSwap (s : State) : Result :=
  streamingCommand .coop .swap s
    (require s.irqMask .swapUnmasked .swap s
      (require (allEmpty s.ret) .worksetBusy .swap s
        (.next (advance { s with ret := s.slot, slot := s.new, new := Bank.empty }))))

/-- Transmit, then release, block by block, from channel index `k` on (R165). -/
def forwardFrom : Nat → List Handle → State → State
  | _, [], s => s
  | k, h :: hs, s =>
    forwardFrom (k + 1) hs
      (logEvent (.release h) (poolRelease h (logEvent (.transmit k h (blockContents s h)) s)))

/-- FWD (R165). -/
def execFwd (s : State) : Result :=
  streamingCommand .coop .fwd s
    (if allEmpty s.ret then .next (advance s)
    else .next (advance { forwardFrom 0 s.ret.list s with ret := Bank.empty }))

/-- CSD (R162). -/
def execCsd (s : State) : Result :=
  streamingCommand .coop .csd s (.next (advance { s with irqMask := true }))

/-- CSE (R163). -/
def execCse (s : State) : Result :=
  streamingCommand .coop .cse s (.next (advance { s with irqMask := false }))

end Sys2Proof.Machine
end

