-- ==== Sys2Proof/Machine/Handler.lean ====
section
/-! DEFINITION. The interrupt handler's own commands (43_interrupt_handler.md): SEL, CINV, UPDALL, IRET. -/

namespace Sys2Proof.Machine

/-- SEL (R141): the half the hardware is not writing. The step index is kept for the overrun race (20_memory.md R81). -/
def execSel (s : State) : Result :=
  streamingCommand .isr .sel s
    (.next (advance { s with src := some (otherHalf (whalf s)), selAt := s.now }))

/-- CINV (R142). -/
def execCinv (s : State) : Result :=
  streamingCommand .isr .cinv s
    (match s.src with
    | Option.none => .next (raiseFault .noSource (encodeWord .cinv) s)
    | some h => if allEmpty s.slot then .next (advance s) else .next (advance (invalidateHalf h s)))

/-- UPDALL (R143): `Graph.runAllUpdates()` returns within the step (45_init_and_interfaces.md R197). -/
def execUpdall (s : State) : Result :=
  streamingCommand .isr .updall s
    (if s.tk then .next (advance (logEvent .runAllUpdates { s with updreq := s.updreq + 1 })) else .next (advance s))

/-- IRET (R144). -/
def execIret (s : State) : Result :=
  streamingCommand .isr .iret s (.next (interruptReturn s))

end Sys2Proof.Machine
end

