-- ==== Sys2Proof/Machine/Init.lean ====
section
/-! DEFINITION. Initialisation (45_init_and_interfaces.md): INIT. -/

namespace Sys2Proof.Machine

/-- INIT DEPTH, TK (R190). `Bus.configure()` has no modelled effect; `armDma` is WPOS = 0 and STATE = STREAMING, which enable
the DMA agent; `onCompletion` is MODE, from which the handler body is built (R193, 43_interrupt_handler.md R140). -/
def execInit (depth : Nat) (tk : Bool) (s : State) : Result :=
  issuedBy .coop (.init depth tk) s
    (require (decide (s.drv = .uninitialized)) .reinit (.init depth tk) s
      (.next (advance { s with
        mode := some (modeOf depth)
        tk := tk
        wpos := 0
        irqPending := false
        drv := .streaming })))

end Sys2Proof.Machine
end

