-- ==== Sys2Proof/Machine/Transcoder.lean ====
section
/-! DEFINITION. The frame transcoder (42_transcoder.md): XC16, XC24, XC32, XCUNS. -/

namespace Sys2Proof.Machine

/-- `XCCheck(m, F)` (R120): the checks in the order of 60_exceptions.md R212, then the skip when SLOT is all EMPTY; `k` goes
on with the source half. -/
def xcCheck (m : BitDepth) (f : Nat) (i : Instr) (s : State) (k : Half → Result) : Result :=
  streamingCommand .isr i s
    (require (decide (s.mode = some m)) .modeMismatch i s
      (match s.src with
      | Option.none => .next (raiseFault .noSource (encodeWord i) s)
      | some h =>
        require (decide (f < s.par.n)) .frameRange i s
          (if allEmpty s.slot then .next (advance s) else k h)))

/-- Write one value per block at index `f`, in block order, and go on (R130). -/
def transcodeTo (lanes : List Sample) (f : Nat) (s : State) : Result :=
  .next (advance (writeLanes s.slot.list lanes f s))

/-- XC16 F (R121, R123): zero-fill; RAW is not read. -/
def execXc16 (f : Nat) (s : State) : Result :=
  xcCheck .bits16 f (.xc16 f) s fun _ => transcodeTo silentLanes f s

/-- XC24 F (R122, R124). -/
def execXc24 (f : Nat) (s : State) : Result :=
  xcCheck .bits24 f (.xc24 f) s fun h =>
    let (fv, t) := readFrame h f s
    transcodeTo (lanes24 fv) f t

/-- XC32 F (R122, R125). -/
def execXc32 (f : Nat) (s : State) : Result :=
  xcCheck .bits32 f (.xc32 f) s fun h =>
    let (fv, t) := readFrame h f s
    transcodeTo (lanes32 fv) f t

/-- XCUNS F (R126): silence; RAW is not read. -/
def execXcuns (f : Nat) (s : State) : Result :=
  xcCheck .unsupported f (.xcuns f) s fun _ => transcodeTo silentLanes f s

end Sys2Proof.Machine
end

