-- ==== Sys2Proof/Machine/Dispatch.lean ====
section
/-! DEFINITION. What each command does: one arm per row of the opcode table (30_encoding.md R93). -/

namespace Sys2Proof.Machine

def exec (i : Instr) (s : State) : Host.Outcome State Fault Refusal :=
  match i with
  | .dmaFrame fv => Sys2Proof.Machine.execDmaFrame fv s
  | .init depth tk => Sys2Proof.Machine.execInit depth tk s
  | .xc16 f => Sys2Proof.Machine.execXc16 f s
  | .xc24 f => Sys2Proof.Machine.execXc24 f s
  | .xc32 f => Sys2Proof.Machine.execXc32 f s
  | .xcuns f => Sys2Proof.Machine.execXcuns f s
  | .sel => Sys2Proof.Machine.execSel s
  | .cinv => Sys2Proof.Machine.execCinv s
  | .updall => Sys2Proof.Machine.execUpdall s
  | .iret => Sys2Proof.Machine.execIret s
  | .alloc16 => Sys2Proof.Machine.execAlloc16 s
  | .swap => Sys2Proof.Machine.execSwap s
  | .fwd => Sys2Proof.Machine.execFwd s
  | .csd => Sys2Proof.Machine.execCsd s
  | .cse => Sys2Proof.Machine.execCse s

end Sys2Proof.Machine
end

