-- ==== Sys2Proof/Machine/Program.lean ====
section
/-! DEFINITION. What each agent performs: the pseudo-instructions (30_encoding.md R98 to R100), the handler body, the host
program and the frame stream. -/

namespace Sys2Proof.Machine

/-- The transcoder command of a mode (R98). -/
def xcOf : BitDepth → Nat → Instr
  | .bits16, f => .xc16 f
  | .bits24, f => .xc24 f
  | .bits32, f => .xc32 f
  | .unsupported, f => .xcuns f

/-- Pseudo-instruction `xcall` (R98). -/
def xcall (m : BitDepth) (n : Nat) : List Instr := (List.range n).map (xcOf m)

/-- Pseudo-instruction `isr` (R99): the handler body of 43_interrupt_handler.md R140, N + 4 commands. -/
def handlerBody (m : BitDepth) (n : Nat) : List Instr := [.sel, .cinv] ++ xcall m n ++ [.updall, .iret]

/-- Pseudo-instruction `update` (R100, 44_block_exchange.md R160). -/
def updateCycle : List Instr := [.alloc16, .csd, .swap, .cse, .fwd]

/-- The k-th frame of the wire (41_raw_buffer.md R110). -/
def wireAt (s : State) (k : Nat) : Option Frame :=
  match s.wire[k]? with
  | some fv => some fv
  | Option.none => if s.endless then some (Config.wireFrame k) else Option.none

/-- The next command of an agent's command sequence (10_state.md R22). The handler body is the one MODE and N give; MODE
holds a value once INIT has registered the handler, and before that there is no body (log entry 20). -/
def nextCommand (a : Agent) (s : State) : Option Command :=
  match a with
  | .coop => s.prog[s.pcCoop]?
  | .isr => s.mode.bind fun m => ((handlerBody m s.par.n)[s.pcIsr]?).map encode
  | .dma => (wireAt s s.pcDma).map fun fv => encode (.dmaFrame fv)

end Sys2Proof.Machine
end

