-- ==== Sys2Proof/Machine/Turn.lean ====
section
/-! DEFINITION. Whose step it is and what that step performs (10_state.md R21, 60_exceptions.md R216, R220). -/

namespace Sys2Proof.Machine

/-- Interrupt entry is enabled (60_exceptions.md R216); FAULT = 0 is `enabled`'s own condition. -/
def entryEnabled (s : State) : Bool := !s.inIsr && s.irqPending && !s.irqMask

/-- The agent may take a step (R21). -/
def enabled (a : Agent) (s : State) : Bool :=
  decide (s.fault = .none) &&
  match a with
  | .coop => !s.inIsr && (nextCommand .coop s).isSome
  | .isr => (s.inIsr && (nextCommand .isr s).isSome) || entryEnabled s
  | .dma => decide (s.drv = .streaming) && (nextCommand .dma s).isSome

/-- The enabled agents. -/
def enabledAgents (s : State) : List Agent := [Agent.coop, .isr, .dma].filter fun a => enabled a s

/-- The first listed choice that is an enabled agent, and the choices after it; a choice of an agent that is not enabled is
passed over (log entry 3). -/
def firstEnabled (agents : List Agent) : List Agent → Option (Agent × List Agent)
  | [] => Option.none
  | a :: rest => if a ∈ agents then some (a, rest) else firstEnabled agents rest

/-- The agent that steps: any enabled one, by the listed choices and, when those are used up, by a free choice (R21). -/
def chooseAgent (s : State) : Option (Agent × State) :=
  match firstEnabled (enabledAgents s) s.sched with
  | some (a, rest) => some (a, { s with sched := rest })
  | Option.none =>
    match enabledAgents s with
    | [] => Option.none
    | a :: others => some (drawFrom (a :: others) a { s with sched := [] })

/-- The next step begins, and `a` takes it. -/
def beginStep (a : Agent) (s : State) : State := { s with actor := a, now := s.now + 1 }

/-- The end of a run (45_init_and_interfaces.md R200). -/
def isFinal (s : State) : Bool :=
  decide (s.fault = .none) && (nextCommand .coop s).isNone && (nextCommand .dma s).isNone && !s.inIsr &&
  (!s.irqPending || s.irqMask)

/-- Why no agent steps. -/
def stopReason (s : State) : Fault :=
  if s.fault = .none then (if isFinal s then .runEnded else .noAgentEnabled) else .stoppedByFault

/-- What a step performs. -/
inductive Turn where
  /-- Interrupt entry, with the state after it. -/
  | entry (t : State)
  /-- A command, with the state it runs in. -/
  | command (i : Instr) (t : State)
  /-- A word that is no command, with the state after its fault. -/
  | illegal (t : State)
  /-- No step. -/
  | stop (r : Fault)
  deriving DecidableEq, Repr

/-- Fetch and decode the next command of the agent whose step has begun. An undecodable word faults (30_encoding.md R95). -/
def fetchFor (a : Agent) (s : State) : Turn :=
  match nextCommand a s with
  | Option.none => .stop .noAgentEnabled
  | some c =>
    match decode c with
    | .ok i => .command i s
    | .error _ => .illegal (raiseFault .illegalCommand c.word s)

/-- What the agent performs: other pool clients act before a COOP command (45_init_and_interfaces.md R196); the ISR agent
enters the handler first. -/
def turnOf (a : Agent) (s : State) : Turn :=
  match a with
  | .coop => fetchFor .coop (clientsAct (beginStep .coop s))
  | .isr => if s.inIsr then fetchFor .isr (beginStep .isr s) else .entry (interruptEntry (beginStep .isr s))
  | .dma => fetchFor .dma (beginStep .dma s)

/-- What the next step performs. -/
def nextTurn (s : State) : Turn :=
  match chooseAgent s with
  | Option.none => .stop (stopReason s)
  | some (a, t) => turnOf a t

/-- A command as the opcode table numbers its bits: the word in bits 31:0 and the payload above, zero from `nbits` on. -/
def commandOfBits (nbits w : Nat) : Command :=
  ⟨BitVec.ofNat 32 (w % 2 ^ nbits), BitVec.ofNat 256 ((w % 2 ^ nbits) / 2 ^ 32)⟩

/-- A list with `x` as its entry number `k`, filled up with `dflt` where it is shorter. -/
def listWith {α : Type} (xs : List α) (k : Nat) (x dflt : α) : List α :=
  (xs.take k ++ List.replicate (k - xs.length) dflt) ++ x :: xs.drop (k + 1)

/-- A streaming state: the state itself, or what INIT of a 16-bit depth would make of its MODE and STATE. -/
def asStreaming (s : State) : State :=
  match s.drv with
  | .streaming => s
  | .uninitialized => { s with mode := some .bits16, drv := .streaming }

/-- The handler body that holds a command (the mode it is built for) and the command's place in it
(43_interrupt_handler.md R140). -/
def handlerPlace (m : BitDepth) (n : Nat) (i : Instr) : Option (BitDepth × Nat) :=
  match i with
  | .sel => some (m, 0)
  | .cinv => some (m, 1)
  | .xc16 f => if f < n then some (.bits16, f + 2) else Option.none
  | .xc24 f => if f < n then some (.bits24, f + 2) else Option.none
  | .xc32 f => if f < n then some (.bits32, f + 2) else Option.none
  | .xcuns f => if f < n then some (.unsupported, f + 2) else Option.none
  | .updall => some (m, n + 2)
  | .iret => some (m, n + 3)
  | .dmaFrame _ => Option.none
  | .init _ _ => Option.none
  | .alloc16 => Option.none
  | .swap => Option.none
  | .fwd => Option.none
  | .csd => Option.none
  | .cse => Option.none

/-- COOP is about to issue `c` (log entry 2). -/
def beforeCoop (c : Command) (s : State) : State :=
  { s with
    prog := listWith s.prog s.pcCoop c ⟨0#32, 0#256⟩
    sched := .coop :: s.sched
    inIsr := false
    fault := .none }

/-- The wire is about to deliver `fv` (log entry 2). -/
def beforeFrame (fv : Frame) (s : State) : State :=
  { asStreaming s with
    wire := listWith s.wire s.pcDma fv 0#256
    sched := .dma :: s.sched
    fault := .none }

/-- The handler is about to issue command `k` of the body of mode `m`, SEL having chosen a half before any later command
(log entry 2). -/
def beforeHandler (m : BitDepth) (k : Nat) (s : State) : State :=
  { asStreaming s with
    mode := some m
    inIsr := true
    pcIsr := k
    src := if k = 0 then Option.none else some (otherHalf (whalf s))
    sched := .isr :: s.sched
    fault := .none }

/-- The state in which the very next step issues `c`: by the command's own agent where that agent has a place for it, and
otherwise by COOP, whose program can hold any word (30_encoding.md R95, R96; log entry 2). -/
def beforeCommand (c : Command) (s : State) : State :=
  match decode c with
  | .error _ => beforeCoop c s
  | .ok (.dmaFrame fv) => beforeFrame fv s
  | .ok i =>
    match handlerPlace (s.mode.getD .bits16) s.par.n i with
    | some (m, k) => beforeHandler m k s
    | Option.none => beforeCoop c s

end Sys2Proof.Machine
end

