-- ==== Sys2Proof/Machine/Step.lean ====
section
/-! DEFINITION. One step of the machine: one agent performs one command or interrupt entry (10_state.md R21). -/

namespace Sys2Proof.Machine

/-- One step. -/
def step (s : State) : Host.Outcome State Fault Refusal :=
  match nextTurn s with
  | .entry t => .next t
  | .command i t => exec i t
  | .illegal t => .next t
  | .stop r => .fault r

/-- The state in which the next step fetches and issues the command of these bits (log entry 2). -/
def State.withFetchWord (s : State) (nbits w : Nat) : State := beforeCommand (commandOfBits nbits w) s

end Sys2Proof.Machine
end

