-- ==== Sys2Proof/Safety.lean ====
section
/-! DEFINITION. The terms claims are made in: the state invariant, the faults a command may report, the outcomes of ALLOC16, runs
and their fairness. -/

namespace Sys2Proof.Safety

open Sys2Proof.Machine

/-- An array of sixteen handles is all EMPTY or all non-EMPTY (10_state.md R39). -/
def Uniform (b : Bank) : Prop := allEmpty b = true ∨ allFull b = true

/-- The non-EMPTY handles the unit holds in SLOT, NEW and RET together (R40). -/
def heldHandles (s : State) : List Handle :=
  (s.slot.list ++ s.new.list ++ s.ret.list).filter fun h => h != emptyHandle

/-- Ownership (R40, R35): held handles are pairwise distinct, elements of HANDLE, and not free in the pool. -/
structure Ownership (s : State) : Prop where
  distinct : (heldHandles s).Nodup
  inHandle : ∀ h ∈ heldHandles s, h ∈ s.par.handles
  notFree : ∀ h ∈ heldHandles s, h ∉ s.free

/-- `FREE ⊆ HANDLE`, as one rising list (45_init_and_interfaces.md R196). -/
structure PoolSound (s : State) : Prop where
  rising : handlesRising s.free
  inHandle : ∀ h ∈ s.free, h ∈ s.par.handles

/-- Every sparse table is in its canonical form. -/
structure StorageCanonical (s : State) : Prop where
  raw : Memory.wf s.raw
  blk : cellsRising s.blk
  samples : ∀ c ∈ s.blk, cellsRising c.2.samples
  lastInv : cellsRising s.lastInv

/-- The control state is one a run can have. -/
structure ControlSound (s : State) : Prop where
  /-- WPOS is in `0 .. 2N-1` (10_state.md R32). -/
  wpos : s.wpos < 2 * s.par.n
  /-- MODE holds a value exactly from INIT on (R24). -/
  mode : s.mode.isSome = decide (s.drv = .streaming)
  /-- FAGENT is written with FAULT (R27). -/
  fagent : s.fagent.isSome = decide (s.fault ≠ .none)
  /-- The interrupt context is not entered before INIT (70_reset_and_hazards.md R240). -/
  handlerStreaming : s.inIsr = true → s.drv = .streaming
  /-- No completion is pending before INIT (R240). -/
  pendingStreaming : s.irqPending = true → s.drv = .streaming
  /-- The handler's `pc` names a command of its body, and is 0 outside the handler (43_interrupt_handler.md R140, R144). -/
  handlerPc : if s.inIsr then s.pcIsr < s.par.n + 4 else s.pcIsr = 0
  /-- SRC holds a value exactly while the handler runs after SEL (R141, R144). -/
  source : s.src.isSome = (s.inIsr && decide (0 < s.pcIsr))

/-- The invariant of every run. -/
structure Inv (s : State) : Prop where
  slotUniform : Uniform s.slot
  newUniform : Uniform s.new
  retUniform : Uniform s.ret
  ownership : Ownership s
  pool : PoolSound s
  storage : StorageCanonical s
  control : ControlSound s

/-- The inputs of a run that the environment's duties admit: the pool starts with a set of handles of HANDLE (R196). -/
def inputsOk (p : Params) (inp : Inputs) : Prop := handlesRising inp.free ∧ ∀ h ∈ inp.free, h ∈ p.handles

/-- The causes of 60_exceptions.md R210, for a command in a state. -/
def faultApplies (c : FaultCode) (i : Instr) (s : State) : Bool :=
  match c with
  | .none => false
  | .illegalCommand => false
  | .wrongContext => decide (s.actor ≠ agentOf (opOf i))
  | .notStreaming =>
    decide (s.drv = .uninitialized) && decide (opOf i ≠ .init) && decide (opOf i ≠ .dmaFrame)
  | .reinit => decide (s.drv = .streaming) && decide (opOf i = .init)
  | .modeMismatch =>
    match i with
    | .xc16 _ => decide (s.mode ≠ some .bits16)
    | .xc24 _ => decide (s.mode ≠ some .bits24)
    | .xc32 _ => decide (s.mode ≠ some .bits32)
    | .xcuns _ => decide (s.mode ≠ some .unsupported)
    | _ => false
  | .noSource => !srcValid s && decide (opOf i ∈ [Op.cinv, .xc16, .xc24, .xc32, .xcuns])
  | .frameRange =>
    match i with
    | .xc16 f => decide (s.par.n ≤ f)
    | .xc24 f => decide (s.par.n ≤ f)
    | .xc32 f => decide (s.par.n ≤ f)
    | .xcuns f => decide (s.par.n ≤ f)
    | _ => false
  | .swapUnmasked => !s.irqMask && decide (opOf i = .swap)
  | .worksetBusy =>
    (!allEmpty s.new && decide (opOf i = .alloc16)) || (!allEmpty s.ret && decide (opOf i = .swap))

/-- The state after the first fault of a run, raised by command `i` (60_exceptions.md R211): the record, and nothing else. -/
def faultedWith (c : FaultCode) (i : Instr) (s : State) : State :=
  { s with fault := c, fagent := some s.actor, fword := encodeWord i }

/-- The order of 60_exceptions.md R212. -/
def faultOrder : List FaultCode :=
  [.illegalCommand, .wrongContext, .notStreaming, .reinit, .modeMismatch, .noSource, .frameRange, .swapUnmasked,
    .worksetBusy]

/-- The fault a command reports: the first applicable one, `none` if the command completes (R212). -/
def reportedFault (i : Instr) (s : State) : FaultCode :=
  (faultOrder.find? fun c => faultApplies c i s).getD .none

/-- An infinite run: each state is a step after the one before (10_state.md R21). -/
def IsRun (run : Nat → State) : Prop := ∀ k, step (run k) = .next (run (k + 1))

/-- Weak fairness (60_exceptions.md R220): an agent that stays enabled is eventually taken. A property of infinite runs, which
`step` does not enforce (log entry 18). -/
def WeaklyFair (run : Nat → State) : Prop :=
  ∀ (a : Agent) (k : Nat), (∀ j, k ≤ j → enabled a (run j) = true) → ∃ j, k ≤ j ∧ (run (j + 1)).actor = a

/-- The states of runs from power-on on a platform with admitted inputs. -/
inductive Reachable (p : Params) (inp : Inputs) : State → Prop where
  | start : inputsOk p inp → Reachable p inp (State.initial p inp)
  | step (s t : State) : Reachable p inp s → Machine.step s = .next t → Reachable p inp t

/-- What ALLOC16 does when sixteen allocations succeed (44_block_exchange.md R161, 10_state.md R41). -/
def TookSixteen (s t : State) : Prop :=
  t.new.list.Nodup ∧ (∀ h ∈ t.new.list, h ∈ s.free) ∧
  (∀ h, h ∈ t.free ↔ h ∈ s.free ∧ h ∉ t.new.list) ∧
  t.events = s.events ++ t.new.list.map .alloc ∧
  (∀ g f, g ∉ t.new.list → blkRead t g f = blkRead s g f) ∧
  (∀ g ∈ t.new.list, ∃ k, s.allocs < k ∧ ∀ f, blkRead t g f = Config.freshSample k g f) ∧
  t = { s with
    new := t.new, free := t.free, blk := t.blk, events := t.events, pcCoop := s.pcCoop + 1
    allocs := t.allocs, draws := t.draws, drawn := t.drawn }

/-- What ALLOC16 does when an allocation fails after those of `taken` (R161). -/
def RolledBack (s t : State) (taken : List Handle) : Prop :=
  taken.Nodup ∧ (∀ h ∈ taken, h ∈ s.free) ∧ taken.length < 16 ∧
  (∀ g f, g ∉ taken → blkRead t g f = blkRead s g f) ∧
  t = { s with
    events := s.events ++ taken.map .alloc ++ [.allocFail] ++ taken.map .release
    blk := t.blk, pcCoop := s.pcCoop + 1
    allocs := t.allocs, draws := t.draws, drawn := t.drawn }

end Sys2Proof.Safety
end

