-- ==== Sys2Proof/Certificates/Slice0/Obligations.lean ====
section
/-! DEFINITION. The statements for the provers, each formalising rules of spec/ named in its docstring. -/

open Sys2Proof Sys2Proof.Machine Sys2Proof.Safety

/-! ### Encoding -/

/-- The words of 30_encoding.md R101, and its three words that do not decode. -/
def Obligations.ExampleWordsDecode : Prop :=
  decode ⟨0x10000120#32, 0#256⟩ = .ok (.init 32 true) ∧
  decode ⟨0x10000018#32, 0#256⟩ = .ok (.init 24 false) ∧
  decode ⟨0x10000010#32, 0#256⟩ = .ok (.init 16 false) ∧
  decode ⟨0x10000014#32, 0#256⟩ = .ok (.init 20 false) ∧
  decode ⟨0x22000001#32, 0#256⟩ = .ok (.xc32 1) ∧
  decode ⟨0x2100007F#32, 0#256⟩ = .ok (.xc24 0x7F) ∧
  decode ⟨0x23000000#32, 0#256⟩ = .ok (.xcuns 0) ∧
  decode ⟨0x30000000#32, 0#256⟩ = .ok .sel ∧
  decode ⟨0x33000000#32, 0#256⟩ = .ok .iret ∧
  decode ⟨0x40000000#32, 0#256⟩ = .ok .alloc16 ∧
  decode ⟨0x41000000#32, 0#256⟩ = .ok .swap ∧
  decode ⟨0x50000000#32, 0#256⟩ = .ok .csd ∧
  decode ⟨0x51000000#32, 0#256⟩ = .ok .cse ∧
  decode ⟨0x30000001#32, 0#256⟩ = .error (.reservedBitSet 0x30000001#32) ∧
  decode ⟨0x10000200#32, 0#256⟩ = .error (.reservedBitSet 0x10000200#32) ∧
  decode ⟨0x24000000#32, 0#256⟩ = .error (.unassignedOpcode 0x24#8)

/-- Every well-formed command survives encoding and decoding, with every operand at every value its field admits
(R90, R91, R92). -/
def Obligations.DecodeOfEncode : Prop := ∀ i : Instr, i.wellFormed = true → decode (encode i) = .ok i

/-- What decodes is well-formed and encodes to the word it came from, and DMA.FRAME to its payload too (R91, R92, R94). -/
def Obligations.EncodeOfDecode : Prop :=
  ∀ (c : Command) (i : Instr), decode c = .ok i →
    i.wellFormed = true ∧ encodeWord i = c.word ∧ (opOf i = .dmaFrame → encodePayload i = c.payload)

/-- R94, whole: the row is the one whose `(w AND mask) = match`; the opcodes differ and every mask covers bits 31:24, so at
most one row matches; a word decodes exactly when a row matches, and otherwise the decoder answers an error. -/
def Obligations.DecodingFollowsMaskAndMatch : Prop :=
  (∀ (c : Command) (o : Op), (∃ i, decode c = .ok i ∧ opOf i = o) ↔ c.word &&& maskOf o = matchOf o) ∧
  (∀ o1 o2 : Op, opcOf o1 = opcOf o2 → o1 = o2) ∧
  (∀ o : Op, maskOf o &&& 0xFF000000#32 = 0xFF000000#32) ∧
  (∀ (w : Word) (o1 o2 : Op), w &&& maskOf o1 = matchOf o1 → w &&& maskOf o2 = matchOf o2 → o1 = o2) ∧
  (∀ c : Command, (∀ o : Op, c.word &&& maskOf o ≠ matchOf o) ↔ ∃ e, decode c = .error e)

/-- R95: the words that do not decode are those with an unassigned opcode and those with a 1 in a reserved bit of an assigned
opcode's format. -/
def Obligations.IllegalWordsAreTheReservedOnes : Prop :=
  ∀ c : Command,
    (∃ e, decode c = .error e) ↔
      (∀ o : Op, opcOf o ≠ opcField c.word) ∨
      (∃ o : Op, opcOf o = opcField c.word ∧ c.word &&& maskOf o &&& 0x00FFFFFF#32 ≠ 0#32)

/-- A command stored as bytes decodes to itself and leaves the bytes that follow it: 4 bytes, and 32 payload bytes for
`OPC = 0x01` (R90). The payload's byte order is the model's choice (log entry 11). -/
def Obligations.StoredBytesDecode : Prop :=
  ∀ (i : Instr) (rest : List Byte), i.wellFormed = true →
    decodeBytes (commandBytes (encode i) ++ rest) = .ok (i, rest)

/-! ### Steps and scheduling -/

/-- A step runs the decoded command of the agent whose turn it is: of COOP after the other pool clients have acted
(45_init_and_interfaces.md R196), of the handler body, or of the wire (10_state.md R21, R22). Frame k of the wire is the k-th of
the stream, in arrival order (41_raw_buffer.md R110); a stream that never ends goes on with free values after the listed ones
(log entry 2). The schedule's form (log entry 3), the step index (8), that the clients act at this point (10) and the
issuing-agent field (15) are the model's own. -/
def Obligations.StepRunsTheDecodedCommand : Prop :=
  (∀ (s : State) (rest : List Agent) (c : Command) (i : Instr), s.fault = .none → s.inIsr = false →
    s.sched = .coop :: rest → s.prog[s.pcCoop]? = some c → decode c = .ok i →
    step s = exec i (clientsAct { s with sched := rest, actor := .coop, now := s.now + 1 })) ∧
  (∀ (s : State) (rest : List Agent) (m : BitDepth) (i : Instr), s.fault = .none → s.inIsr = true →
    s.sched = .isr :: rest → s.mode = some m → (handlerBody m s.par.n)[s.pcIsr]? = some i →
    step s = exec i { s with sched := rest, actor := .isr, now := s.now + 1 }) ∧
  (∀ (s : State) (rest : List Agent) (fv : Frame), s.fault = .none → s.drv = .streaming →
    s.sched = .dma :: rest → wireAt s s.pcDma = some fv →
    step s = exec (.dmaFrame fv) { s with sched := rest, actor := .dma, now := s.now + 1 }) ∧
  (∀ (s : State) (k : Nat) (fv : Frame), s.wire[k]? = some fv → wireAt s k = some fv) ∧
  (∀ (s : State) (k : Nat), s.wire[k]? = Option.none →
    wireAt s k = if s.endless = true then some (Config.wireFrame k) else Option.none)

/-- R21: when each agent is enabled, COOP never while the handler runs; the second case of ISR is interrupt entry; any enabled
agent may be the one that steps, whatever the others are; and only an enabled one steps. That a listed choice names the agent is
the model's form of the open choice, log entry 3: the last two clauses rest on it. -/
def Obligations.AnyEnabledAgentMayStep : Prop :=
  (∀ s : State, enabled .dma s = true ↔
    s.drv = .streaming ∧ s.fault = .none ∧ (wireAt s s.pcDma).isSome = true) ∧
  (∀ s : State, enabled .isr s = true ↔
    s.fault = .none ∧
      ((s.inIsr = true ∧ (nextCommand .isr s).isSome = true) ∨
       (s.inIsr = false ∧ s.irqPending = true ∧ s.irqMask = false))) ∧
  (∀ s : State, s.inIsr = false → turnOf .isr s = .entry (interruptEntry (beginStep .isr s))) ∧
  (∀ s : State, enabled .coop s = true ↔
    s.fault = .none ∧ s.inIsr = false ∧ (s.prog[s.pcCoop]?).isSome = true) ∧
  (∀ (s : State) (a : Agent), enabled a s = true → chooseAgent { s with sched := a :: s.sched } = some (a, s)) ∧
  (∀ (s t : State) (a : Agent), chooseAgent s = some (a, t) → enabled a s = true)

/-- The machine has no step exactly where no agent is enabled, and never refuses (R21). -/
def Obligations.StepStopsExactlyWhenNoAgentIsEnabled : Prop :=
  ∀ s : State, ((∃ r, step s = .fault r) ↔ ∀ a, enabled a s = false) ∧ ∀ r, step s ≠ .refused r

/-- R200, whole: which states are final; a faulted state is never final, and an infinite frame stream has no final state; and
(60_exceptions.md R211) neither a faulted nor a final state has a step. That step then answers a fault, and which, is the
model's choice (log entry 12). -/
def Obligations.FaultedAndFinalStatesHaveNoStep : Prop :=
  (∀ s : State, isFinal s = true ↔
    s.fault = .none ∧ s.prog[s.pcCoop]? = Option.none ∧ wireAt s s.pcDma = Option.none ∧ s.inIsr = false ∧
      (s.irqPending = false ∨ s.irqMask = true)) ∧
  (∀ s : State, s.endless = true → isFinal s = false) ∧
  (∀ s : State, s.fault ≠ .none → step s = .fault .stoppedByFault ∧ isFinal s = false) ∧
  (∀ s : State, isFinal s = true → step s = .fault .runEnded)

/-! ### Faults -/

/-- R211: a command that faults changes FAULT, FAGENT and FWORD only (so neither its `pc` nor EVENTS); from then on no agent is
enabled, the state is not final, and no step clears the fault. A whole step that faults changes, beside the record, the other
pool clients' moves before a COOP command (log entry 10) and the model's own fields: the step index (log entry 8), the issuing
agent (15) and the supply of choices (3, 4). -/
def Obligations.FaultChangesOnlyItsRecord : Prop :=
  (∀ (i : Instr) (s t : State), s.fault = .none → exec i s = .next t → t.fault ≠ .none →
    t = { s with fault := reportedFault i s, fagent := some s.actor, fword := encodeWord i }) ∧
  (∀ s t : State, step s = .next t → t.fault ≠ .none →
    t = { s with
      fault := t.fault, fagent := some t.actor, fword := t.fword, free := t.free, clients := t.clients
      sched := t.sched, draws := t.draws, drawn := t.drawn, now := s.now + 1, actor := t.actor }) ∧
  (∀ t : State, t.fault ≠ .none → (∀ a, enabled a t = false) ∧ isFinal t = false ∧ ∀ u, step t ≠ .next u) ∧
  agentBits (some .coop) = 0b01#2 ∧ agentBits (some .isr) = 0b10#2 ∧ agentBits (some .dma) = 0b11#2

/-- The first fault's record is kept, whatever command is tried. No run tries one, so what a command does in a faulted state is
the model's inference from R31 and R49, which speak of the first fault of a run (log entry 13). -/
def Obligations.FirstFaultIsKept : Prop :=
  ∀ (i : Instr) (s t : State), s.fault ≠ .none → exec i s = .next t →
    t.fault = s.fault ∧ t.fagent = s.fagent ∧ t.fword = s.fword

/-- Of the causes of R210 that apply, a command reports the first in the order of R212, and completes when none applies; causes 2
and 3 never both apply. A word that does not decode is no command, so cause 1 stands alone (`IllegalWordFaultsWhenIssued`). -/
def Obligations.FirstApplicableFaultIsReported : Prop :=
  (∀ (i : Instr) (s t : State), s.fault = .none → exec i s = .next t → t.fault = reportedFault i s) ∧
  (∀ (i : Instr) (s : State), ¬(faultApplies .notStreaming i s = true ∧ faultApplies .reinit i s = true))

/-- A word of the host program that does not decode faults with ILLEGAL_COMMAND in the step that issues it
(30_encoding.md R95, 60_exceptions.md R210, R211), after the other pool clients have acted (45_init_and_interfaces.md R196). That
they act in this very step (log entry 10), the used schedule entry (3), the step index (8) and the issuing-agent field (15) are
the model's own. -/
def Obligations.IllegalWordFaultsWhenIssued : Prop :=
  ∀ (s : State) (rest : List Agent) (c : Command) (e : DecodeError), s.fault = .none → s.inIsr = false →
    s.sched = .coop :: rest → s.prog[s.pcCoop]? = some c → decode c = .error e →
    step s = .next
      { clientsAct { s with sched := rest, actor := .coop, now := s.now + 1 } with
        fault := .illegalCommand, fagent := some .coop, fword := c.word }

/-- Every command issued by an agent other than its own faults with WRONG_CONTEXT and does nothing else
(30_encoding.md R96, 60_exceptions.md R221). -/
def Obligations.WrongContextFaults : Prop :=
  ∀ (i : Instr) (s : State), s.fault = .none → s.actor ≠ agentOf (opOf i) →
    exec i s = .next (faultedWith .wrongContext i s)

/-- FWORD holds the word that COOP issued, for every fault a step of COOP raises (10_state.md R49). -/
def Obligations.FaultRecordsTheIssuedWord : Prop :=
  ∀ (s t : State) (c : Command), step s = .next t → t.actor = .coop → t.fault ≠ .none →
    s.prog[s.pcCoop]? = some c → t.fword = c.word

/-! ### Initialisation and reset -/

/-- INIT (45_init_and_interfaces.md R190, R191), with its faults: it completes before streaming; from then on the DMA agent is
enabled when the wire has a frame, and the handler body of R140 is the one built for the mode. -/
def Obligations.InitStartsStreaming : Prop :=
  (∀ (d : Nat) (tk : Bool), d < 256 →
    encodeWord (.init d tk) = 0x10000000#32 ||| BitVec.ofNat 32 (if tk then 1 else 0) <<< 8 ||| BitVec.ofNat 32 d) ∧
  (∀ (s : State) (d : Nat) (tk : Bool), s.fault = .none → s.actor ≠ .coop →
    exec (.init d tk) s = .next (faultedWith .wrongContext (.init d tk) s)) ∧
  (∀ (s : State) (d : Nat) (tk : Bool), s.fault = .none → s.actor = .coop → s.drv = .streaming →
    exec (.init d tk) s = .next (faultedWith .reinit (.init d tk) s)) ∧
  (∀ (s : State) (d : Nat) (tk : Bool), s.actor = .coop → s.drv = .uninitialized →
    let m : BitDepth := if d = 16 then .bits16 else if d = 24 then .bits24 else if d = 32 then .bits32 else .unsupported
    ∃ t, exec (.init d tk) s = .next t ∧
      t = { s with
        mode := some m, tk := tk, drv := .streaming, wpos := 0, irqPending := false, pcCoop := s.pcCoop + 1 } ∧
      (s.fault = .none → (wireAt s s.pcDma).isSome = true → enabled .dma t = true) ∧
      nextCommand .isr t = ((handlerBody m s.par.n)[s.pcIsr]?).map encode)

/-- The power-on state of 10_state.md R48, on every platform with every input. The contents of BLK and RAW are free values
(log entries 5 and 6), and the reset step is the model's step 0 (log entry 8). R48 gives SRC and MODE no value: that the whole
STAT word is then 0, its SRC bit shown as 0 as 95_test_vectors.md 2.7 writes it, and that the CFG word has no value, is the
model's view (log entry 16). -/
def Obligations.PowerOnState : Prop :=
  ∀ (p : Params) (inp : Inputs),
    let s := State.initial p inp
    cfgWord s = Option.none ∧ s.mode = Option.none ∧ s.tk = false ∧ s.drv = .uninitialized ∧
    statWord s = 0#32 ∧ s.src = Option.none ∧ s.fault = .none ∧ s.fagent = Option.none ∧
    s.fword = 0#32 ∧ s.wpos = 0 ∧ s.updreq = 0#32 ∧
    (∀ k, 0x10 ≤ k → k < 0x40 → regView s k = some emptyHandle) ∧
    (∀ h f, blkRead s h f = Config.freshSample 0 h f) ∧
    (∀ a, cpuByte a s = (Config.powerOnByte a, s)) ∧
    (∀ a, lastInvOf s a = s.now) ∧
    s.events = [] ∧ s.pcCoop = 0 ∧ s.pcIsr = 0 ∧ s.pcDma = 0

/-- MODE, TK and STATE are fixed once streaming: no step leaves STREAMING (10_state.md R26, 70_reset_and_hazards.md R249). -/
def Obligations.ConfigurationIsFixed : Prop :=
  ∀ s t : State, step s = .next t → s.drv = .streaming → t.drv = .streaming ∧ t.mode = s.mode ∧ t.tk = s.tk

/-! ### The raw buffer -/

/-- DMA.FRAME (41_raw_buffer.md R111), with its fault: the frame's 32 bytes in the platform's layout, the position modulo 2N, the
completion at a half boundary, one frame consumed; nothing else but the model's own record of what was overwritten, which
`ReadWindowIsRecorded` states. -/
def Obligations.DmaFrameWritesAndAdvances : Prop :=
  (∀ fv : Frame, encodeWord (.dmaFrame fv) = 0x01000000#32) ∧
  (∀ (s : State) (fv : Frame), s.fault = .none → s.actor ≠ .dma →
    exec (.dmaFrame fv) s = .next (faultedWith .wrongContext (.dmaFrame fv) s)) ∧
  ∀ (s : State) (fv : Frame), s.actor = .dma →
    let a := s.par.rawBase + 32 * s.wpos
    let w := (s.wpos + 1) % (2 * s.par.n)
    ∃ t, exec (.dmaFrame fv) s = .next t ∧
      (s.par.layout = .word32HiFirst → ∀ j, j < 8 → ∀ b, b < 4 →
        cellGet t.raw (a + 4 * j + b) = some (fv.extractLsb' (224 - 32 * j + 8 * b) 8)) ∧
      (s.par.layout = .half16Seq → ∀ k, k < 16 → ∀ b, b < 2 →
        cellGet t.raw (a + 2 * k + b) = some (fv.extractLsb' (240 - 16 * k + 8 * b) 8)) ∧
      (∀ x, x < a ∨ a + 32 ≤ x → cellGet t.raw x = cellGet s.raw x) ∧
      t = { s with
        raw := t.raw
        rawPast := t.rawPast
        wpos := w
        irqPending := s.irqPending || decide (w = s.par.n) || decide (w = 0)
        events := s.events ++
          (if w = s.par.n then [.completion .h0] else if w = 0 then [.completion .h1] else [])
        pcDma := s.pcDma + 1 }

/-- A frame that the DMA wrote reads back whole, in either layout: in every state where its bytes are still in memory and the
CPU's window starts at or after the last write over them (20_memory.md R61, R62, R63, R64, R66, 41_raw_buffer.md R111). Half 0 is
the lower one (R61). The window and the record of writes are the model's form (log entry 7). -/
def Obligations.SettledFrameReadsBack : Prop :=
  ∀ (s t u : State) (fv : Frame) (h : Half) (f : Nat),
    let k := if h = .h0 then 0 else 1
    let a := s.par.rawBase + 32 * (s.par.n * k + f)
    s.actor = .dma → s.wpos = s.par.n * k + f → exec (.dmaFrame fv) s = .next t →
    u.par = s.par →
    (∀ x, a ≤ x → x < a + 32 → cellGet u.raw x = cellGet t.raw x) →
    (∀ o ∈ u.rawPast, ∀ x, a ≤ x → x < a + 32 → overwrittenAt o x ≠ Option.none → o.step ≤ windowStart u x) →
    readFrame h f u = (fv, u)

/-- Only DMA.FRAME of the DMA agent writes RAW (20_memory.md R69). -/
def Obligations.OnlyDmaWritesRaw : Prop :=
  ∀ (i : Instr) (s t : State), exec i s = .next t →
    (t.raw = s.raw ∧ t.rawPast = s.rawPast) ∨ (s.actor = .dma ∧ ∃ fv, i = .dmaFrame fv)

/-- RAW is the 64N bytes from RAW_BASE (10_state.md R42, 20_memory.md R60): a step from a state with WPOS in range and no byte
listed outside them leads to such a state. -/
def Obligations.StepKeepsRawInItsRange : Prop :=
  ∀ s t : State, s.wpos < 2 * s.par.n →
    (∀ c ∈ s.raw, s.par.rawBase ≤ c.1 ∧ c.1 < s.par.rawBase + 64 * s.par.n) → step s = .next t →
    t.wpos < 2 * t.par.n ∧ ∀ c ∈ t.raw, t.par.rawBase ≤ c.1 ∧ c.1 < t.par.rawBase + 64 * t.par.n

/-- A CPU read of a byte gives a value that memory held for it since the window's start, may give each of them, and changes
nothing but the supply of open choices (20_memory.md R66, R69, R81). The window starts at LASTINV of the byte's line with a
cache, and at the handler's SEL without one: the model's reading of R66 with R81 (log entry 7). -/
def Obligations.CpuReadsAnyHeldValue : Prop :=
  ∀ (s : State) (a : Nat),
    windowStart s a = (if s.par.hasDcache = true then lastInvOf s a else s.selAt) ∧
    (∀ v, v ∈ heldSince s (windowStart s a) a ↔
      v = cellGet s.raw a ∨
      ∃ o ∈ s.rawPast, windowStart s a < o.step ∧ overwrittenAt o a = some v) ∧
    (∃ v ∈ heldSince s (windowStart s a) a, (cpuByte a s).1 = v.getD (Config.powerOnByte a)) ∧
    (∀ v ∈ heldSince s (windowStart s a) a, ∃ k,
      (cpuByte a { s with draws := [k] }).1 = v.getD (Config.powerOnByte a)) ∧
    (cpuByte a s).2 = { s with draws := (cpuByte a s).2.draws, drawn := (cpuByte a s).2.drawn }

/-! ### The transcoder -/

/-- XC32, with its word (42_transcoder.md R122, R125): block `SLOT[k]` gets slot word `w[k]` of the frame read; nothing else changes but the
command index and the supply of open choices that the read uses (R127). -/
def Obligations.Xc32WritesSlotWords : Prop :=
  (∀ f, f < 65536 → encodeWord (.xc32 f) = 0x22000000#32 ||| BitVec.ofNat 32 f) ∧
  ∀ (s : State) (h : Half) (f : Nat), s.actor = .isr → s.drv = .streaming → s.mode = some .bits32 → s.src = some h →
    f < s.par.n → allFull s.slot = true → s.slot.list.Nodup →
    ∃ t, exec (.xc32 f) s = .next t ∧
      (∀ k g, s.slot.list[k]? = some g → blkRead t g f = (readFrame h f s).1.extractLsb' (240 - 16 * k) 16) ∧
      (∀ g j, g ∉ s.slot.list ∨ j ≠ f → blkRead t g j = blkRead s g j) ∧
      t = { s with blk := t.blk, draws := t.draws, drawn := t.drawn, pcIsr := s.pcIsr + 1 }

/-- XC24, with its word (42_transcoder.md R122, R124, R132): of the packed 24-bit field i, the top 16 bits go to `SLOT[2i]` and the low 8
bits, over a zero byte, to `SLOT[2i+1]`; nothing else changes but the command index and the supply of open choices. -/
def Obligations.Xc24WritesHiAndLo : Prop :=
  (∀ f, f < 65536 → encodeWord (.xc24 f) = 0x21000000#32 ||| BitVec.ofNat 32 f) ∧
  ∀ (s : State) (h : Half) (f : Nat), s.actor = .isr → s.drv = .streaming → s.mode = some .bits24 → s.src = some h →
    f < s.par.n → allFull s.slot = true → s.slot.list.Nodup →
    ∃ t, exec (.xc24 f) s = .next t ∧
      (∀ i g, i < 8 → s.slot.list[2 * i]? = some g →
        blkRead t g f = (readFrame h f s).1.extractLsb' (240 - 24 * i) 16) ∧
      (∀ i g, i < 8 → s.slot.list[2 * i + 1]? = some g →
        blkRead t g f = (readFrame h f s).1.extractLsb' (232 - 24 * i) 8 ++ 0#8) ∧
      (∀ g j, g ∉ s.slot.list ∨ j ≠ f → blkRead t g j = blkRead s g j) ∧
      t = { s with blk := t.blk, draws := t.draws, drawn := t.drawn, pcIsr := s.pcIsr + 1 }

/-- XC16 and XCUNS, with their words (42_transcoder.md R123, R126): every block gets 0x0000 at the frame's index; nothing else changes but the
command index. -/
def Obligations.Xc16AndXcunsWriteSilence : Prop :=
  (∀ f, f < 65536 → encodeWord (.xc16 f) = 0x20000000#32 ||| BitVec.ofNat 32 f ∧
    encodeWord (.xcuns f) = 0x23000000#32 ||| BitVec.ofNat 32 f) ∧
  ∀ (i : Instr) (m : BitDepth) (s : State) (h : Half) (f : Nat),
    (i = .xc16 f ∧ m = .bits16) ∨ (i = .xcuns f ∧ m = .unsupported) →
    s.actor = .isr → s.drv = .streaming → s.mode = some m → s.src = some h → f < s.par.n → allFull s.slot = true →
    ∃ t, exec i s = .next t ∧
      (∀ g ∈ s.slot.list, blkRead t g f = 0x0000#16) ∧
      (∀ g j, g ∉ s.slot.list ∨ j ≠ f → blkRead t g j = blkRead s g j) ∧
      t = { s with blk := t.blk, pcIsr := s.pcIsr + 1 }

/-- With SLOT all EMPTY, each transcoder command of the configured mode changes its command index only: it neither reads RAW
nor writes BLK (42_transcoder.md R120). -/
def Obligations.EmptySlotSkipsTranscoding : Prop :=
  ∀ (i : Instr) (m : BitDepth) (s : State) (h : Half) (f : Nat),
    (i = .xc16 f ∧ m = .bits16) ∨ (i = .xc24 f ∧ m = .bits24) ∨ (i = .xc32 f ∧ m = .bits32) ∨
      (i = .xcuns f ∧ m = .unsupported) →
    s.actor = .isr → s.drv = .streaming → s.mode = some m → s.src = some h → f < s.par.n → allEmpty s.slot = true →
    exec i s = .next { s with pcIsr := s.pcIsr + 1 }

/-- What XC16 and XCUNS do does not depend on the raw buffer's contents (42_transcoder.md R123, R126: "regardless of raw buffer
contents"). -/
def Obligations.SilenceIgnoresRaw : Prop :=
  ∀ (i : Instr) (s t : State) (f : Nat) (m : Memory) (past : List Overwrite), i = .xc16 f ∨ i = .xcuns f →
    exec i s = .next t →
    exec i { s with raw := m, rawPast := past } = .next { t with raw := m, rawPast := past }

/-- R127, whole: a transcoder command that completes changes only the samples at index F of the SLOT blocks and its own command
index (and the supply of open choices that its read uses), and what it writes depends only on MODE, F, the frame read and SLOT. -/
def Obligations.TranscoderIsPure : Prop :=
  (∀ (i : Instr) (f : Nat) (s t : State), i = .xc16 f ∨ i = .xc24 f ∨ i = .xc32 f ∨ i = .xcuns f →
    s.fault = .none → exec i s = .next t → t.fault = .none →
    t = { s with blk := t.blk, draws := t.draws, drawn := t.drawn, pcIsr := s.pcIsr + 1 } ∧
    ∀ g j, g ∉ s.slot.list ∨ j ≠ f → blkRead t g j = blkRead s g j) ∧
  (∀ (i : Instr) (f : Nat) (s s' t t' : State) (h h' : Half), i = .xc16 f ∨ i = .xc24 f ∨ i = .xc32 f ∨ i = .xcuns f →
    s.fault = .none → s'.fault = .none → exec i s = .next t → exec i s' = .next t' → t.fault = .none → t'.fault = .none →
    s.mode = s'.mode → s.slot = s'.slot → s.src = some h → s'.src = some h' →
    (readFrame h f s).1 = (readFrame h' f s').1 →
    ∀ g ∈ s.slot.list, g ≠ emptyHandle → blkRead t g f = blkRead t' g f)

/-- Lossless reconstruction (42_transcoder.md R131): after XC32 and after XC24, a channel is its hi block's sample over its lo
block's, the low byte of a 24-bit lo word being 0. -/
def Obligations.PairsReconstructChannels : Prop :=
  ∀ (s t : State) (h : Half) (f i : Nat) (hi lo : Handle), s.actor = .isr → s.drv = .streaming → s.src = some h →
    f < s.par.n → allFull s.slot = true → s.slot.list.Nodup → i < 8 →
    s.slot.list[2 * i]? = some hi → s.slot.list[2 * i + 1]? = some lo →
    (s.mode = some .bits32 → exec (.xc32 f) s = .next t →
      blkRead t hi f ++ blkRead t lo f = channel32 (readFrame h f s).1 i) ∧
    (s.mode = some .bits24 → exec (.xc24 f) s = .next t →
      blkRead t hi f ++ (blkRead t lo f).extractLsb' 8 8 = channel24 (readFrame h f s).1 i ∧
      (blkRead t lo f).extractLsb' 0 8 = 0#8)

/-! ### The interrupt handler -/

/-- R140, whole: the handler body's N + 4 commands, in order; the ISR agent runs exactly this body, built for MODE, from its
command 0 at interrupt entry. -/
def Obligations.HandlerBodyIsFixed : Prop :=
  (∀ (m : BitDepth) (n : Nat),
    (handlerBody m n).length = n + 4 ∧
    (handlerBody m n)[0]? = some .sel ∧ (handlerBody m n)[1]? = some .cinv ∧
    (∀ f, f < n → (handlerBody m n)[f + 2]? =
      some (match m with | .bits16 => .xc16 f | .bits24 => .xc24 f | .bits32 => .xc32 f | .unsupported => .xcuns f)) ∧
    (handlerBody m n)[n + 2]? = some .updall ∧ (handlerBody m n)[n + 3]? = some .iret) ∧
  (∀ (s : State) (m : BitDepth), s.mode = some m →
    nextCommand .isr s = ((handlerBody m s.par.n)[s.pcIsr]?).map encode ∧
    nextCommand .isr (interruptEntry s) = some (encode .sel))

/-- SEL (43_interrupt_handler.md R141), with its faults. The step index it keeps, left free here, is the model's own
(`ReadWindowIsRecorded`). -/
def Obligations.SelChoosesTheStableHalf : Prop :=
  encodeWord .sel = 0x30000000#32 ∧
  (∀ s : State, s.fault = .none → s.actor ≠ .isr → exec .sel s = .next (faultedWith .wrongContext .sel s)) ∧
  (∀ s : State, s.fault = .none → s.actor = .isr → s.drv ≠ .streaming →
    exec .sel s = .next (faultedWith .notStreaming .sel s)) ∧
  (∀ s : State, s.actor = .isr → s.drv = .streaming →
    ∃ t, exec .sel s = .next t ∧
      t = { s with
        src := some (if s.wpos < s.par.n then .h1 else .h0)
        selAt := t.selAt
        pcIsr := s.pcIsr + 1 })

/-- R146: SEL selects the other half than the one being written; a completion leaves the written half the other one than the
completed; a frame that completes no half leaves the written half, and in streaming no other command moves WPOS. So SEL before the
next half boundary selects the completed half. -/
def Obligations.CompletedHalfIsSelected : Prop :=
  (∀ s t : State, s.actor = .isr → s.drv = .streaming → exec .sel s = .next t → t.src = some (otherHalf (whalf s))) ∧
  (∀ (s t : State) (fv : Frame) (h : Half), s.actor = .dma → exec (.dmaFrame fv) s = .next t →
    t.events = s.events ++ [.completion h] →
    otherHalf (whalf t) = h ∧ (if h = .h0 then s.par.n ≤ t.wpos ∧ t.wpos < 2 * s.par.n else t.wpos < s.par.n)) ∧
  (∀ (s t : State) (fv : Frame), s.actor = .dma → s.wpos < 2 * s.par.n → exec (.dmaFrame fv) s = .next t →
    t.events = s.events → whalf t = whalf s) ∧
  (∀ (i : Instr) (s t : State), s.actor ≠ .dma → s.drv = .streaming → exec i s = .next t → t.wpos = s.wpos)

/-- CINV (43_interrupt_handler.md R142, 20_memory.md R67), with its faults: with a cache and a populated SLOT, LASTINV becomes the
current step for every byte of half SRC and for no other, half 0 being the lower one (R61); without a cache, or with SLOT all
EMPTY, only the command index changes. -/
def Obligations.CinvCoversExactlyTheHalf : Prop :=
  encodeWord .cinv = 0x31000000#32 ∧
  (∀ s : State, s.fault = .none → s.actor ≠ .isr → exec .cinv s = .next (faultedWith .wrongContext .cinv s)) ∧
  (∀ s : State, s.fault = .none → s.actor = .isr → s.drv ≠ .streaming →
    exec .cinv s = .next (faultedWith .notStreaming .cinv s)) ∧
  (∀ s : State, s.fault = .none → s.actor = .isr → s.drv = .streaming → srcValid s = false →
    exec .cinv s = .next (faultedWith .noSource .cinv s)) ∧
  (∀ (s : State) (h : Half), s.actor = .isr → s.drv = .streaming → s.src = some h → allEmpty s.slot = false →
    s.par.hasDcache = true →
    let a := s.par.rawBase + 32 * (s.par.n * if h = .h0 then 0 else 1)
    ∃ t, exec .cinv s = .next t ∧
      (∀ x, lastInvOf t x = if a ≤ x ∧ x < a + 32 * s.par.n then s.now else lastInvOf s x) ∧
      t = { s with lastInv := t.lastInv, pcIsr := s.pcIsr + 1 }) ∧
  (∀ (s : State) (h : Half), s.actor = .isr → s.drv = .streaming → s.src = some h →
    allEmpty s.slot = true ∨ s.par.hasDcache = false →
    exec .cinv s = .next { s with pcIsr := s.pcIsr + 1 })

/-- UPDALL (43_interrupt_handler.md R143), with its faults. -/
def Obligations.UpdallTriggersTheGraph : Prop :=
  encodeWord .updall = 0x32000000#32 ∧
  (∀ s : State, s.fault = .none → s.actor ≠ .isr → exec .updall s = .next (faultedWith .wrongContext .updall s)) ∧
  (∀ s : State, s.fault = .none → s.actor = .isr → s.drv ≠ .streaming →
    exec .updall s = .next (faultedWith .notStreaming .updall s)) ∧
  (∀ s : State, s.actor = .isr → s.drv = .streaming → s.tk = true →
    exec .updall s = .next { s with
      updreq := BitVec.ofNat 32 (s.updreq.toNat + 1)
      events := s.events ++ [.runAllUpdates]
      pcIsr := s.pcIsr + 1 }) ∧
  (∀ s : State, s.actor = .isr → s.drv = .streaming → s.tk = false →
    exec .updall s = .next { s with pcIsr := s.pcIsr + 1 })

/-- IRET (43_interrupt_handler.md R144, 60_exceptions.md R218), with its faults: SRC_VALID is cleared with SRC's value, and a
pending, unmasked completion may enter at once. -/
def Obligations.IretLeavesTheHandler : Prop :=
  encodeWord .iret = 0x33000000#32 ∧
  (∀ s : State, s.fault = .none → s.actor ≠ .isr → exec .iret s = .next (faultedWith .wrongContext .iret s)) ∧
  (∀ s : State, s.fault = .none → s.actor = .isr → s.drv ≠ .streaming →
    exec .iret s = .next (faultedWith .notStreaming .iret s)) ∧
  (∀ s : State, s.actor = .isr → s.drv = .streaming →
    ∃ t, exec .iret s = .next t ∧
      t = { s with inIsr := false, src := Option.none, pcIsr := 0 } ∧ srcValid t = false ∧
      (s.fault = .none → s.irqPending = true → s.irqMask = false → enabled .isr t = true) ∧
      (s.fault = .none → (s.prog[s.pcCoop]?).isSome = true → enabled .coop t = true))

/-! ### The critical section and interrupt entry -/

/-- CSD (44_block_exchange.md R162), with its faults: afterwards the ISR agent cannot enter. -/
def Obligations.CsdMasksInterrupts : Prop :=
  encodeWord .csd = 0x50000000#32 ∧
  (∀ s : State, s.fault = .none → s.actor ≠ .coop → exec .csd s = .next (faultedWith .wrongContext .csd s)) ∧
  (∀ s : State, s.fault = .none → s.actor = .coop → s.drv ≠ .streaming →
    exec .csd s = .next (faultedWith .notStreaming .csd s)) ∧
  (∀ s : State, s.actor = .coop → s.drv = .streaming →
    ∃ t, exec .csd s = .next t ∧ t = { s with irqMask := true, pcCoop := s.pcCoop + 1 } ∧
      (s.inIsr = false → enabled .isr t = false) ∧ enabled .dma t = enabled .dma s)

/-- CSE (44_block_exchange.md R163), with its faults: afterwards a pending completion may enter. -/
def Obligations.CseUnmasksInterrupts : Prop :=
  encodeWord .cse = 0x51000000#32 ∧
  (∀ s : State, s.fault = .none → s.actor ≠ .coop → exec .cse s = .next (faultedWith .wrongContext .cse s)) ∧
  (∀ s : State, s.fault = .none → s.actor = .coop → s.drv ≠ .streaming →
    exec .cse s = .next (faultedWith .notStreaming .cse s)) ∧
  (∀ s : State, s.actor = .coop → s.drv = .streaming →
    ∃ t, exec .cse s = .next t ∧ t = { s with irqMask := false, pcCoop := s.pcCoop + 1 } ∧
      (s.fault = .none → s.inIsr = false → s.irqPending = true → enabled .isr t = true))

/-- R216: what the step does when the ISR agent enters, after which the handler's command 0 is next and COOP is not
enabled; no step enters the handler but from an enabled, unmasked, pending request outside it, with nothing of COOP changed; and
no handler step writes NEW, RET, IRQ_MASK or COOP's index. The used schedule entry, the issuing agent and the step index are the
model's own (log entries 3, 15 and 8). -/
def Obligations.InterruptEntryIsPreciseAndUnmasked : Prop :=
  (∀ (s : State) (rest : List Agent), s.inIsr = false → s.irqPending = true → s.irqMask = false → s.fault = .none →
    s.sched = .isr :: rest →
    ∃ t, step s = .next t ∧
      t = { s with
        irqPending := false, inIsr := true, pcIsr := 0, sched := rest, actor := .isr, now := s.now + 1 } ∧
      enabled .coop t = false ∧ (∀ m, s.mode = some m → nextCommand .isr t = some (encode .sel))) ∧
  (∀ s t : State, step s = .next t → s.inIsr = false → t.inIsr = true →
    s.irqPending = true ∧ s.irqMask = false ∧ s.fault = .none ∧
    t.irqPending = false ∧ t.pcIsr = 0 ∧ t.irqMask = s.irqMask ∧ t.pcCoop = s.pcCoop ∧
    t.slot = s.slot ∧ t.new = s.new ∧ t.ret = s.ret) ∧
  (∀ s t : State, step s = .next t → s.inIsr = true →
    t.new = s.new ∧ t.ret = s.ret ∧ t.irqMask = s.irqMask ∧ t.pcCoop = s.pcCoop)

/-- A handler run changes nothing of the cooperative context, allocates nothing and releases nothing: SLOT stays
(43_interrupt_handler.md R145, R147, 60_exceptions.md R222). -/
def Obligations.HandlerLeavesCooperativeState : Prop :=
  ∀ s t : State, step s = .next t → s.inIsr = true →
    t.slot = s.slot ∧ t.new = s.new ∧ t.ret = s.ret ∧ t.irqMask = s.irqMask ∧ t.pcCoop = s.pcCoop ∧
    t.free = s.free ∧ t.allocs = s.allocs ∧ t.drv = s.drv

/-- Under the invariant the handler always has a next step and each step of its own moves it on by one command or, at IRET, out
(43_interrupt_handler.md R145): a run ends after N + 4 of its own steps. Whose step it was is read off the issuing-agent field
(log entry 15). -/
def Obligations.HandlerMovesOnToItsEnd : Prop :=
  (∀ s : State, Inv s → s.inIsr = true → s.fault = .none → enabled .isr s = true) ∧
  (∀ s t : State, Inv s → step s = .next t → s.inIsr = true → t.actor = .isr →
    (s.pcIsr < s.par.n + 3 ∧ t.inIsr = true ∧ t.pcIsr = s.pcIsr + 1) ∨
    (s.pcIsr = s.par.n + 3 ∧ t.inIsr = false ∧ t.pcIsr = 0))

/-- A handler step with SLOT all EMPTY changes only SRC, UPDREQ and EVENTS (those two only as the timekeeper), IN_ISR and the
handler's index: it writes no sample and no line, and draws nothing, so it reads no byte of RAW (R148). The schedule (log entry
3), the step index (8), the issuing-agent field (15) and SEL's step (7) are the model's own. -/
def Obligations.EmptySlotHandlerStepTouchesNoData : Prop :=
  ∀ (s t : State) (rest : List Agent), Inv s → s.inIsr = true → allEmpty s.slot = true → s.sched = .isr :: rest →
    step s = .next t →
    (s.tk = false → t.updreq = s.updreq ∧ t.events = s.events) ∧
    t = { s with
      src := t.src, updreq := t.updreq, events := t.events, inIsr := t.inIsr, pcIsr := t.pcIsr
      sched := rest, actor := .isr, now := s.now + 1, selAt := t.selAt }

/-! ### The block exchange -/

/-- SWAP (44_block_exchange.md R164), with its faults. -/
def Obligations.SwapExchangesTheSets : Prop :=
  encodeWord .swap = 0x41000000#32 ∧
  (∀ s : State, s.fault = .none → s.actor ≠ .coop → exec .swap s = .next (faultedWith .wrongContext .swap s)) ∧
  (∀ s : State, s.fault = .none → s.actor = .coop → s.drv ≠ .streaming →
    exec .swap s = .next (faultedWith .notStreaming .swap s)) ∧
  (∀ s : State, s.fault = .none → s.actor = .coop → s.drv = .streaming → s.irqMask = false →
    exec .swap s = .next (faultedWith .swapUnmasked .swap s)) ∧
  (∀ s : State, s.fault = .none → s.actor = .coop → s.drv = .streaming → s.irqMask = true → allEmpty s.ret = false →
    exec .swap s = .next (faultedWith .worksetBusy .swap s)) ∧
  (∀ s : State, s.actor = .coop → s.drv = .streaming → s.irqMask = true → allEmpty s.ret = true →
    exec .swap s = .next { s with
      ret := s.slot, slot := s.new, new := Bank.empty, pcCoop := s.pcCoop + 1 })

/-- ALLOC16's faults, and ALLOC16 with at least 16 free handles (44_block_exchange.md R161, 45_init_and_interfaces.md R196): from
the default pool it always takes sixteen, and from either pool there are choices by which it does. `TookSixteen` says what it then
does: 16 distinct free handles become NEW and leave the free set, their blocks' contents become free values (log entry 6), and
nothing else changes but EVENTS, the command index and the model's own counters. -/
def Obligations.Alloc16TakesSixteenBlocks : Prop :=
  encodeWord .alloc16 = 0x40000000#32 ∧
  (∀ s : State, s.fault = .none → s.actor ≠ .coop → exec .alloc16 s = .next (faultedWith .wrongContext .alloc16 s)) ∧
  (∀ s : State, s.fault = .none → s.actor = .coop → s.drv ≠ .streaming →
    exec .alloc16 s = .next (faultedWith .notStreaming .alloc16 s)) ∧
  (∀ s : State, s.fault = .none → s.actor = .coop → s.drv = .streaming → allEmpty s.new = false →
    exec .alloc16 s = .next (faultedWith .worksetBusy .alloc16 s)) ∧
  ∀ s : State, s.actor = .coop → s.drv = .streaming → allEmpty s.new = true → handlesRising s.free → 16 ≤ s.free.length →
    (s.par.poolMayFail = false → ∃ t, exec .alloc16 s = .next t ∧ TookSixteen s t) ∧
    ∃ (ds : List Nat) (t : State),
      exec .alloc16 { s with draws := ds } = .next t ∧ TookSixteen { s with draws := ds } t

/-- ALLOC16 when an allocation fails (44_block_exchange.md R161, 45_init_and_interfaces.md R196, 90_conflicts.md C4). From the
default pool with fewer than 16 free handles every free handle is allocated and then the next allocation fails; the pool that may
fail at will can fail after any k < 16 allocations that it has handles for; and from either pool ALLOC16 takes sixteen or rolls
back. `RolledBack` says what it then does: every handle taken is released in the order taken, NEW stays all EMPTY, the free set is
as before, and nothing else changes but the contents of those blocks, the command index and the model's own counters. -/
def Obligations.Alloc16RollsBackAFailure : Prop :=
  ∀ s : State, s.actor = .coop → s.drv = .streaming → allEmpty s.new = true → handlesRising s.free → emptyHandle ∉ s.free →
    (s.par.poolMayFail = false → s.free.length < 16 →
      ∃ (t : State) (taken : List Handle), exec .alloc16 s = .next t ∧ taken.Perm s.free ∧ RolledBack s t taken) ∧
    (s.par.poolMayFail = true → ∀ k, k < 16 → k ≤ s.free.length →
      ∃ (ds : List Nat) (t : State) (taken : List Handle),
        exec .alloc16 { s with draws := ds } = .next t ∧ taken.length = k ∧ RolledBack { s with draws := ds } t taken) ∧
    ∃ t, exec .alloc16 s = .next t ∧ (TookSixteen s t ∨ ∃ taken, RolledBack s t taken)

/-- FWD (44_block_exchange.md R165), with its faults: block `RET[k]` is transmitted on channel index k with its N samples and
then released, for k = 0 to 15, and RET becomes all EMPTY; with RET all EMPTY only the command index changes. -/
def Obligations.FwdTransmitsAndReleases : Prop :=
  encodeWord .fwd = 0x42000000#32 ∧
  (∀ s : State, s.fault = .none → s.actor ≠ .coop → exec .fwd s = .next (faultedWith .wrongContext .fwd s)) ∧
  (∀ s : State, s.fault = .none → s.actor = .coop → s.drv ≠ .streaming →
    exec .fwd s = .next (faultedWith .notStreaming .fwd s)) ∧
  (∀ s : State, s.actor = .coop → s.drv = .streaming → allEmpty s.ret = true →
    exec .fwd s = .next { s with pcCoop := s.pcCoop + 1 }) ∧
  (∀ s : State, s.actor = .coop → s.drv = .streaming → allFull s.ret = true →
    ∃ t, exec .fwd s = .next t ∧
      (∀ h, h ∈ t.free ↔ h ∈ s.free ∨ h ∈ s.ret.list) ∧
      t = { s with
        events := s.events ++ (s.ret.list.zipIdx).flatMap fun (h, k) =>
          [.transmit k h ((List.range s.par.n).map fun f => blkRead s h f), .release h]
        ret := Bank.empty
        free := t.free
        pcCoop := s.pcCoop + 1 })

/-- The default pool (45_init_and_interfaces.md R196): `allocate()` returns none exactly when FREE is empty; otherwise it
returns a handle of FREE and removes it, and it may return any handle of FREE; the variant pool may also return none; `release(h)`
adds h; EMPTY is never returned. The unit holds what stands in SLOT, NEW and RET (10_state.md R40). The other clients' moves, whose
form is log entry 10: the moves listed before a COOP command are all made, one after another, and change nothing but the free set;
an allocation takes the handle out of it, a release adds a handle of HANDLE that the unit does not hold, and no move frees one that
it holds. -/
def Obligations.PoolReturnsAnyFreeHandle : Prop :=
  (∀ s : State, s.par.poolMayFail = false → ((poolAllocate s).1 = Option.none ↔ s.free = [])) ∧
  (∀ (s : State) (h : Handle), (poolAllocate s).1 = some h →
    h ∈ s.free ∧ (poolAllocate s).2.free = s.free.filter fun g => g != h) ∧
  (∀ (s : State) (h : Handle), h ∈ s.free → ∃ k, (poolAllocate { s with draws := [k] }).1 = some h) ∧
  (∀ s : State, s.par.poolMayFail = true → ∃ k, (poolAllocate { s with draws := [k] }).1 = Option.none) ∧
  (∀ (s : State) (h g : Handle), h ≠ emptyHandle → (g ∈ (poolRelease h s).free ↔ g = h ∨ g ∈ s.free)) ∧
  (∀ s : State, PoolSound s → (poolAllocate s).1 ≠ some emptyHandle) ∧
  (∀ (s : State) (h : Handle), unitOwns s h = true ↔ h ∈ s.slot.list ∨ h ∈ s.new.list ∨ h ∈ s.ret.list) ∧
  (∀ s : State, s.clients = [] → clientsAct s = s) ∧
  (∀ (s : State) (ms : List ClientMove) (rest : List (List ClientMove)), s.clients = ms :: rest →
    clientsAct s = ms.foldl clientMove { s with clients := rest }) ∧
  (∀ (s : State) (m : ClientMove), clientMove s m = { s with free := (clientMove s m).free }) ∧
  (∀ (s : State) (h g : Handle), g ∈ (clientMove s (.acquire h)).free ↔ g ∈ s.free ∧ g ≠ h) ∧
  (∀ (s : State) (h g : Handle), h ∈ s.par.handles → unitOwns s h = false →
    (g ∈ (clientMove s (.giveBack h)).free ↔ g = h ∨ g ∈ s.free)) ∧
  (∀ (s : State) (h : Handle), h ∉ s.par.handles ∨ unitOwns s h = true → clientMove s (.giveBack h) = s) ∧
  (∀ (s : State) (h : Handle), unitOwns s h = true → h ∉ s.free → handlesRising s.free → h ∉ (clientsAct s).free)

/-- Only SWAP writes SLOT: COOP's, inside the critical section, all sixteen at once (10_state.md R36, 44_block_exchange.md R164,
60_exceptions.md R222). -/
def Obligations.OnlySwapWritesSlot : Prop :=
  ∀ (i : Instr) (s t : State), exec i s = .next t →
    t.slot = s.slot ∨ (i = .swap ∧ s.actor = .coop ∧ s.irqMask = true ∧ t.slot = s.new ∧ t.ret = s.slot)

/-- What downstream receives is what the block held at the SWAP: no step changes a block that RET holds
(44_block_exchange.md R169). -/
def Obligations.RetiredBlocksKeepTheirContents : Prop :=
  ∀ (s t : State) (h : Handle) (f : Nat), Inv s → step s = .next t → h ∈ s.ret.list → h ≠ emptyHandle →
    blkRead t h f = blkRead s h f

/-! ### Whole-machine rules -/

/-- EVENTS is appended to and never rewritten (10_state.md R44). -/
def Obligations.EventsOnlyGrow : Prop :=
  ∀ s t : State, step s = .next t → ∃ more, t.events = s.events ++ more

/-- No step writes a parameter, the host program or the wire: there is no self-modifying code (20_memory.md R79,
10_state.md R46). -/
def Obligations.ParametersAndProgramsAreFixed : Prop :=
  ∀ s t : State, step s = .next t →
    t.par = s.par ∧ t.prog = s.prog ∧ t.wire = s.wire ∧ t.endless = s.endless

/-- A command that completes moves its own agent's index by one and no other index (10_state.md R22); IRET sets the handler's to
0 (43_interrupt_handler.md R144). -/
def Obligations.CommandIndexAdvances : Prop :=
  ∀ (i : Instr) (s t : State), s.fault = .none → exec i s = .next t → t.fault = .none →
    t.pcCoop = (if s.actor = .coop then s.pcCoop + 1 else s.pcCoop) ∧
    t.pcDma = (if s.actor = .dma then s.pcDma + 1 else s.pcDma) ∧
    t.pcIsr = (if i = .iret then 0 else if s.actor = .isr then s.pcIsr + 1 else s.pcIsr)

/-- The status register's fields, its reserved bits and the configuration register's, with the codes of the modes, the faults and
the agents (10_state.md R23, R27, R30, R32, R45, 60_exceptions.md R210). SLOTS_FULL is 1 exactly when every `SLOT[k]` is not EMPTY
(R27, R36), and SRC_VALID exactly when SRC holds a half. EMPTY is 0 (R35), and "all EMPTY" and "all non-EMPTY" speak of all sixteen
elements. That a valueless SRC shows as 0 is log entry 16. -/
def Obligations.RegisterViewHasTheFields : Prop :=
  (modeBits .bits16 = 0b00#2 ∧ modeBits .bits24 = 0b01#2 ∧ modeBits .bits32 = 0b10#2 ∧ modeBits .unsupported = 0b11#2) ∧
  (faultNumber .none = 0#8 ∧ faultNumber .illegalCommand = 1#8 ∧ faultNumber .notStreaming = 2#8 ∧
    faultNumber .reinit = 3#8 ∧ faultNumber .wrongContext = 4#8 ∧ faultNumber .swapUnmasked = 5#8 ∧
    faultNumber .frameRange = 6#8 ∧ faultNumber .modeMismatch = 7#8 ∧ faultNumber .worksetBusy = 8#8 ∧
    faultNumber .noSource = 9#8) ∧
  (agentBits Option.none = 0b00#2 ∧ agentBits (some .coop) = 0b01#2 ∧ agentBits (some .isr) = 0b10#2 ∧
    agentBits (some .dma) = 0b11#2) ∧
  (∀ s : State,
    regView s 0x01 = some (statWord s) ∧
    (statWord s).getLsbD 0 = s.irqMask ∧ (statWord s).getLsbD 1 = s.irqPending ∧ (statWord s).getLsbD 2 = s.inIsr ∧
    (statWord s).getLsbD 3 = decide (s.src = some .h1) ∧ (statWord s).getLsbD 4 = s.src.isSome ∧ srcValid s = s.src.isSome ∧
    ((statWord s).getLsbD 5 = true ↔ ∀ h ∈ s.slot.list, h ≠ emptyHandle) ∧ (statWord s).extractLsb' 6 2 = agentBits s.fagent ∧
    (statWord s).extractLsb' 8 8 = faultNumber s.fault ∧ (statWord s).extractLsb' 16 16 = 0#16) ∧
  (∀ (s : State) (m : BitDepth), s.mode = some m →
    ∃ w, regView s 0x00 = some w ∧ w.extractLsb' 0 2 = modeBits m ∧ w.getLsbD 2 = s.tk ∧
      w.getLsbD 3 = decide (s.drv = .streaming) ∧ w.extractLsb' 4 28 = 0#28) ∧
  (∀ s : State, s.wpos < 2 * s.par.n → ∃ w, regView s 0x02 = some w ∧ w.toNat = s.wpos ∧ w.extractLsb' 17 15 = 0#15) ∧
  (∀ s : State, regView s 0x03 = some s.updreq ∧ regView s 0x04 = some s.fword) ∧
  (∀ (s : State) (k : Nat), k < 16 →
    regView s (0x10 + k) = s.slot.list[k]? ∧ regView s (0x20 + k) = s.new.list[k]? ∧
    regView s (0x30 + k) = s.ret.list[k]?) ∧
  emptyHandle = 0#32 ∧
  (∀ b : Bank, b.list.length = 16 ∧ (allEmpty b = true ↔ ∀ h ∈ b.list, h = emptyHandle) ∧
    (allFull b = true ↔ ∀ h ∈ b.list, h ≠ emptyHandle)) ∧
  (∀ (s : State) (k : Nat), (5 ≤ k ∧ k < 0x10) ∨ 0x40 ≤ k → regView s k = Option.none)

/-! ### Invariants -/

/-- Every step keeps every sparse table in its canonical form, RAW's memory among them: equal memories are equal lists. -/
def Obligations.StepKeepsStorageCanonical : Prop :=
  ∀ s t : State, StorageCanonical s → step s = .next t → StorageCanonical t

/-- Every step keeps the invariant: all-or-nothing sets (10_state.md R39), exclusive ownership (R40), handles of HANDLE (R35), a
sound pool (45_init_and_interfaces.md R196), canonical storage and sound control state. -/
def Obligations.StepKeepsTheInvariant : Prop :=
  ∀ s t : State, Inv s → step s = .next t → Inv t

/-- The power-on state meets the invariant, on every platform with admitted inputs, `State.reset` among them (10_state.md R48).
What `State.reset` chooses (log entries 1, 2, 9) is one instance of it. -/
def Obligations.PowerOnMeetsTheInvariant : Prop :=
  (∀ (p : Params) (inp : Inputs), inputsOk p inp → Inv (State.initial p inp)) ∧ Inv State.reset

/-- R39, in every state of every run, on every platform with admitted inputs: each of SLOT, NEW and RET is all EMPTY or all
non-EMPTY; and with it the whole invariant, whose other parts are R24, R32, R35, R40 and the canonical storage of log entries 5
and 6. -/
def Obligations.RunsKeepTheSetsAllOrNothing : Prop :=
  ∀ (p : Params) (inp : Inputs) (s : State), Reachable p inp s →
    Uniform s.slot ∧ Uniform s.new ∧ Uniform s.ret ∧ Inv s

/-- In a run only COOP's commands fault: the handler and the DMA never do, so codes 6, 7 and 9 cannot occur
(60_exceptions.md R210). -/
def Obligations.OnlyCoopFaultsInARun : Prop :=
  ∀ s t : State, Inv s → step s = .next t → t.fault ≠ .none →
    t.fagent = some .coop ∧ t.fault ≠ .frameRange ∧ t.fault ≠ .modeMismatch ∧ t.fault ≠ .noSource

/-! ### The CPU's view of the raw buffer -/

/-- Where a CPU read's window starts and what the machine keeps for it (20_memory.md R61, R66, R67, R80, R81, 10_state.md R43). Every
step has the next number. SEL keeps its step, CINV that of every line of the half, and no other command changes either. So with a
cache the window opens at the line's last CINV, which after CINV is that very step (R80), and without one at SEL. DMA.FRAME puts
on record, under its step, what each byte of the frame held, and nothing of another byte; so a value that it overwrites after the
window's start can still be read: the stale read of R66, the overrun race of R81. Step numbers and the record are the model's form
(log entries 7 and 8). -/
def Obligations.ReadWindowIsRecorded : Prop :=
  (∀ s t : State, step s = .next t → t.now = s.now + 1) ∧
  (∀ (s : State) (x : Nat), s.par.hasDcache = true → windowStart s x = lastInvOf s x) ∧
  (∀ (s : State) (x : Nat), s.par.hasDcache = false → windowStart s x = s.selAt) ∧
  (∀ s : State, s.actor = .isr → s.drv = .streaming → ∃ t, exec .sel s = .next t ∧ t.selAt = s.now) ∧
  (∀ (s : State) (h : Half) (x : Nat), s.actor = .isr → s.drv = .streaming → s.src = some h → allEmpty s.slot = false →
    s.par.hasDcache = true →
    let a := s.par.rawBase + 32 * (s.par.n * if h = .h0 then 0 else 1)
    a ≤ x → x < a + 32 * s.par.n →
    ∃ t, exec .cinv s = .next t ∧ windowStart t x = s.now) ∧
  (∀ (i : Instr) (s t : State), exec i s = .next t →
    (t.selAt = s.selAt ∨ (i = .sel ∧ t.selAt = s.now)) ∧ (t.lastInv = s.lastInv ∨ i = .cinv)) ∧
  (∀ (s t : State) (fv : Frame), s.actor = .dma → exec (.dmaFrame fv) s = .next t →
    let a := s.par.rawBase + 32 * s.wpos
    ∃ added, t.rawPast = added ++ s.rawPast ∧
      (∀ o ∈ added, o.step = s.now ∧
        ∀ x v, overwrittenAt o x = some v → (a ≤ x ∧ x < a + 32) ∧ v = cellGet s.raw x) ∧
      (∀ x, a ≤ x → x < a + 32 → ∃ o ∈ added, overwrittenAt o x = some (cellGet s.raw x)) ∧
      (∀ x, a ≤ x → x < a + 32 → windowStart t x < s.now → cellGet s.raw x ∈ heldSince t (windowStart t x) x))
end

