-- ==== Sys2Proof/Laws/Cells.lean ====
section
/-! SUPPORT. Laws of the sparse tables, of lists of handles and of byte strings in memory: what a write changes, what it leaves,
and that the canonical form is kept. -/

namespace Sys2Proof.Machine

variable {α : Type}

/-! ### Tables -/

@[simp] theorem cellGet_nil (a : Nat) : cellGet ([] : List (Nat × α)) a = none := rfl

/-- A read after a write: the value written under its key, the old reading elsewhere. -/
theorem cellGet_cellPut (m : List (Nat × α)) (a : Nat) (v : α) (x : Nat) :
    cellGet (cellPut m a v) x = if a = x then some v else cellGet m x := by
  induction m with
  | nil => simp [cellPut, cellGet]
  | cons c rest ih =>
    obtain ⟨k, w⟩ := c
    by_cases h1 : a < k
    · simp [cellPut, h1, cellGet]
    · by_cases h2 : a = k
      · subst h2
        by_cases h3 : a = x <;> simp [cellPut, cellGet, h3]
      · by_cases h3 : k = x
        · subst h3
          simp [cellPut, h1, h2, cellGet]
        · simp [cellPut, h1, h2, cellGet, h3, ih]

@[simp] theorem cellGet_cellPut_same (m : List (Nat × α)) (a : Nat) (v : α) :
    cellGet (cellPut m a v) a = some v := by simp [cellGet_cellPut]

theorem cellGet_cellPut_other (m : List (Nat × α)) {a x : Nat} (v : α) (h : a ≠ x) :
    cellGet (cellPut m a v) x = cellGet m x := by simp [cellGet_cellPut, h]

theorem mem_cellPut {m : List (Nat × α)} {a : Nat} {v : α} {c : Nat × α} (h : c ∈ cellPut m a v) :
    c = (a, v) ∨ c ∈ m := by
  induction m with
  | nil => simpa [cellPut] using h
  | cons d rest ih =>
    simp only [cellPut] at h
    split at h
    · simpa using h
    · split at h
      · rcases List.mem_cons.1 h with h | h
        · exact .inl h
        · exact .inr (List.mem_cons_of_mem _ h)
      · rcases List.mem_cons.1 h with h | h
        · exact .inr (h ▸ List.mem_cons_self ..)
        · exact (ih h).imp id (List.mem_cons_of_mem _)

/-- A write keeps the canonical form. -/
theorem cellsRising_cellPut {m : List (Nat × α)} (hm : cellsRising m) (a : Nat) (v : α) :
    cellsRising (cellPut m a v) := by
  induction m with
  | nil => simp [cellPut, cellsRising]
  | cons c rest ih =>
    obtain ⟨hc, hr⟩ := List.pairwise_cons.1 hm
    simp only [cellPut]
    split
    · rename_i h
      refine List.pairwise_cons.2 ⟨fun d hd => ?_, hm⟩
      rcases List.mem_cons.1 hd with rfl | hd
      · exact h
      · exact Nat.lt_trans h (hc d hd)
    · split
      · rename_i h1 h2
        exact List.pairwise_cons.2 ⟨fun d hd => by simpa [h2] using hc d hd, hr⟩
      · rename_i h1 h2
        refine List.pairwise_cons.2 ⟨fun d hd => ?_, ih hr⟩
        rcases mem_cellPut hd with rfl | hd
        · show c.1 < a
          omega
        · exact hc d hd

theorem cellGet_mem {m : List (Nat × α)} {a : Nat} {v : α} (h : cellGet m a = some v) : (a, v) ∈ m := by
  induction m with
  | nil => simp at h
  | cons c rest ih =>
    obtain ⟨k, w⟩ := c
    simp only [cellGet] at h
    split at h
    · rename_i hk
      simp_all
    · exact List.mem_cons_of_mem _ (ih h)

/-! ### Lists of handles -/

theorem mem_insertHandle {h g : Handle} {hs : List Handle} : g ∈ insertHandle h hs ↔ g = h ∨ g ∈ hs := by
  induction hs with
  | nil => simp [insertHandle]
  | cons k rest ih =>
    simp only [insertHandle]
    split
    · simp
    · split
      · rename_i hk
        subst hk
        simp
      · simp only [List.mem_cons, ih]
        tauto

theorem insertHandle_rising {h : Handle} {hs : List Handle} (hr : handlesRising hs) :
    handlesRising (insertHandle h hs) := by
  induction hs with
  | nil => simp [insertHandle]
  | cons k rest ih =>
    obtain ⟨hk, hrest⟩ := List.pairwise_cons.1 hr
    simp only [insertHandle]
    split
    · rename_i hlt
      refine List.pairwise_cons.2 ⟨fun d hd => ?_, hr⟩
      rcases List.mem_cons.1 hd with rfl | hd
      · exact hlt
      · exact Nat.lt_trans hlt (hk d hd)
    · split
      · exact hr
      · rename_i h1 h2
        refine List.pairwise_cons.2 ⟨fun d hd => ?_, ih hrest⟩
        rcases mem_insertHandle.1 hd with rfl | hd
        · have : k.toNat ≠ d.toNat := fun e => h2 (BitVec.eq_of_toNat_eq e.symm)
          omega
        · exact hk d hd

theorem mem_removeHandle {h g : Handle} {hs : List Handle} : g ∈ removeHandle h hs ↔ g ∈ hs ∧ g ≠ h := by
  simp [removeHandle]

theorem removeHandle_rising {h : Handle} {hs : List Handle} (hr : handlesRising hs) :
    handlesRising (removeHandle h hs) := hr.filter _

/-- A rising list of handles has no repeats. -/
theorem handlesRising_nodup {hs : List Handle} (hr : handlesRising hs) : hs.Nodup :=
  hr.imp fun {a b} hab e => by
    subst e
    exact Nat.lt_irrefl _ hab

/-- Two rising lists with the same members are the same list. -/
theorem handlesRising_ext {xs ys : List Handle} (hx : handlesRising xs) (hy : handlesRising ys)
    (h : ∀ a, a ∈ xs ↔ a ∈ ys) : xs = ys := by
  have hp : xs.Perm ys := (List.perm_ext_iff_of_nodup (handlesRising_nodup hx) (handlesRising_nodup hy)).2 h
  exact hp.eq_of_pairwise (le := fun a b : Handle => a.toNat < b.toNat)
    (fun a b _ _ hab hba => absurd (Nat.lt_trans hab hba) (Nat.lt_irrefl _)) hx hy

/-! ### Distinct values -/

theorem mem_distinct [DecidableEq α] {xs : List α} {x : α} : x ∈ distinct xs ↔ x ∈ xs := by
  suffices h : ∀ (xs acc : List α), x ∈ xs.foldl (fun acc x => if x ∈ acc then acc else acc ++ [x]) acc ↔
      x ∈ acc ∨ x ∈ xs by simpa [distinct] using h xs []
  intro xs
  induction xs with
  | nil => simp
  | cons y ys ih =>
    intro acc
    simp only [List.foldl_cons, ih, List.mem_cons]
    split
    · rename_i hy
      constructor
      · rintro (h | h) <;> tauto
      · rintro (h | rfl | h)
        · exact .inl h
        · exact .inl hy
        · exact .inr h
    · simp only [List.mem_append, List.mem_singleton]
      tauto

/-- A list whose members are all `x` has the one distinct value `x`. -/
theorem distinct_eq_singleton [DecidableEq α] {x : α} {xs : List α} (h : ∀ y ∈ xs, y = x) :
    distinct (x :: xs) = [x] := by
  suffices h' : ∀ ys : List α, (∀ y ∈ ys, y = x) →
      ys.foldl (fun acc x => if x ∈ acc then acc else acc ++ [x]) [x] = [x] by
    simpa [distinct] using h' xs h
  intro ys
  induction ys with
  | nil => simp
  | cons y ys ih =>
    intro hy
    have := hy y (List.mem_cons_self ..)
    subst this
    simpa using ih fun z hz => hy z (List.mem_cons_of_mem _ hz)

/-! ### Bytes in memory -/

/-- What reading a byte gives after a string of bytes is written. -/
theorem cellGet_putBytes (m : Memory) (a : Nat) (bs : List Byte) (x : Nat) :
    cellGet (putBytes m a bs) x = if a ≤ x ∧ x < a + bs.length then bs[x - a]? else cellGet m x := by
  induction bs generalizing m a with
  | nil =>
    simp [putBytes]
  | cons b bs ih =>
    simp only [putBytes, ih, cellGet_cellPut, List.length_cons]
    by_cases h0 : a = x
    · subst h0
      simp
    · by_cases h1 : a + 1 ≤ x ∧ x < a + 1 + bs.length
      · have h2 : a ≤ x ∧ x < a + (bs.length + 1) := by omega
        obtain ⟨k, hk⟩ : ∃ k, x - a = k + 1 := ⟨x - a - 1, by omega⟩
        have hk' : x - (a + 1) = k := by omega
        rw [if_pos h1, if_pos h2, hk, hk']
        rfl
      · have h2 : ¬(a ≤ x ∧ x < a + (bs.length + 1)) := by omega
        rw [if_neg h1, if_neg h2, if_neg h0]

theorem putBytes_wf {m : Memory} (hm : Memory.wf m) (a : Nat) (bs : List Byte) : Memory.wf (putBytes m a bs) := by
  induction bs generalizing m a with
  | nil => exact hm
  | cons b bs ih => exact ih (cellsRising_cellPut hm a b) _

/-- Writing bytes lists no address outside theirs that was not listed before. -/
theorem mem_putBytes {m : Memory} {a : Nat} {bs : List Byte} {c : Host.Cell} (h : c ∈ putBytes m a bs) :
    c ∈ m ∨ (a ≤ c.1 ∧ c.1 < a + bs.length) := by
  induction bs generalizing m a with
  | nil => exact .inl h
  | cons b bs ih =>
    simp only [List.length_cons]
    rcases ih h with h | h
    · rcases mem_cellPut h with rfl | h
      · exact .inr ⟨Nat.le_refl a, by show a < _; omega⟩
      · exact .inl h
    · exact .inr (by omega)

end Sys2Proof.Machine
end

