-- ==== Sys2Proof/Laws/State.lean ====
section
/-! SUPPORT. What each primitive update of State does to each field: the field it does not write is as before, and the field it
writes has the new value. -/

namespace Sys2Proof.Machine

/-! ### logEvent -/

@[simp] theorem logEvent_par (e : Event) (s : State) : (logEvent e s).par = s.par := rfl
@[simp] theorem logEvent_mode (e : Event) (s : State) : (logEvent e s).mode = s.mode := rfl
@[simp] theorem logEvent_tk (e : Event) (s : State) : (logEvent e s).tk = s.tk := rfl
@[simp] theorem logEvent_drv (e : Event) (s : State) : (logEvent e s).drv = s.drv := rfl
@[simp] theorem logEvent_irqMask (e : Event) (s : State) : (logEvent e s).irqMask = s.irqMask := rfl
@[simp] theorem logEvent_irqPending (e : Event) (s : State) : (logEvent e s).irqPending = s.irqPending := rfl
@[simp] theorem logEvent_inIsr (e : Event) (s : State) : (logEvent e s).inIsr = s.inIsr := rfl
@[simp] theorem logEvent_src (e : Event) (s : State) : (logEvent e s).src = s.src := rfl
@[simp] theorem logEvent_fault (e : Event) (s : State) : (logEvent e s).fault = s.fault := rfl
@[simp] theorem logEvent_fagent (e : Event) (s : State) : (logEvent e s).fagent = s.fagent := rfl
@[simp] theorem logEvent_fword (e : Event) (s : State) : (logEvent e s).fword = s.fword := rfl
@[simp] theorem logEvent_wpos (e : Event) (s : State) : (logEvent e s).wpos = s.wpos := rfl
@[simp] theorem logEvent_updreq (e : Event) (s : State) : (logEvent e s).updreq = s.updreq := rfl
@[simp] theorem logEvent_slot (e : Event) (s : State) : (logEvent e s).slot = s.slot := rfl
@[simp] theorem logEvent_new (e : Event) (s : State) : (logEvent e s).new = s.new := rfl
@[simp] theorem logEvent_ret (e : Event) (s : State) : (logEvent e s).ret = s.ret := rfl
@[simp] theorem logEvent_blk (e : Event) (s : State) : (logEvent e s).blk = s.blk := rfl
@[simp] theorem logEvent_raw (e : Event) (s : State) : (logEvent e s).raw = s.raw := rfl
@[simp] theorem logEvent_lastInv (e : Event) (s : State) : (logEvent e s).lastInv = s.lastInv := rfl
@[simp] theorem logEvent_events (e : Event) (s : State) : (logEvent e s).events = s.events ++ [e] := rfl
@[simp] theorem logEvent_pcCoop (e : Event) (s : State) : (logEvent e s).pcCoop = s.pcCoop := rfl
@[simp] theorem logEvent_pcIsr (e : Event) (s : State) : (logEvent e s).pcIsr = s.pcIsr := rfl
@[simp] theorem logEvent_pcDma (e : Event) (s : State) : (logEvent e s).pcDma = s.pcDma := rfl
@[simp] theorem logEvent_free (e : Event) (s : State) : (logEvent e s).free = s.free := rfl
@[simp] theorem logEvent_prog (e : Event) (s : State) : (logEvent e s).prog = s.prog := rfl
@[simp] theorem logEvent_wire (e : Event) (s : State) : (logEvent e s).wire = s.wire := rfl
@[simp] theorem logEvent_endless (e : Event) (s : State) : (logEvent e s).endless = s.endless := rfl
@[simp] theorem logEvent_sched (e : Event) (s : State) : (logEvent e s).sched = s.sched := rfl
@[simp] theorem logEvent_draws (e : Event) (s : State) : (logEvent e s).draws = s.draws := rfl
@[simp] theorem logEvent_clients (e : Event) (s : State) : (logEvent e s).clients = s.clients := rfl
@[simp] theorem logEvent_now (e : Event) (s : State) : (logEvent e s).now = s.now := rfl
@[simp] theorem logEvent_selAt (e : Event) (s : State) : (logEvent e s).selAt = s.selAt := rfl
@[simp] theorem logEvent_rawPast (e : Event) (s : State) : (logEvent e s).rawPast = s.rawPast := rfl
@[simp] theorem logEvent_actor (e : Event) (s : State) : (logEvent e s).actor = s.actor := rfl
@[simp] theorem logEvent_allocs (e : Event) (s : State) : (logEvent e s).allocs = s.allocs := rfl
@[simp] theorem logEvent_drawn (e : Event) (s : State) : (logEvent e s).drawn = s.drawn := rfl

/-! ### complete -/

@[simp] theorem complete_par (h : Half) (s : State) : (complete h s).par = s.par := rfl
@[simp] theorem complete_mode (h : Half) (s : State) : (complete h s).mode = s.mode := rfl
@[simp] theorem complete_tk (h : Half) (s : State) : (complete h s).tk = s.tk := rfl
@[simp] theorem complete_drv (h : Half) (s : State) : (complete h s).drv = s.drv := rfl
@[simp] theorem complete_irqMask (h : Half) (s : State) : (complete h s).irqMask = s.irqMask := rfl
@[simp] theorem complete_irqPending (h : Half) (s : State) : (complete h s).irqPending = true := rfl
@[simp] theorem complete_inIsr (h : Half) (s : State) : (complete h s).inIsr = s.inIsr := rfl
@[simp] theorem complete_src (h : Half) (s : State) : (complete h s).src = s.src := rfl
@[simp] theorem complete_fault (h : Half) (s : State) : (complete h s).fault = s.fault := rfl
@[simp] theorem complete_fagent (h : Half) (s : State) : (complete h s).fagent = s.fagent := rfl
@[simp] theorem complete_fword (h : Half) (s : State) : (complete h s).fword = s.fword := rfl
@[simp] theorem complete_wpos (h : Half) (s : State) : (complete h s).wpos = s.wpos := rfl
@[simp] theorem complete_updreq (h : Half) (s : State) : (complete h s).updreq = s.updreq := rfl
@[simp] theorem complete_slot (h : Half) (s : State) : (complete h s).slot = s.slot := rfl
@[simp] theorem complete_new (h : Half) (s : State) : (complete h s).new = s.new := rfl
@[simp] theorem complete_ret (h : Half) (s : State) : (complete h s).ret = s.ret := rfl
@[simp] theorem complete_blk (h : Half) (s : State) : (complete h s).blk = s.blk := rfl
@[simp] theorem complete_raw (h : Half) (s : State) : (complete h s).raw = s.raw := rfl
@[simp] theorem complete_lastInv (h : Half) (s : State) : (complete h s).lastInv = s.lastInv := rfl
@[simp] theorem complete_events (h : Half) (s : State) : (complete h s).events = s.events ++ [.completion h] := rfl
@[simp] theorem complete_pcCoop (h : Half) (s : State) : (complete h s).pcCoop = s.pcCoop := rfl
@[simp] theorem complete_pcIsr (h : Half) (s : State) : (complete h s).pcIsr = s.pcIsr := rfl
@[simp] theorem complete_pcDma (h : Half) (s : State) : (complete h s).pcDma = s.pcDma := rfl
@[simp] theorem complete_free (h : Half) (s : State) : (complete h s).free = s.free := rfl
@[simp] theorem complete_prog (h : Half) (s : State) : (complete h s).prog = s.prog := rfl
@[simp] theorem complete_wire (h : Half) (s : State) : (complete h s).wire = s.wire := rfl
@[simp] theorem complete_endless (h : Half) (s : State) : (complete h s).endless = s.endless := rfl
@[simp] theorem complete_sched (h : Half) (s : State) : (complete h s).sched = s.sched := rfl
@[simp] theorem complete_draws (h : Half) (s : State) : (complete h s).draws = s.draws := rfl
@[simp] theorem complete_clients (h : Half) (s : State) : (complete h s).clients = s.clients := rfl
@[simp] theorem complete_now (h : Half) (s : State) : (complete h s).now = s.now := rfl
@[simp] theorem complete_selAt (h : Half) (s : State) : (complete h s).selAt = s.selAt := rfl
@[simp] theorem complete_rawPast (h : Half) (s : State) : (complete h s).rawPast = s.rawPast := rfl
@[simp] theorem complete_actor (h : Half) (s : State) : (complete h s).actor = s.actor := rfl
@[simp] theorem complete_allocs (h : Half) (s : State) : (complete h s).allocs = s.allocs := rfl
@[simp] theorem complete_drawn (h : Half) (s : State) : (complete h s).drawn = s.drawn := rfl

/-! ### interruptEntry -/

@[simp] theorem interruptEntry_par (s : State) : (interruptEntry s).par = s.par := rfl
@[simp] theorem interruptEntry_mode (s : State) : (interruptEntry s).mode = s.mode := rfl
@[simp] theorem interruptEntry_tk (s : State) : (interruptEntry s).tk = s.tk := rfl
@[simp] theorem interruptEntry_drv (s : State) : (interruptEntry s).drv = s.drv := rfl
@[simp] theorem interruptEntry_irqMask (s : State) : (interruptEntry s).irqMask = s.irqMask := rfl
@[simp] theorem interruptEntry_irqPending (s : State) : (interruptEntry s).irqPending = false := rfl
@[simp] theorem interruptEntry_inIsr (s : State) : (interruptEntry s).inIsr = true := rfl
@[simp] theorem interruptEntry_src (s : State) : (interruptEntry s).src = s.src := rfl
@[simp] theorem interruptEntry_fault (s : State) : (interruptEntry s).fault = s.fault := rfl
@[simp] theorem interruptEntry_fagent (s : State) : (interruptEntry s).fagent = s.fagent := rfl
@[simp] theorem interruptEntry_fword (s : State) : (interruptEntry s).fword = s.fword := rfl
@[simp] theorem interruptEntry_wpos (s : State) : (interruptEntry s).wpos = s.wpos := rfl
@[simp] theorem interruptEntry_updreq (s : State) : (interruptEntry s).updreq = s.updreq := rfl
@[simp] theorem interruptEntry_slot (s : State) : (interruptEntry s).slot = s.slot := rfl
@[simp] theorem interruptEntry_new (s : State) : (interruptEntry s).new = s.new := rfl
@[simp] theorem interruptEntry_ret (s : State) : (interruptEntry s).ret = s.ret := rfl
@[simp] theorem interruptEntry_blk (s : State) : (interruptEntry s).blk = s.blk := rfl
@[simp] theorem interruptEntry_raw (s : State) : (interruptEntry s).raw = s.raw := rfl
@[simp] theorem interruptEntry_lastInv (s : State) : (interruptEntry s).lastInv = s.lastInv := rfl
@[simp] theorem interruptEntry_events (s : State) : (interruptEntry s).events = s.events := rfl
@[simp] theorem interruptEntry_pcCoop (s : State) : (interruptEntry s).pcCoop = s.pcCoop := rfl
@[simp] theorem interruptEntry_pcIsr (s : State) : (interruptEntry s).pcIsr = 0 := rfl
@[simp] theorem interruptEntry_pcDma (s : State) : (interruptEntry s).pcDma = s.pcDma := rfl
@[simp] theorem interruptEntry_free (s : State) : (interruptEntry s).free = s.free := rfl
@[simp] theorem interruptEntry_prog (s : State) : (interruptEntry s).prog = s.prog := rfl
@[simp] theorem interruptEntry_wire (s : State) : (interruptEntry s).wire = s.wire := rfl
@[simp] theorem interruptEntry_endless (s : State) : (interruptEntry s).endless = s.endless := rfl
@[simp] theorem interruptEntry_sched (s : State) : (interruptEntry s).sched = s.sched := rfl
@[simp] theorem interruptEntry_draws (s : State) : (interruptEntry s).draws = s.draws := rfl
@[simp] theorem interruptEntry_clients (s : State) : (interruptEntry s).clients = s.clients := rfl
@[simp] theorem interruptEntry_now (s : State) : (interruptEntry s).now = s.now := rfl
@[simp] theorem interruptEntry_selAt (s : State) : (interruptEntry s).selAt = s.selAt := rfl
@[simp] theorem interruptEntry_rawPast (s : State) : (interruptEntry s).rawPast = s.rawPast := rfl
@[simp] theorem interruptEntry_actor (s : State) : (interruptEntry s).actor = s.actor := rfl
@[simp] theorem interruptEntry_allocs (s : State) : (interruptEntry s).allocs = s.allocs := rfl
@[simp] theorem interruptEntry_drawn (s : State) : (interruptEntry s).drawn = s.drawn := rfl

/-! ### interruptReturn -/

@[simp] theorem interruptReturn_par (s : State) : (interruptReturn s).par = s.par := rfl
@[simp] theorem interruptReturn_mode (s : State) : (interruptReturn s).mode = s.mode := rfl
@[simp] theorem interruptReturn_tk (s : State) : (interruptReturn s).tk = s.tk := rfl
@[simp] theorem interruptReturn_drv (s : State) : (interruptReturn s).drv = s.drv := rfl
@[simp] theorem interruptReturn_irqMask (s : State) : (interruptReturn s).irqMask = s.irqMask := rfl
@[simp] theorem interruptReturn_irqPending (s : State) : (interruptReturn s).irqPending = s.irqPending := rfl
@[simp] theorem interruptReturn_inIsr (s : State) : (interruptReturn s).inIsr = false := rfl
@[simp] theorem interruptReturn_src (s : State) : (interruptReturn s).src = Option.none := rfl
@[simp] theorem interruptReturn_fault (s : State) : (interruptReturn s).fault = s.fault := rfl
@[simp] theorem interruptReturn_fagent (s : State) : (interruptReturn s).fagent = s.fagent := rfl
@[simp] theorem interruptReturn_fword (s : State) : (interruptReturn s).fword = s.fword := rfl
@[simp] theorem interruptReturn_wpos (s : State) : (interruptReturn s).wpos = s.wpos := rfl
@[simp] theorem interruptReturn_updreq (s : State) : (interruptReturn s).updreq = s.updreq := rfl
@[simp] theorem interruptReturn_slot (s : State) : (interruptReturn s).slot = s.slot := rfl
@[simp] theorem interruptReturn_new (s : State) : (interruptReturn s).new = s.new := rfl
@[simp] theorem interruptReturn_ret (s : State) : (interruptReturn s).ret = s.ret := rfl
@[simp] theorem interruptReturn_blk (s : State) : (interruptReturn s).blk = s.blk := rfl
@[simp] theorem interruptReturn_raw (s : State) : (interruptReturn s).raw = s.raw := rfl
@[simp] theorem interruptReturn_lastInv (s : State) : (interruptReturn s).lastInv = s.lastInv := rfl
@[simp] theorem interruptReturn_events (s : State) : (interruptReturn s).events = s.events := rfl
@[simp] theorem interruptReturn_pcCoop (s : State) : (interruptReturn s).pcCoop = s.pcCoop := rfl
@[simp] theorem interruptReturn_pcIsr (s : State) : (interruptReturn s).pcIsr = 0 := rfl
@[simp] theorem interruptReturn_pcDma (s : State) : (interruptReturn s).pcDma = s.pcDma := rfl
@[simp] theorem interruptReturn_free (s : State) : (interruptReturn s).free = s.free := rfl
@[simp] theorem interruptReturn_prog (s : State) : (interruptReturn s).prog = s.prog := rfl
@[simp] theorem interruptReturn_wire (s : State) : (interruptReturn s).wire = s.wire := rfl
@[simp] theorem interruptReturn_endless (s : State) : (interruptReturn s).endless = s.endless := rfl
@[simp] theorem interruptReturn_sched (s : State) : (interruptReturn s).sched = s.sched := rfl
@[simp] theorem interruptReturn_draws (s : State) : (interruptReturn s).draws = s.draws := rfl
@[simp] theorem interruptReturn_clients (s : State) : (interruptReturn s).clients = s.clients := rfl
@[simp] theorem interruptReturn_now (s : State) : (interruptReturn s).now = s.now := rfl
@[simp] theorem interruptReturn_selAt (s : State) : (interruptReturn s).selAt = s.selAt := rfl
@[simp] theorem interruptReturn_rawPast (s : State) : (interruptReturn s).rawPast = s.rawPast := rfl
@[simp] theorem interruptReturn_actor (s : State) : (interruptReturn s).actor = s.actor := rfl
@[simp] theorem interruptReturn_allocs (s : State) : (interruptReturn s).allocs = s.allocs := rfl
@[simp] theorem interruptReturn_drawn (s : State) : (interruptReturn s).drawn = s.drawn := rfl

/-! ### beginStep -/

@[simp] theorem beginStep_par (a : Agent) (s : State) : (beginStep a s).par = s.par := rfl
@[simp] theorem beginStep_mode (a : Agent) (s : State) : (beginStep a s).mode = s.mode := rfl
@[simp] theorem beginStep_tk (a : Agent) (s : State) : (beginStep a s).tk = s.tk := rfl
@[simp] theorem beginStep_drv (a : Agent) (s : State) : (beginStep a s).drv = s.drv := rfl
@[simp] theorem beginStep_irqMask (a : Agent) (s : State) : (beginStep a s).irqMask = s.irqMask := rfl
@[simp] theorem beginStep_irqPending (a : Agent) (s : State) : (beginStep a s).irqPending = s.irqPending := rfl
@[simp] theorem beginStep_inIsr (a : Agent) (s : State) : (beginStep a s).inIsr = s.inIsr := rfl
@[simp] theorem beginStep_src (a : Agent) (s : State) : (beginStep a s).src = s.src := rfl
@[simp] theorem beginStep_fault (a : Agent) (s : State) : (beginStep a s).fault = s.fault := rfl
@[simp] theorem beginStep_fagent (a : Agent) (s : State) : (beginStep a s).fagent = s.fagent := rfl
@[simp] theorem beginStep_fword (a : Agent) (s : State) : (beginStep a s).fword = s.fword := rfl
@[simp] theorem beginStep_wpos (a : Agent) (s : State) : (beginStep a s).wpos = s.wpos := rfl
@[simp] theorem beginStep_updreq (a : Agent) (s : State) : (beginStep a s).updreq = s.updreq := rfl
@[simp] theorem beginStep_slot (a : Agent) (s : State) : (beginStep a s).slot = s.slot := rfl
@[simp] theorem beginStep_new (a : Agent) (s : State) : (beginStep a s).new = s.new := rfl
@[simp] theorem beginStep_ret (a : Agent) (s : State) : (beginStep a s).ret = s.ret := rfl
@[simp] theorem beginStep_blk (a : Agent) (s : State) : (beginStep a s).blk = s.blk := rfl
@[simp] theorem beginStep_raw (a : Agent) (s : State) : (beginStep a s).raw = s.raw := rfl
@[simp] theorem beginStep_lastInv (a : Agent) (s : State) : (beginStep a s).lastInv = s.lastInv := rfl
@[simp] theorem beginStep_events (a : Agent) (s : State) : (beginStep a s).events = s.events := rfl
@[simp] theorem beginStep_pcCoop (a : Agent) (s : State) : (beginStep a s).pcCoop = s.pcCoop := rfl
@[simp] theorem beginStep_pcIsr (a : Agent) (s : State) : (beginStep a s).pcIsr = s.pcIsr := rfl
@[simp] theorem beginStep_pcDma (a : Agent) (s : State) : (beginStep a s).pcDma = s.pcDma := rfl
@[simp] theorem beginStep_free (a : Agent) (s : State) : (beginStep a s).free = s.free := rfl
@[simp] theorem beginStep_prog (a : Agent) (s : State) : (beginStep a s).prog = s.prog := rfl
@[simp] theorem beginStep_wire (a : Agent) (s : State) : (beginStep a s).wire = s.wire := rfl
@[simp] theorem beginStep_endless (a : Agent) (s : State) : (beginStep a s).endless = s.endless := rfl
@[simp] theorem beginStep_sched (a : Agent) (s : State) : (beginStep a s).sched = s.sched := rfl
@[simp] theorem beginStep_draws (a : Agent) (s : State) : (beginStep a s).draws = s.draws := rfl
@[simp] theorem beginStep_clients (a : Agent) (s : State) : (beginStep a s).clients = s.clients := rfl
@[simp] theorem beginStep_now (a : Agent) (s : State) : (beginStep a s).now = s.now + 1 := rfl
@[simp] theorem beginStep_selAt (a : Agent) (s : State) : (beginStep a s).selAt = s.selAt := rfl
@[simp] theorem beginStep_rawPast (a : Agent) (s : State) : (beginStep a s).rawPast = s.rawPast := rfl
@[simp] theorem beginStep_actor (a : Agent) (s : State) : (beginStep a s).actor = a := rfl
@[simp] theorem beginStep_allocs (a : Agent) (s : State) : (beginStep a s).allocs = s.allocs := rfl
@[simp] theorem beginStep_drawn (a : Agent) (s : State) : (beginStep a s).drawn = s.drawn := rfl

/-! ### stepWpos -/

@[simp] theorem stepWpos_par (s : State) : (stepWpos s).par = s.par := rfl
@[simp] theorem stepWpos_mode (s : State) : (stepWpos s).mode = s.mode := rfl
@[simp] theorem stepWpos_tk (s : State) : (stepWpos s).tk = s.tk := rfl
@[simp] theorem stepWpos_drv (s : State) : (stepWpos s).drv = s.drv := rfl
@[simp] theorem stepWpos_irqMask (s : State) : (stepWpos s).irqMask = s.irqMask := rfl
@[simp] theorem stepWpos_irqPending (s : State) : (stepWpos s).irqPending = s.irqPending := rfl
@[simp] theorem stepWpos_inIsr (s : State) : (stepWpos s).inIsr = s.inIsr := rfl
@[simp] theorem stepWpos_src (s : State) : (stepWpos s).src = s.src := rfl
@[simp] theorem stepWpos_fault (s : State) : (stepWpos s).fault = s.fault := rfl
@[simp] theorem stepWpos_fagent (s : State) : (stepWpos s).fagent = s.fagent := rfl
@[simp] theorem stepWpos_fword (s : State) : (stepWpos s).fword = s.fword := rfl
@[simp] theorem stepWpos_wpos (s : State) : (stepWpos s).wpos = (s.wpos + 1) % (2 * s.par.n) := rfl
@[simp] theorem stepWpos_updreq (s : State) : (stepWpos s).updreq = s.updreq := rfl
@[simp] theorem stepWpos_slot (s : State) : (stepWpos s).slot = s.slot := rfl
@[simp] theorem stepWpos_new (s : State) : (stepWpos s).new = s.new := rfl
@[simp] theorem stepWpos_ret (s : State) : (stepWpos s).ret = s.ret := rfl
@[simp] theorem stepWpos_blk (s : State) : (stepWpos s).blk = s.blk := rfl
@[simp] theorem stepWpos_raw (s : State) : (stepWpos s).raw = s.raw := rfl
@[simp] theorem stepWpos_lastInv (s : State) : (stepWpos s).lastInv = s.lastInv := rfl
@[simp] theorem stepWpos_events (s : State) : (stepWpos s).events = s.events := rfl
@[simp] theorem stepWpos_pcCoop (s : State) : (stepWpos s).pcCoop = s.pcCoop := rfl
@[simp] theorem stepWpos_pcIsr (s : State) : (stepWpos s).pcIsr = s.pcIsr := rfl
@[simp] theorem stepWpos_pcDma (s : State) : (stepWpos s).pcDma = s.pcDma := rfl
@[simp] theorem stepWpos_free (s : State) : (stepWpos s).free = s.free := rfl
@[simp] theorem stepWpos_prog (s : State) : (stepWpos s).prog = s.prog := rfl
@[simp] theorem stepWpos_wire (s : State) : (stepWpos s).wire = s.wire := rfl
@[simp] theorem stepWpos_endless (s : State) : (stepWpos s).endless = s.endless := rfl
@[simp] theorem stepWpos_sched (s : State) : (stepWpos s).sched = s.sched := rfl
@[simp] theorem stepWpos_draws (s : State) : (stepWpos s).draws = s.draws := rfl
@[simp] theorem stepWpos_clients (s : State) : (stepWpos s).clients = s.clients := rfl
@[simp] theorem stepWpos_now (s : State) : (stepWpos s).now = s.now := rfl
@[simp] theorem stepWpos_selAt (s : State) : (stepWpos s).selAt = s.selAt := rfl
@[simp] theorem stepWpos_rawPast (s : State) : (stepWpos s).rawPast = s.rawPast := rfl
@[simp] theorem stepWpos_actor (s : State) : (stepWpos s).actor = s.actor := rfl
@[simp] theorem stepWpos_allocs (s : State) : (stepWpos s).allocs = s.allocs := rfl
@[simp] theorem stepWpos_drawn (s : State) : (stepWpos s).drawn = s.drawn := rfl

/-! ### dmaWrite -/

@[simp] theorem dmaWrite_par (a : Nat) (bs : List Byte) (s : State) : (dmaWrite a bs s).par = s.par := rfl
@[simp] theorem dmaWrite_mode (a : Nat) (bs : List Byte) (s : State) : (dmaWrite a bs s).mode = s.mode := rfl
@[simp] theorem dmaWrite_tk (a : Nat) (bs : List Byte) (s : State) : (dmaWrite a bs s).tk = s.tk := rfl
@[simp] theorem dmaWrite_drv (a : Nat) (bs : List Byte) (s : State) : (dmaWrite a bs s).drv = s.drv := rfl
@[simp] theorem dmaWrite_irqMask (a : Nat) (bs : List Byte) (s : State) : (dmaWrite a bs s).irqMask = s.irqMask := rfl
@[simp] theorem dmaWrite_irqPending (a : Nat) (bs : List Byte) (s : State) : (dmaWrite a bs s).irqPending = s.irqPending := rfl
@[simp] theorem dmaWrite_inIsr (a : Nat) (bs : List Byte) (s : State) : (dmaWrite a bs s).inIsr = s.inIsr := rfl
@[simp] theorem dmaWrite_src (a : Nat) (bs : List Byte) (s : State) : (dmaWrite a bs s).src = s.src := rfl
@[simp] theorem dmaWrite_fault (a : Nat) (bs : List Byte) (s : State) : (dmaWrite a bs s).fault = s.fault := rfl
@[simp] theorem dmaWrite_fagent (a : Nat) (bs : List Byte) (s : State) : (dmaWrite a bs s).fagent = s.fagent := rfl
@[simp] theorem dmaWrite_fword (a : Nat) (bs : List Byte) (s : State) : (dmaWrite a bs s).fword = s.fword := rfl
@[simp] theorem dmaWrite_wpos (a : Nat) (bs : List Byte) (s : State) : (dmaWrite a bs s).wpos = s.wpos := rfl
@[simp] theorem dmaWrite_updreq (a : Nat) (bs : List Byte) (s : State) : (dmaWrite a bs s).updreq = s.updreq := rfl
@[simp] theorem dmaWrite_slot (a : Nat) (bs : List Byte) (s : State) : (dmaWrite a bs s).slot = s.slot := rfl
@[simp] theorem dmaWrite_new (a : Nat) (bs : List Byte) (s : State) : (dmaWrite a bs s).new = s.new := rfl
@[simp] theorem dmaWrite_ret (a : Nat) (bs : List Byte) (s : State) : (dmaWrite a bs s).ret = s.ret := rfl
@[simp] theorem dmaWrite_blk (a : Nat) (bs : List Byte) (s : State) : (dmaWrite a bs s).blk = s.blk := rfl
@[simp] theorem dmaWrite_raw (a : Nat) (bs : List Byte) (s : State) : (dmaWrite a bs s).raw = putBytes s.raw a bs := rfl
@[simp] theorem dmaWrite_lastInv (a : Nat) (bs : List Byte) (s : State) : (dmaWrite a bs s).lastInv = s.lastInv := rfl
@[simp] theorem dmaWrite_events (a : Nat) (bs : List Byte) (s : State) : (dmaWrite a bs s).events = s.events := rfl
@[simp] theorem dmaWrite_pcCoop (a : Nat) (bs : List Byte) (s : State) : (dmaWrite a bs s).pcCoop = s.pcCoop := rfl
@[simp] theorem dmaWrite_pcIsr (a : Nat) (bs : List Byte) (s : State) : (dmaWrite a bs s).pcIsr = s.pcIsr := rfl
@[simp] theorem dmaWrite_pcDma (a : Nat) (bs : List Byte) (s : State) : (dmaWrite a bs s).pcDma = s.pcDma := rfl
@[simp] theorem dmaWrite_free (a : Nat) (bs : List Byte) (s : State) : (dmaWrite a bs s).free = s.free := rfl
@[simp] theorem dmaWrite_prog (a : Nat) (bs : List Byte) (s : State) : (dmaWrite a bs s).prog = s.prog := rfl
@[simp] theorem dmaWrite_wire (a : Nat) (bs : List Byte) (s : State) : (dmaWrite a bs s).wire = s.wire := rfl
@[simp] theorem dmaWrite_endless (a : Nat) (bs : List Byte) (s : State) : (dmaWrite a bs s).endless = s.endless := rfl
@[simp] theorem dmaWrite_sched (a : Nat) (bs : List Byte) (s : State) : (dmaWrite a bs s).sched = s.sched := rfl
@[simp] theorem dmaWrite_draws (a : Nat) (bs : List Byte) (s : State) : (dmaWrite a bs s).draws = s.draws := rfl
@[simp] theorem dmaWrite_clients (a : Nat) (bs : List Byte) (s : State) : (dmaWrite a bs s).clients = s.clients := rfl
@[simp] theorem dmaWrite_now (a : Nat) (bs : List Byte) (s : State) : (dmaWrite a bs s).now = s.now := rfl
@[simp] theorem dmaWrite_selAt (a : Nat) (bs : List Byte) (s : State) : (dmaWrite a bs s).selAt = s.selAt := rfl
@[simp] theorem dmaWrite_rawPast (a : Nat) (bs : List Byte) (s : State) : (dmaWrite a bs s).rawPast = ⟨s.now, a, (List.range bs.length).map fun b => cellGet s.raw (a + b)⟩ :: s.rawPast := rfl
@[simp] theorem dmaWrite_actor (a : Nat) (bs : List Byte) (s : State) : (dmaWrite a bs s).actor = s.actor := rfl
@[simp] theorem dmaWrite_allocs (a : Nat) (bs : List Byte) (s : State) : (dmaWrite a bs s).allocs = s.allocs := rfl
@[simp] theorem dmaWrite_drawn (a : Nat) (bs : List Byte) (s : State) : (dmaWrite a bs s).drawn = s.drawn := rfl

/-! ### handOut -/

@[simp] theorem handOut_par (h : Handle) (s : State) : (handOut h s).par = s.par := rfl
@[simp] theorem handOut_mode (h : Handle) (s : State) : (handOut h s).mode = s.mode := rfl
@[simp] theorem handOut_tk (h : Handle) (s : State) : (handOut h s).tk = s.tk := rfl
@[simp] theorem handOut_drv (h : Handle) (s : State) : (handOut h s).drv = s.drv := rfl
@[simp] theorem handOut_irqMask (h : Handle) (s : State) : (handOut h s).irqMask = s.irqMask := rfl
@[simp] theorem handOut_irqPending (h : Handle) (s : State) : (handOut h s).irqPending = s.irqPending := rfl
@[simp] theorem handOut_inIsr (h : Handle) (s : State) : (handOut h s).inIsr = s.inIsr := rfl
@[simp] theorem handOut_src (h : Handle) (s : State) : (handOut h s).src = s.src := rfl
@[simp] theorem handOut_fault (h : Handle) (s : State) : (handOut h s).fault = s.fault := rfl
@[simp] theorem handOut_fagent (h : Handle) (s : State) : (handOut h s).fagent = s.fagent := rfl
@[simp] theorem handOut_fword (h : Handle) (s : State) : (handOut h s).fword = s.fword := rfl
@[simp] theorem handOut_wpos (h : Handle) (s : State) : (handOut h s).wpos = s.wpos := rfl
@[simp] theorem handOut_updreq (h : Handle) (s : State) : (handOut h s).updreq = s.updreq := rfl
@[simp] theorem handOut_slot (h : Handle) (s : State) : (handOut h s).slot = s.slot := rfl
@[simp] theorem handOut_new (h : Handle) (s : State) : (handOut h s).new = s.new := rfl
@[simp] theorem handOut_ret (h : Handle) (s : State) : (handOut h s).ret = s.ret := rfl
@[simp] theorem handOut_blk (h : Handle) (s : State) : (handOut h s).blk = cellPut s.blk h.toNat ⟨s.allocs + 1, []⟩ := rfl
@[simp] theorem handOut_raw (h : Handle) (s : State) : (handOut h s).raw = s.raw := rfl
@[simp] theorem handOut_lastInv (h : Handle) (s : State) : (handOut h s).lastInv = s.lastInv := rfl
@[simp] theorem handOut_events (h : Handle) (s : State) : (handOut h s).events = s.events := rfl
@[simp] theorem handOut_pcCoop (h : Handle) (s : State) : (handOut h s).pcCoop = s.pcCoop := rfl
@[simp] theorem handOut_pcIsr (h : Handle) (s : State) : (handOut h s).pcIsr = s.pcIsr := rfl
@[simp] theorem handOut_pcDma (h : Handle) (s : State) : (handOut h s).pcDma = s.pcDma := rfl
@[simp] theorem handOut_free (h : Handle) (s : State) : (handOut h s).free = removeHandle h s.free := rfl
@[simp] theorem handOut_prog (h : Handle) (s : State) : (handOut h s).prog = s.prog := rfl
@[simp] theorem handOut_wire (h : Handle) (s : State) : (handOut h s).wire = s.wire := rfl
@[simp] theorem handOut_endless (h : Handle) (s : State) : (handOut h s).endless = s.endless := rfl
@[simp] theorem handOut_sched (h : Handle) (s : State) : (handOut h s).sched = s.sched := rfl
@[simp] theorem handOut_draws (h : Handle) (s : State) : (handOut h s).draws = s.draws := rfl
@[simp] theorem handOut_clients (h : Handle) (s : State) : (handOut h s).clients = s.clients := rfl
@[simp] theorem handOut_now (h : Handle) (s : State) : (handOut h s).now = s.now := rfl
@[simp] theorem handOut_selAt (h : Handle) (s : State) : (handOut h s).selAt = s.selAt := rfl
@[simp] theorem handOut_rawPast (h : Handle) (s : State) : (handOut h s).rawPast = s.rawPast := rfl
@[simp] theorem handOut_actor (h : Handle) (s : State) : (handOut h s).actor = s.actor := rfl
@[simp] theorem handOut_allocs (h : Handle) (s : State) : (handOut h s).allocs = s.allocs + 1 := rfl
@[simp] theorem handOut_drawn (h : Handle) (s : State) : (handOut h s).drawn = s.drawn := rfl

/-! ### advance -/

@[simp] theorem advance_par (s : State) : (advance s).par = s.par := by
  unfold advance; split <;> simp_all
@[simp] theorem advance_mode (s : State) : (advance s).mode = s.mode := by
  unfold advance; split <;> simp_all
@[simp] theorem advance_tk (s : State) : (advance s).tk = s.tk := by
  unfold advance; split <;> simp_all
@[simp] theorem advance_drv (s : State) : (advance s).drv = s.drv := by
  unfold advance; split <;> simp_all
@[simp] theorem advance_irqMask (s : State) : (advance s).irqMask = s.irqMask := by
  unfold advance; split <;> simp_all
@[simp] theorem advance_irqPending (s : State) : (advance s).irqPending = s.irqPending := by
  unfold advance; split <;> simp_all
@[simp] theorem advance_inIsr (s : State) : (advance s).inIsr = s.inIsr := by
  unfold advance; split <;> simp_all
@[simp] theorem advance_src (s : State) : (advance s).src = s.src := by
  unfold advance; split <;> simp_all
@[simp] theorem advance_fault (s : State) : (advance s).fault = s.fault := by
  unfold advance; split <;> simp_all
@[simp] theorem advance_fagent (s : State) : (advance s).fagent = s.fagent := by
  unfold advance; split <;> simp_all
@[simp] theorem advance_fword (s : State) : (advance s).fword = s.fword := by
  unfold advance; split <;> simp_all
@[simp] theorem advance_wpos (s : State) : (advance s).wpos = s.wpos := by
  unfold advance; split <;> simp_all
@[simp] theorem advance_updreq (s : State) : (advance s).updreq = s.updreq := by
  unfold advance; split <;> simp_all
@[simp] theorem advance_slot (s : State) : (advance s).slot = s.slot := by
  unfold advance; split <;> simp_all
@[simp] theorem advance_new (s : State) : (advance s).new = s.new := by
  unfold advance; split <;> simp_all
@[simp] theorem advance_ret (s : State) : (advance s).ret = s.ret := by
  unfold advance; split <;> simp_all
@[simp] theorem advance_blk (s : State) : (advance s).blk = s.blk := by
  unfold advance; split <;> simp_all
@[simp] theorem advance_raw (s : State) : (advance s).raw = s.raw := by
  unfold advance; split <;> simp_all
@[simp] theorem advance_lastInv (s : State) : (advance s).lastInv = s.lastInv := by
  unfold advance; split <;> simp_all
@[simp] theorem advance_events (s : State) : (advance s).events = s.events := by
  unfold advance; split <;> simp_all
@[simp] theorem advance_pcCoop (s : State) : (advance s).pcCoop = if s.actor = .coop then s.pcCoop + 1 else s.pcCoop := by
  unfold advance; split <;> simp_all
@[simp] theorem advance_pcIsr (s : State) : (advance s).pcIsr = if s.actor = .isr then s.pcIsr + 1 else s.pcIsr := by
  unfold advance; split <;> simp_all
@[simp] theorem advance_pcDma (s : State) : (advance s).pcDma = if s.actor = .dma then s.pcDma + 1 else s.pcDma := by
  unfold advance; split <;> simp_all
@[simp] theorem advance_free (s : State) : (advance s).free = s.free := by
  unfold advance; split <;> simp_all
@[simp] theorem advance_prog (s : State) : (advance s).prog = s.prog := by
  unfold advance; split <;> simp_all
@[simp] theorem advance_wire (s : State) : (advance s).wire = s.wire := by
  unfold advance; split <;> simp_all
@[simp] theorem advance_endless (s : State) : (advance s).endless = s.endless := by
  unfold advance; split <;> simp_all
@[simp] theorem advance_sched (s : State) : (advance s).sched = s.sched := by
  unfold advance; split <;> simp_all
@[simp] theorem advance_draws (s : State) : (advance s).draws = s.draws := by
  unfold advance; split <;> simp_all
@[simp] theorem advance_clients (s : State) : (advance s).clients = s.clients := by
  unfold advance; split <;> simp_all
@[simp] theorem advance_now (s : State) : (advance s).now = s.now := by
  unfold advance; split <;> simp_all
@[simp] theorem advance_selAt (s : State) : (advance s).selAt = s.selAt := by
  unfold advance; split <;> simp_all
@[simp] theorem advance_rawPast (s : State) : (advance s).rawPast = s.rawPast := by
  unfold advance; split <;> simp_all
@[simp] theorem advance_actor (s : State) : (advance s).actor = s.actor := by
  unfold advance; split <;> simp_all
@[simp] theorem advance_allocs (s : State) : (advance s).allocs = s.allocs := by
  unfold advance; split <;> simp_all
@[simp] theorem advance_drawn (s : State) : (advance s).drawn = s.drawn := by
  unfold advance; split <;> simp_all

/-! ### raiseFault -/

@[simp] theorem raiseFault_par (c : FaultCode) (w : Word) (s : State) : (raiseFault c w s).par = s.par := by
  unfold raiseFault; split <;> rfl
@[simp] theorem raiseFault_mode (c : FaultCode) (w : Word) (s : State) : (raiseFault c w s).mode = s.mode := by
  unfold raiseFault; split <;> rfl
@[simp] theorem raiseFault_tk (c : FaultCode) (w : Word) (s : State) : (raiseFault c w s).tk = s.tk := by
  unfold raiseFault; split <;> rfl
@[simp] theorem raiseFault_drv (c : FaultCode) (w : Word) (s : State) : (raiseFault c w s).drv = s.drv := by
  unfold raiseFault; split <;> rfl
@[simp] theorem raiseFault_irqMask (c : FaultCode) (w : Word) (s : State) : (raiseFault c w s).irqMask = s.irqMask := by
  unfold raiseFault; split <;> rfl
@[simp] theorem raiseFault_irqPending (c : FaultCode) (w : Word) (s : State) : (raiseFault c w s).irqPending = s.irqPending := by
  unfold raiseFault; split <;> rfl
@[simp] theorem raiseFault_inIsr (c : FaultCode) (w : Word) (s : State) : (raiseFault c w s).inIsr = s.inIsr := by
  unfold raiseFault; split <;> rfl
@[simp] theorem raiseFault_src (c : FaultCode) (w : Word) (s : State) : (raiseFault c w s).src = s.src := by
  unfold raiseFault; split <;> rfl
@[simp] theorem raiseFault_fault (c : FaultCode) (w : Word) (s : State) : (raiseFault c w s).fault = if s.fault = .none then c else s.fault := by
  unfold raiseFault; split <;> rfl
@[simp] theorem raiseFault_fagent (c : FaultCode) (w : Word) (s : State) : (raiseFault c w s).fagent = if s.fault = .none then some s.actor else s.fagent := by
  unfold raiseFault; split <;> rfl
@[simp] theorem raiseFault_fword (c : FaultCode) (w : Word) (s : State) : (raiseFault c w s).fword = if s.fault = .none then w else s.fword := by
  unfold raiseFault; split <;> rfl
@[simp] theorem raiseFault_wpos (c : FaultCode) (w : Word) (s : State) : (raiseFault c w s).wpos = s.wpos := by
  unfold raiseFault; split <;> rfl
@[simp] theorem raiseFault_updreq (c : FaultCode) (w : Word) (s : State) : (raiseFault c w s).updreq = s.updreq := by
  unfold raiseFault; split <;> rfl
@[simp] theorem raiseFault_slot (c : FaultCode) (w : Word) (s : State) : (raiseFault c w s).slot = s.slot := by
  unfold raiseFault; split <;> rfl
@[simp] theorem raiseFault_new (c : FaultCode) (w : Word) (s : State) : (raiseFault c w s).new = s.new := by
  unfold raiseFault; split <;> rfl
@[simp] theorem raiseFault_ret (c : FaultCode) (w : Word) (s : State) : (raiseFault c w s).ret = s.ret := by
  unfold raiseFault; split <;> rfl
@[simp] theorem raiseFault_blk (c : FaultCode) (w : Word) (s : State) : (raiseFault c w s).blk = s.blk := by
  unfold raiseFault; split <;> rfl
@[simp] theorem raiseFault_raw (c : FaultCode) (w : Word) (s : State) : (raiseFault c w s).raw = s.raw := by
  unfold raiseFault; split <;> rfl
@[simp] theorem raiseFault_lastInv (c : FaultCode) (w : Word) (s : State) : (raiseFault c w s).lastInv = s.lastInv := by
  unfold raiseFault; split <;> rfl
@[simp] theorem raiseFault_events (c : FaultCode) (w : Word) (s : State) : (raiseFault c w s).events = s.events := by
  unfold raiseFault; split <;> rfl
@[simp] theorem raiseFault_pcCoop (c : FaultCode) (w : Word) (s : State) : (raiseFault c w s).pcCoop = s.pcCoop := by
  unfold raiseFault; split <;> rfl
@[simp] theorem raiseFault_pcIsr (c : FaultCode) (w : Word) (s : State) : (raiseFault c w s).pcIsr = s.pcIsr := by
  unfold raiseFault; split <;> rfl
@[simp] theorem raiseFault_pcDma (c : FaultCode) (w : Word) (s : State) : (raiseFault c w s).pcDma = s.pcDma := by
  unfold raiseFault; split <;> rfl
@[simp] theorem raiseFault_free (c : FaultCode) (w : Word) (s : State) : (raiseFault c w s).free = s.free := by
  unfold raiseFault; split <;> rfl
@[simp] theorem raiseFault_prog (c : FaultCode) (w : Word) (s : State) : (raiseFault c w s).prog = s.prog := by
  unfold raiseFault; split <;> rfl
@[simp] theorem raiseFault_wire (c : FaultCode) (w : Word) (s : State) : (raiseFault c w s).wire = s.wire := by
  unfold raiseFault; split <;> rfl
@[simp] theorem raiseFault_endless (c : FaultCode) (w : Word) (s : State) : (raiseFault c w s).endless = s.endless := by
  unfold raiseFault; split <;> rfl
@[simp] theorem raiseFault_sched (c : FaultCode) (w : Word) (s : State) : (raiseFault c w s).sched = s.sched := by
  unfold raiseFault; split <;> rfl
@[simp] theorem raiseFault_draws (c : FaultCode) (w : Word) (s : State) : (raiseFault c w s).draws = s.draws := by
  unfold raiseFault; split <;> rfl
@[simp] theorem raiseFault_clients (c : FaultCode) (w : Word) (s : State) : (raiseFault c w s).clients = s.clients := by
  unfold raiseFault; split <;> rfl
@[simp] theorem raiseFault_now (c : FaultCode) (w : Word) (s : State) : (raiseFault c w s).now = s.now := by
  unfold raiseFault; split <;> rfl
@[simp] theorem raiseFault_selAt (c : FaultCode) (w : Word) (s : State) : (raiseFault c w s).selAt = s.selAt := by
  unfold raiseFault; split <;> rfl
@[simp] theorem raiseFault_rawPast (c : FaultCode) (w : Word) (s : State) : (raiseFault c w s).rawPast = s.rawPast := by
  unfold raiseFault; split <;> rfl
@[simp] theorem raiseFault_actor (c : FaultCode) (w : Word) (s : State) : (raiseFault c w s).actor = s.actor := by
  unfold raiseFault; split <;> rfl
@[simp] theorem raiseFault_allocs (c : FaultCode) (w : Word) (s : State) : (raiseFault c w s).allocs = s.allocs := by
  unfold raiseFault; split <;> rfl
@[simp] theorem raiseFault_drawn (c : FaultCode) (w : Word) (s : State) : (raiseFault c w s).drawn = s.drawn := by
  unfold raiseFault; split <;> rfl

/-! ### draw -/

@[simp] theorem draw_par (m : Nat) (s : State) : ((draw m s).2).par = s.par := by
  unfold draw; split <;> first | rfl | (split <;> rfl)
@[simp] theorem draw_mode (m : Nat) (s : State) : ((draw m s).2).mode = s.mode := by
  unfold draw; split <;> first | rfl | (split <;> rfl)
@[simp] theorem draw_tk (m : Nat) (s : State) : ((draw m s).2).tk = s.tk := by
  unfold draw; split <;> first | rfl | (split <;> rfl)
@[simp] theorem draw_drv (m : Nat) (s : State) : ((draw m s).2).drv = s.drv := by
  unfold draw; split <;> first | rfl | (split <;> rfl)
@[simp] theorem draw_irqMask (m : Nat) (s : State) : ((draw m s).2).irqMask = s.irqMask := by
  unfold draw; split <;> first | rfl | (split <;> rfl)
@[simp] theorem draw_irqPending (m : Nat) (s : State) : ((draw m s).2).irqPending = s.irqPending := by
  unfold draw; split <;> first | rfl | (split <;> rfl)
@[simp] theorem draw_inIsr (m : Nat) (s : State) : ((draw m s).2).inIsr = s.inIsr := by
  unfold draw; split <;> first | rfl | (split <;> rfl)
@[simp] theorem draw_src (m : Nat) (s : State) : ((draw m s).2).src = s.src := by
  unfold draw; split <;> first | rfl | (split <;> rfl)
@[simp] theorem draw_fault (m : Nat) (s : State) : ((draw m s).2).fault = s.fault := by
  unfold draw; split <;> first | rfl | (split <;> rfl)
@[simp] theorem draw_fagent (m : Nat) (s : State) : ((draw m s).2).fagent = s.fagent := by
  unfold draw; split <;> first | rfl | (split <;> rfl)
@[simp] theorem draw_fword (m : Nat) (s : State) : ((draw m s).2).fword = s.fword := by
  unfold draw; split <;> first | rfl | (split <;> rfl)
@[simp] theorem draw_wpos (m : Nat) (s : State) : ((draw m s).2).wpos = s.wpos := by
  unfold draw; split <;> first | rfl | (split <;> rfl)
@[simp] theorem draw_updreq (m : Nat) (s : State) : ((draw m s).2).updreq = s.updreq := by
  unfold draw; split <;> first | rfl | (split <;> rfl)
@[simp] theorem draw_slot (m : Nat) (s : State) : ((draw m s).2).slot = s.slot := by
  unfold draw; split <;> first | rfl | (split <;> rfl)
@[simp] theorem draw_new (m : Nat) (s : State) : ((draw m s).2).new = s.new := by
  unfold draw; split <;> first | rfl | (split <;> rfl)
@[simp] theorem draw_ret (m : Nat) (s : State) : ((draw m s).2).ret = s.ret := by
  unfold draw; split <;> first | rfl | (split <;> rfl)
@[simp] theorem draw_blk (m : Nat) (s : State) : ((draw m s).2).blk = s.blk := by
  unfold draw; split <;> first | rfl | (split <;> rfl)
@[simp] theorem draw_raw (m : Nat) (s : State) : ((draw m s).2).raw = s.raw := by
  unfold draw; split <;> first | rfl | (split <;> rfl)
@[simp] theorem draw_lastInv (m : Nat) (s : State) : ((draw m s).2).lastInv = s.lastInv := by
  unfold draw; split <;> first | rfl | (split <;> rfl)
@[simp] theorem draw_events (m : Nat) (s : State) : ((draw m s).2).events = s.events := by
  unfold draw; split <;> first | rfl | (split <;> rfl)
@[simp] theorem draw_pcCoop (m : Nat) (s : State) : ((draw m s).2).pcCoop = s.pcCoop := by
  unfold draw; split <;> first | rfl | (split <;> rfl)
@[simp] theorem draw_pcIsr (m : Nat) (s : State) : ((draw m s).2).pcIsr = s.pcIsr := by
  unfold draw; split <;> first | rfl | (split <;> rfl)
@[simp] theorem draw_pcDma (m : Nat) (s : State) : ((draw m s).2).pcDma = s.pcDma := by
  unfold draw; split <;> first | rfl | (split <;> rfl)
@[simp] theorem draw_free (m : Nat) (s : State) : ((draw m s).2).free = s.free := by
  unfold draw; split <;> first | rfl | (split <;> rfl)
@[simp] theorem draw_prog (m : Nat) (s : State) : ((draw m s).2).prog = s.prog := by
  unfold draw; split <;> first | rfl | (split <;> rfl)
@[simp] theorem draw_wire (m : Nat) (s : State) : ((draw m s).2).wire = s.wire := by
  unfold draw; split <;> first | rfl | (split <;> rfl)
@[simp] theorem draw_endless (m : Nat) (s : State) : ((draw m s).2).endless = s.endless := by
  unfold draw; split <;> first | rfl | (split <;> rfl)
@[simp] theorem draw_sched (m : Nat) (s : State) : ((draw m s).2).sched = s.sched := by
  unfold draw; split <;> first | rfl | (split <;> rfl)
@[simp] theorem draw_clients (m : Nat) (s : State) : ((draw m s).2).clients = s.clients := by
  unfold draw; split <;> first | rfl | (split <;> rfl)
@[simp] theorem draw_now (m : Nat) (s : State) : ((draw m s).2).now = s.now := by
  unfold draw; split <;> first | rfl | (split <;> rfl)
@[simp] theorem draw_selAt (m : Nat) (s : State) : ((draw m s).2).selAt = s.selAt := by
  unfold draw; split <;> first | rfl | (split <;> rfl)
@[simp] theorem draw_rawPast (m : Nat) (s : State) : ((draw m s).2).rawPast = s.rawPast := by
  unfold draw; split <;> first | rfl | (split <;> rfl)
@[simp] theorem draw_actor (m : Nat) (s : State) : ((draw m s).2).actor = s.actor := by
  unfold draw; split <;> first | rfl | (split <;> rfl)
@[simp] theorem draw_allocs (m : Nat) (s : State) : ((draw m s).2).allocs = s.allocs := by
  unfold draw; split <;> first | rfl | (split <;> rfl)

/-! ### invalidateHalf -/

@[simp] theorem invalidateHalf_par (h : Half) (s : State) : (invalidateHalf h s).par = s.par := by
  unfold invalidateHalf; split <;> rfl
@[simp] theorem invalidateHalf_mode (h : Half) (s : State) : (invalidateHalf h s).mode = s.mode := by
  unfold invalidateHalf; split <;> rfl
@[simp] theorem invalidateHalf_tk (h : Half) (s : State) : (invalidateHalf h s).tk = s.tk := by
  unfold invalidateHalf; split <;> rfl
@[simp] theorem invalidateHalf_drv (h : Half) (s : State) : (invalidateHalf h s).drv = s.drv := by
  unfold invalidateHalf; split <;> rfl
@[simp] theorem invalidateHalf_irqMask (h : Half) (s : State) : (invalidateHalf h s).irqMask = s.irqMask := by
  unfold invalidateHalf; split <;> rfl
@[simp] theorem invalidateHalf_irqPending (h : Half) (s : State) : (invalidateHalf h s).irqPending = s.irqPending := by
  unfold invalidateHalf; split <;> rfl
@[simp] theorem invalidateHalf_inIsr (h : Half) (s : State) : (invalidateHalf h s).inIsr = s.inIsr := by
  unfold invalidateHalf; split <;> rfl
@[simp] theorem invalidateHalf_src (h : Half) (s : State) : (invalidateHalf h s).src = s.src := by
  unfold invalidateHalf; split <;> rfl
@[simp] theorem invalidateHalf_fault (h : Half) (s : State) : (invalidateHalf h s).fault = s.fault := by
  unfold invalidateHalf; split <;> rfl
@[simp] theorem invalidateHalf_fagent (h : Half) (s : State) : (invalidateHalf h s).fagent = s.fagent := by
  unfold invalidateHalf; split <;> rfl
@[simp] theorem invalidateHalf_fword (h : Half) (s : State) : (invalidateHalf h s).fword = s.fword := by
  unfold invalidateHalf; split <;> rfl
@[simp] theorem invalidateHalf_wpos (h : Half) (s : State) : (invalidateHalf h s).wpos = s.wpos := by
  unfold invalidateHalf; split <;> rfl
@[simp] theorem invalidateHalf_updreq (h : Half) (s : State) : (invalidateHalf h s).updreq = s.updreq := by
  unfold invalidateHalf; split <;> rfl
@[simp] theorem invalidateHalf_slot (h : Half) (s : State) : (invalidateHalf h s).slot = s.slot := by
  unfold invalidateHalf; split <;> rfl
@[simp] theorem invalidateHalf_new (h : Half) (s : State) : (invalidateHalf h s).new = s.new := by
  unfold invalidateHalf; split <;> rfl
@[simp] theorem invalidateHalf_ret (h : Half) (s : State) : (invalidateHalf h s).ret = s.ret := by
  unfold invalidateHalf; split <;> rfl
@[simp] theorem invalidateHalf_blk (h : Half) (s : State) : (invalidateHalf h s).blk = s.blk := by
  unfold invalidateHalf; split <;> rfl
@[simp] theorem invalidateHalf_raw (h : Half) (s : State) : (invalidateHalf h s).raw = s.raw := by
  unfold invalidateHalf; split <;> rfl
@[simp] theorem invalidateHalf_lastInv (h : Half) (s : State) : (invalidateHalf h s).lastInv = if s.par.hasDcache then (halfLines s.par h).foldl (fun m l => cellPut m l s.now) s.lastInv else s.lastInv := by
  unfold invalidateHalf; split <;> rfl
@[simp] theorem invalidateHalf_events (h : Half) (s : State) : (invalidateHalf h s).events = s.events := by
  unfold invalidateHalf; split <;> rfl
@[simp] theorem invalidateHalf_pcCoop (h : Half) (s : State) : (invalidateHalf h s).pcCoop = s.pcCoop := by
  unfold invalidateHalf; split <;> rfl
@[simp] theorem invalidateHalf_pcIsr (h : Half) (s : State) : (invalidateHalf h s).pcIsr = s.pcIsr := by
  unfold invalidateHalf; split <;> rfl
@[simp] theorem invalidateHalf_pcDma (h : Half) (s : State) : (invalidateHalf h s).pcDma = s.pcDma := by
  unfold invalidateHalf; split <;> rfl
@[simp] theorem invalidateHalf_free (h : Half) (s : State) : (invalidateHalf h s).free = s.free := by
  unfold invalidateHalf; split <;> rfl
@[simp] theorem invalidateHalf_prog (h : Half) (s : State) : (invalidateHalf h s).prog = s.prog := by
  unfold invalidateHalf; split <;> rfl
@[simp] theorem invalidateHalf_wire (h : Half) (s : State) : (invalidateHalf h s).wire = s.wire := by
  unfold invalidateHalf; split <;> rfl
@[simp] theorem invalidateHalf_endless (h : Half) (s : State) : (invalidateHalf h s).endless = s.endless := by
  unfold invalidateHalf; split <;> rfl
@[simp] theorem invalidateHalf_sched (h : Half) (s : State) : (invalidateHalf h s).sched = s.sched := by
  unfold invalidateHalf; split <;> rfl
@[simp] theorem invalidateHalf_draws (h : Half) (s : State) : (invalidateHalf h s).draws = s.draws := by
  unfold invalidateHalf; split <;> rfl
@[simp] theorem invalidateHalf_clients (h : Half) (s : State) : (invalidateHalf h s).clients = s.clients := by
  unfold invalidateHalf; split <;> rfl
@[simp] theorem invalidateHalf_now (h : Half) (s : State) : (invalidateHalf h s).now = s.now := by
  unfold invalidateHalf; split <;> rfl
@[simp] theorem invalidateHalf_selAt (h : Half) (s : State) : (invalidateHalf h s).selAt = s.selAt := by
  unfold invalidateHalf; split <;> rfl
@[simp] theorem invalidateHalf_rawPast (h : Half) (s : State) : (invalidateHalf h s).rawPast = s.rawPast := by
  unfold invalidateHalf; split <;> rfl
@[simp] theorem invalidateHalf_actor (h : Half) (s : State) : (invalidateHalf h s).actor = s.actor := by
  unfold invalidateHalf; split <;> rfl
@[simp] theorem invalidateHalf_allocs (h : Half) (s : State) : (invalidateHalf h s).allocs = s.allocs := by
  unfold invalidateHalf; split <;> rfl
@[simp] theorem invalidateHalf_drawn (h : Half) (s : State) : (invalidateHalf h s).drawn = s.drawn := by
  unfold invalidateHalf; split <;> rfl

/-! ### blkWrite -/

@[simp] theorem blkWrite_par (h : Handle) (f : Nat) (v : Sample) (s : State) : (blkWrite h f v s).par = s.par := by
  unfold blkWrite; split <;> rfl
@[simp] theorem blkWrite_mode (h : Handle) (f : Nat) (v : Sample) (s : State) : (blkWrite h f v s).mode = s.mode := by
  unfold blkWrite; split <;> rfl
@[simp] theorem blkWrite_tk (h : Handle) (f : Nat) (v : Sample) (s : State) : (blkWrite h f v s).tk = s.tk := by
  unfold blkWrite; split <;> rfl
@[simp] theorem blkWrite_drv (h : Handle) (f : Nat) (v : Sample) (s : State) : (blkWrite h f v s).drv = s.drv := by
  unfold blkWrite; split <;> rfl
@[simp] theorem blkWrite_irqMask (h : Handle) (f : Nat) (v : Sample) (s : State) : (blkWrite h f v s).irqMask = s.irqMask := by
  unfold blkWrite; split <;> rfl
@[simp] theorem blkWrite_irqPending (h : Handle) (f : Nat) (v : Sample) (s : State) : (blkWrite h f v s).irqPending = s.irqPending := by
  unfold blkWrite; split <;> rfl
@[simp] theorem blkWrite_inIsr (h : Handle) (f : Nat) (v : Sample) (s : State) : (blkWrite h f v s).inIsr = s.inIsr := by
  unfold blkWrite; split <;> rfl
@[simp] theorem blkWrite_src (h : Handle) (f : Nat) (v : Sample) (s : State) : (blkWrite h f v s).src = s.src := by
  unfold blkWrite; split <;> rfl
@[simp] theorem blkWrite_fault (h : Handle) (f : Nat) (v : Sample) (s : State) : (blkWrite h f v s).fault = s.fault := by
  unfold blkWrite; split <;> rfl
@[simp] theorem blkWrite_fagent (h : Handle) (f : Nat) (v : Sample) (s : State) : (blkWrite h f v s).fagent = s.fagent := by
  unfold blkWrite; split <;> rfl
@[simp] theorem blkWrite_fword (h : Handle) (f : Nat) (v : Sample) (s : State) : (blkWrite h f v s).fword = s.fword := by
  unfold blkWrite; split <;> rfl
@[simp] theorem blkWrite_wpos (h : Handle) (f : Nat) (v : Sample) (s : State) : (blkWrite h f v s).wpos = s.wpos := by
  unfold blkWrite; split <;> rfl
@[simp] theorem blkWrite_updreq (h : Handle) (f : Nat) (v : Sample) (s : State) : (blkWrite h f v s).updreq = s.updreq := by
  unfold blkWrite; split <;> rfl
@[simp] theorem blkWrite_slot (h : Handle) (f : Nat) (v : Sample) (s : State) : (blkWrite h f v s).slot = s.slot := by
  unfold blkWrite; split <;> rfl
@[simp] theorem blkWrite_new (h : Handle) (f : Nat) (v : Sample) (s : State) : (blkWrite h f v s).new = s.new := by
  unfold blkWrite; split <;> rfl
@[simp] theorem blkWrite_ret (h : Handle) (f : Nat) (v : Sample) (s : State) : (blkWrite h f v s).ret = s.ret := by
  unfold blkWrite; split <;> rfl
@[simp] theorem blkWrite_raw (h : Handle) (f : Nat) (v : Sample) (s : State) : (blkWrite h f v s).raw = s.raw := by
  unfold blkWrite; split <;> rfl
@[simp] theorem blkWrite_lastInv (h : Handle) (f : Nat) (v : Sample) (s : State) : (blkWrite h f v s).lastInv = s.lastInv := by
  unfold blkWrite; split <;> rfl
@[simp] theorem blkWrite_events (h : Handle) (f : Nat) (v : Sample) (s : State) : (blkWrite h f v s).events = s.events := by
  unfold blkWrite; split <;> rfl
@[simp] theorem blkWrite_pcCoop (h : Handle) (f : Nat) (v : Sample) (s : State) : (blkWrite h f v s).pcCoop = s.pcCoop := by
  unfold blkWrite; split <;> rfl
@[simp] theorem blkWrite_pcIsr (h : Handle) (f : Nat) (v : Sample) (s : State) : (blkWrite h f v s).pcIsr = s.pcIsr := by
  unfold blkWrite; split <;> rfl
@[simp] theorem blkWrite_pcDma (h : Handle) (f : Nat) (v : Sample) (s : State) : (blkWrite h f v s).pcDma = s.pcDma := by
  unfold blkWrite; split <;> rfl
@[simp] theorem blkWrite_free (h : Handle) (f : Nat) (v : Sample) (s : State) : (blkWrite h f v s).free = s.free := by
  unfold blkWrite; split <;> rfl
@[simp] theorem blkWrite_prog (h : Handle) (f : Nat) (v : Sample) (s : State) : (blkWrite h f v s).prog = s.prog := by
  unfold blkWrite; split <;> rfl
@[simp] theorem blkWrite_wire (h : Handle) (f : Nat) (v : Sample) (s : State) : (blkWrite h f v s).wire = s.wire := by
  unfold blkWrite; split <;> rfl
@[simp] theorem blkWrite_endless (h : Handle) (f : Nat) (v : Sample) (s : State) : (blkWrite h f v s).endless = s.endless := by
  unfold blkWrite; split <;> rfl
@[simp] theorem blkWrite_sched (h : Handle) (f : Nat) (v : Sample) (s : State) : (blkWrite h f v s).sched = s.sched := by
  unfold blkWrite; split <;> rfl
@[simp] theorem blkWrite_draws (h : Handle) (f : Nat) (v : Sample) (s : State) : (blkWrite h f v s).draws = s.draws := by
  unfold blkWrite; split <;> rfl
@[simp] theorem blkWrite_clients (h : Handle) (f : Nat) (v : Sample) (s : State) : (blkWrite h f v s).clients = s.clients := by
  unfold blkWrite; split <;> rfl
@[simp] theorem blkWrite_now (h : Handle) (f : Nat) (v : Sample) (s : State) : (blkWrite h f v s).now = s.now := by
  unfold blkWrite; split <;> rfl
@[simp] theorem blkWrite_selAt (h : Handle) (f : Nat) (v : Sample) (s : State) : (blkWrite h f v s).selAt = s.selAt := by
  unfold blkWrite; split <;> rfl
@[simp] theorem blkWrite_rawPast (h : Handle) (f : Nat) (v : Sample) (s : State) : (blkWrite h f v s).rawPast = s.rawPast := by
  unfold blkWrite; split <;> rfl
@[simp] theorem blkWrite_actor (h : Handle) (f : Nat) (v : Sample) (s : State) : (blkWrite h f v s).actor = s.actor := by
  unfold blkWrite; split <;> rfl
@[simp] theorem blkWrite_allocs (h : Handle) (f : Nat) (v : Sample) (s : State) : (blkWrite h f v s).allocs = s.allocs := by
  unfold blkWrite; split <;> rfl
@[simp] theorem blkWrite_drawn (h : Handle) (f : Nat) (v : Sample) (s : State) : (blkWrite h f v s).drawn = s.drawn := by
  unfold blkWrite; split <;> rfl

/-! ### poolRelease -/

@[simp] theorem poolRelease_par (h : Handle) (s : State) : (poolRelease h s).par = s.par := by
  unfold poolRelease; split <;> rfl
@[simp] theorem poolRelease_mode (h : Handle) (s : State) : (poolRelease h s).mode = s.mode := by
  unfold poolRelease; split <;> rfl
@[simp] theorem poolRelease_tk (h : Handle) (s : State) : (poolRelease h s).tk = s.tk := by
  unfold poolRelease; split <;> rfl
@[simp] theorem poolRelease_drv (h : Handle) (s : State) : (poolRelease h s).drv = s.drv := by
  unfold poolRelease; split <;> rfl
@[simp] theorem poolRelease_irqMask (h : Handle) (s : State) : (poolRelease h s).irqMask = s.irqMask := by
  unfold poolRelease; split <;> rfl
@[simp] theorem poolRelease_irqPending (h : Handle) (s : State) : (poolRelease h s).irqPending = s.irqPending := by
  unfold poolRelease; split <;> rfl
@[simp] theorem poolRelease_inIsr (h : Handle) (s : State) : (poolRelease h s).inIsr = s.inIsr := by
  unfold poolRelease; split <;> rfl
@[simp] theorem poolRelease_src (h : Handle) (s : State) : (poolRelease h s).src = s.src := by
  unfold poolRelease; split <;> rfl
@[simp] theorem poolRelease_fault (h : Handle) (s : State) : (poolRelease h s).fault = s.fault := by
  unfold poolRelease; split <;> rfl
@[simp] theorem poolRelease_fagent (h : Handle) (s : State) : (poolRelease h s).fagent = s.fagent := by
  unfold poolRelease; split <;> rfl
@[simp] theorem poolRelease_fword (h : Handle) (s : State) : (poolRelease h s).fword = s.fword := by
  unfold poolRelease; split <;> rfl
@[simp] theorem poolRelease_wpos (h : Handle) (s : State) : (poolRelease h s).wpos = s.wpos := by
  unfold poolRelease; split <;> rfl
@[simp] theorem poolRelease_updreq (h : Handle) (s : State) : (poolRelease h s).updreq = s.updreq := by
  unfold poolRelease; split <;> rfl
@[simp] theorem poolRelease_slot (h : Handle) (s : State) : (poolRelease h s).slot = s.slot := by
  unfold poolRelease; split <;> rfl
@[simp] theorem poolRelease_new (h : Handle) (s : State) : (poolRelease h s).new = s.new := by
  unfold poolRelease; split <;> rfl
@[simp] theorem poolRelease_ret (h : Handle) (s : State) : (poolRelease h s).ret = s.ret := by
  unfold poolRelease; split <;> rfl
@[simp] theorem poolRelease_blk (h : Handle) (s : State) : (poolRelease h s).blk = s.blk := by
  unfold poolRelease; split <;> rfl
@[simp] theorem poolRelease_raw (h : Handle) (s : State) : (poolRelease h s).raw = s.raw := by
  unfold poolRelease; split <;> rfl
@[simp] theorem poolRelease_lastInv (h : Handle) (s : State) : (poolRelease h s).lastInv = s.lastInv := by
  unfold poolRelease; split <;> rfl
@[simp] theorem poolRelease_events (h : Handle) (s : State) : (poolRelease h s).events = s.events := by
  unfold poolRelease; split <;> rfl
@[simp] theorem poolRelease_pcCoop (h : Handle) (s : State) : (poolRelease h s).pcCoop = s.pcCoop := by
  unfold poolRelease; split <;> rfl
@[simp] theorem poolRelease_pcIsr (h : Handle) (s : State) : (poolRelease h s).pcIsr = s.pcIsr := by
  unfold poolRelease; split <;> rfl
@[simp] theorem poolRelease_pcDma (h : Handle) (s : State) : (poolRelease h s).pcDma = s.pcDma := by
  unfold poolRelease; split <;> rfl
@[simp] theorem poolRelease_free (h : Handle) (s : State) : (poolRelease h s).free = if h = emptyHandle then s.free else insertHandle h s.free := by
  unfold poolRelease; split <;> rfl
@[simp] theorem poolRelease_prog (h : Handle) (s : State) : (poolRelease h s).prog = s.prog := by
  unfold poolRelease; split <;> rfl
@[simp] theorem poolRelease_wire (h : Handle) (s : State) : (poolRelease h s).wire = s.wire := by
  unfold poolRelease; split <;> rfl
@[simp] theorem poolRelease_endless (h : Handle) (s : State) : (poolRelease h s).endless = s.endless := by
  unfold poolRelease; split <;> rfl
@[simp] theorem poolRelease_sched (h : Handle) (s : State) : (poolRelease h s).sched = s.sched := by
  unfold poolRelease; split <;> rfl
@[simp] theorem poolRelease_draws (h : Handle) (s : State) : (poolRelease h s).draws = s.draws := by
  unfold poolRelease; split <;> rfl
@[simp] theorem poolRelease_clients (h : Handle) (s : State) : (poolRelease h s).clients = s.clients := by
  unfold poolRelease; split <;> rfl
@[simp] theorem poolRelease_now (h : Handle) (s : State) : (poolRelease h s).now = s.now := by
  unfold poolRelease; split <;> rfl
@[simp] theorem poolRelease_selAt (h : Handle) (s : State) : (poolRelease h s).selAt = s.selAt := by
  unfold poolRelease; split <;> rfl
@[simp] theorem poolRelease_rawPast (h : Handle) (s : State) : (poolRelease h s).rawPast = s.rawPast := by
  unfold poolRelease; split <;> rfl
@[simp] theorem poolRelease_actor (h : Handle) (s : State) : (poolRelease h s).actor = s.actor := by
  unfold poolRelease; split <;> rfl
@[simp] theorem poolRelease_allocs (h : Handle) (s : State) : (poolRelease h s).allocs = s.allocs := by
  unfold poolRelease; split <;> rfl
@[simp] theorem poolRelease_drawn (h : Handle) (s : State) : (poolRelease h s).drawn = s.drawn := by
  unfold poolRelease; split <;> rfl

end Sys2Proof.Machine
end

