-- ==== Sys2Proof/Laws/Ops.lean ====
section
/-! SUPPORT. One law per shared operation: everything the operation can do, to be cited where it is used. -/

namespace Sys2Proof.Machine

/-! ### The parameters' constraints -/

theorem params_n (p : Params) : 1 ≤ p.n ∧ p.n ≤ 65536 := by
  have h := p.ok
  simp only [paramsOk, Bool.and_eq_true, decide_eq_true_eq] at h
  omega

theorem params_handles (p : Params) : emptyHandle ∉ p.handles ∧ handlesRising p.handles := by
  have h := p.ok
  simp only [paramsOk, Bool.and_eq_true, decide_eq_true_eq, List.all_eq_true, bne_iff_ne] at h
  exact ⟨fun hm => h.1.2 _ hm rfl, h.2⟩

/-- With a cache, the line size divides the buffer's base and its half size (20_memory.md R71). -/
theorem params_line (p : Params) (hc : p.hasDcache = true) :
    0 < p.line ∧ p.line ∣ p.rawBase ∧ p.line ∣ 32 * p.n := by
  have h := p.ok
  simp only [paramsOk, Bool.and_eq_true, decide_eq_true_eq, hc, Bool.not_true, Bool.false_or] at h
  obtain ⟨⟨⟨⟨⟨-, hpow⟩, hbase⟩, -⟩, hhalf⟩, -⟩ := h.1
  have hpos : 0 < p.line := by
    rw [hpow]
    positivity
  refine ⟨hpos, dvd_trans ?_ (Nat.dvd_of_mod_eq_zero hbase), Nat.dvd_of_mod_eq_zero hhalf⟩
  rcases le_total 32 p.line with h | h
  · rw [max_eq_right h]
  · rw [max_eq_left h]
    rw [hpow] at h ⊢
    have h32 : (32 : Nat) = 2 ^ 5 := rfl
    rw [h32] at h ⊢
    exact pow_dvd_pow 2 ((Nat.pow_le_pow_iff_right (by decide)).1 h)

/-! ### Checks and faults -/

@[simp] theorem require_true (c : FaultCode) (i : Instr) (s : State) (k : Result) : require true c i s k = k := rfl

@[simp] theorem require_false (c : FaultCode) (i : Instr) (s : State) (k : Result) :
    require false c i s k = .next (raiseFault c (encodeWord i) s) := rfl

/-- A check goes on, or it is the fault. -/
theorem require_next {b : Bool} {c : FaultCode} {i : Instr} {s t : State} {k : Result}
    (h : require b c i s k = .next t) :
    (b = true ∧ k = .next t) ∨ (b = false ∧ t = raiseFault c (encodeWord i) s) := by
  cases b with
  | true => exact .inl ⟨rfl, h⟩
  | false => exact .inr ⟨rfl, by simpa using h.symm⟩

/-- A command issued by an agent other than `a` faults; by `a`, it goes on. -/
theorem issuedBy_next {a : Agent} {i : Instr} {s t : State} {k : Result} (h : issuedBy a i s k = .next t) :
    (s.actor = a ∧ k = .next t) ∨ (s.actor ≠ a ∧ t = raiseFault .wrongContext (encodeWord i) s) := by
  simpa using require_next h

/-- The two common checks: both hold and the command goes on, or the first that fails is the fault. -/
theorem streamingCommand_next {a : Agent} {i : Instr} {s t : State} {k : Result}
    (h : streamingCommand a i s k = .next t) :
    (s.actor = a ∧ s.drv = .streaming ∧ k = .next t) ∨
    (s.actor ≠ a ∧ t = raiseFault .wrongContext (encodeWord i) s) ∨
    (s.actor = a ∧ s.drv ≠ .streaming ∧ t = raiseFault .notStreaming (encodeWord i) s) := by
  rcases issuedBy_next h with ⟨ha, h⟩ | h
  · rcases require_next h with ⟨hd, h⟩ | ⟨hd, h⟩
    · exact .inl ⟨ha, by simpa using hd, h⟩
    · exact .inr (.inr ⟨ha, by simpa using hd, h⟩)
  · exact .inr (.inl h)

theorem streamingCommand_ok {a : Agent} {i : Instr} {s : State} {k : Result} (ha : s.actor = a)
    (hd : s.drv = .streaming) : streamingCommand a i s k = k := by
  simp [streamingCommand, issuedBy, require, ha, hd]

/-- Before INIT, a command of the right agent faults with NOT_STREAMING (60_exceptions.md R210). -/
theorem streamingCommand_notStreaming {a : Agent} {i : Instr} {s : State} {k : Result} (ha : s.actor = a)
    (hd : s.drv ≠ .streaming) : streamingCommand a i s k = .next (raiseFault .notStreaming (encodeWord i) s) := by
  simp [streamingCommand, issuedBy, require, ha, hd]

theorem issuedBy_ok {a : Agent} {i : Instr} {s : State} {k : Result} (ha : s.actor = a) :
    issuedBy a i s k = k := by
  simp [issuedBy, require, ha]

/-- In a state without a fault, raising one records it and changes nothing else. -/
theorem raiseFault_of_none {c : FaultCode} {w : Word} {s : State} (h : s.fault = .none) :
    raiseFault c w s = { s with fault := c, fagent := some s.actor, fword := w } := by
  simp [raiseFault, h]

/-- Raising a fault writes the fault's record at most. -/
theorem raiseFault_frame (c : FaultCode) (w : Word) (s : State) :
    raiseFault c w s = { s with
      fault := (raiseFault c w s).fault
      fagent := (raiseFault c w s).fagent
      fword := (raiseFault c w s).fword } := by
  unfold raiseFault
  split <;> rfl

/-- A recorded fault stays. -/
theorem raiseFault_of_fault {c : FaultCode} {w : Word} {s : State} (h : s.fault ≠ .none) :
    raiseFault c w s = s := by
  simp [raiseFault, h]

/-- The command index of the issuing agent moves, and nothing else. -/
theorem advance_eq (s : State) :
    advance s = { s with
      pcCoop := (advance s).pcCoop
      pcIsr := (advance s).pcIsr
      pcDma := (advance s).pcDma } := by
  unfold advance
  split <;> rfl

theorem advance_coop {s : State} (h : s.actor = .coop) : advance s = { s with pcCoop := s.pcCoop + 1 } := by
  simp [advance, h]

theorem advance_isr {s : State} (h : s.actor = .isr) : advance s = { s with pcIsr := s.pcIsr + 1 } := by
  simp [advance, h]

theorem advance_dma {s : State} (h : s.actor = .dma) : advance s = { s with pcDma := s.pcDma + 1 } := by
  simp [advance, h]

/-! ### draw() -/

/-- The two states differ in the supply of `draw()` only. -/
def DrawsOnly (s t : State) : Prop := t = { s with draws := t.draws, drawn := t.drawn }

theorem DrawsOnly.refl (s : State) : DrawsOnly s s := rfl

theorem DrawsOnly.trans {s t u : State} (h1 : DrawsOnly s t) (h2 : DrawsOnly t u) : DrawsOnly s u := by
  unfold DrawsOnly at *
  rw [h2, h1]

theorem draw_drawsOnly (m : Nat) (s : State) : DrawsOnly s (draw m s).2 := by
  unfold draw DrawsOnly
  split
  · rfl
  · split <;> rfl

theorem draw_lt {m : Nat} (s : State) (h : 0 < m) : (draw m s).1 < m := by
  unfold draw
  split
  · exact h
  · split <;> exact Nat.mod_lt _ h

theorem draw_one {m : Nat} (s : State) (h : m ≤ 1) : draw m s = (0, s) := by simp [draw, h]

theorem drawFrom_eq {α : Type} (xs : List α) (d : α) (s : State) :
    drawFrom xs d s = (xs.getD (draw xs.length s).1 d, (draw xs.length s).2) := rfl

theorem drawFrom_drawsOnly {α : Type} (xs : List α) (d : α) (s : State) : DrawsOnly s (drawFrom xs d s).2 :=
  draw_drawsOnly _ _

/-- A draw from some values gives one of them. -/
theorem drawFrom_mem {α : Type} {xs : List α} (d : α) (s : State) (h : xs ≠ []) : (drawFrom xs d s).1 ∈ xs := by
  have hl : (draw xs.length s).1 < xs.length := draw_lt s (List.length_pos_iff.2 h)
  simp [drawFrom_eq, hl]

@[simp] theorem drawFrom_nil {α : Type} (d : α) (s : State) : drawFrom [] d s = (d, s) := by
  simp [drawFrom_eq, draw_one]

/-- A draw from one value is no choice. -/
@[simp] theorem drawFrom_singleton {α : Type} (x d : α) (s : State) : drawFrom [x] d s = (x, s) := by
  simp [drawFrom_eq, draw_one]

/-- Every value may be drawn, whatever choices are left for later. -/
theorem drawFrom_reaches {α : Type} {xs : List α} {x : α} (d : α) (s : State) (h : x ∈ xs) (rest : List Nat) :
    ∃ ds, drawFrom xs d { s with draws := ds } = (x, { s with draws := rest }) := by
  obtain ⟨k, hk, rfl⟩ := List.getElem_of_mem h
  by_cases hm : xs.length ≤ 1
  · obtain rfl : k = 0 := by omega
    exact ⟨rest, by simp [drawFrom_eq, draw_one _ hm, hk]⟩
  · exact ⟨k :: rest, by simp [drawFrom_eq, draw, hm, Nat.mod_eq_of_lt hk, hk]⟩

/-- Every value may be drawn. -/
theorem drawFrom_any {α : Type} {xs : List α} {x : α} (d : α) (s : State) (h : x ∈ xs) :
    ∃ k, (drawFrom xs d { s with draws := [k] }).1 = x := by
  obtain ⟨k, hk, rfl⟩ := List.getElem_of_mem h
  refine ⟨k, ?_⟩
  have hk' : (draw xs.length { s with draws := [k] }).1 = k := by
    unfold draw
    split
    · show 0 = k
      omega
    · simpa using Nat.mod_eq_of_lt hk
  simp [drawFrom_eq, hk', hk]

/-! ### Reading RAW -/

theorem cpuByte_eq (a : Nat) (s : State) :
    cpuByte a s = ((drawFrom (heldSince s (windowStart s a) a) Option.none s).1.getD (Config.powerOnByte a),
      (drawFrom (heldSince s (windowStart s a) a) Option.none s).2) := rfl

theorem memRead_succ (a k : Nat) (s : State) :
    memRead a (k + 1) s =
      ((cpuByte a s).1 :: (memRead (a + 1) k (cpuByte a s).2).1, (memRead (a + 1) k (cpuByte a s).2).2) := rfl

theorem readSlots32_succ (a j : Nat) (s : State) :
    readSlots32 a (j + 1) s =
      ((ofLeBytes 32 (memRead a 4 s).1).extractLsb' 16 16 :: (ofLeBytes 32 (memRead a 4 s).1).extractLsb' 0 16 ::
        (readSlots32 (a + 4) j (memRead a 4 s).2).1, (readSlots32 (a + 4) j (memRead a 4 s).2).2) := by
  rcases h : memRead a 4 s with ⟨bs, t⟩
  rcases h2 : readSlots32 (a + 4) j t with ⟨ws, u⟩
  simp only [readSlots32, h, h2]

theorem readSlots16_succ (a k : Nat) (s : State) :
    readSlots16 a (k + 1) s =
      (ofLeBytes 16 (memRead a 2 s).1 :: (readSlots16 (a + 2) k (memRead a 2 s).2).1,
        (readSlots16 (a + 2) k (memRead a 2 s).2).2) := by
  rcases h : memRead a 2 s with ⟨bs, t⟩
  rcases h2 : readSlots16 (a + 2) k t with ⟨ws, u⟩
  simp only [readSlots16, h, h2]

theorem readFrame_eq (h : Half) (f : Nat) (s : State) :
    readFrame h f s = (frameOfSlots (frameSlots h f s).1, (frameSlots h f s).2) := rfl

theorem cpuByte_drawsOnly (a : Nat) (s : State) : DrawsOnly s (cpuByte a s).2 := by
  rw [cpuByte_eq]
  exact drawFrom_drawsOnly _ Option.none s

theorem memRead_drawsOnly (a k : Nat) (s : State) : DrawsOnly s (memRead a k s).2 := by
  induction k generalizing a s with
  | zero => exact .refl s
  | succ k ih =>
    rw [memRead_succ]
    exact (cpuByte_drawsOnly a s).trans (ih _ _)

theorem readSlots32_drawsOnly (a j : Nat) (s : State) : DrawsOnly s (readSlots32 a j s).2 := by
  induction j generalizing a s with
  | zero => exact .refl s
  | succ j ih =>
    rw [readSlots32_succ]
    exact (memRead_drawsOnly a 4 s).trans (ih _ _)

theorem readSlots16_drawsOnly (a k : Nat) (s : State) : DrawsOnly s (readSlots16 a k s).2 := by
  induction k generalizing a s with
  | zero => exact .refl s
  | succ k ih =>
    rw [readSlots16_succ]
    exact (memRead_drawsOnly a 2 s).trans (ih _ _)

theorem readFrame_state (h : Half) (f : Nat) (s : State) : (readFrame h f s).2 = (frameSlots h f s).2 := rfl

/-- A CPU read of a frame changes nothing but the supply of `draw()` (20_memory.md R69). -/
theorem readFrame_drawsOnly (h : Half) (f : Nat) (s : State) : DrawsOnly s (readFrame h f s).2 := by
  rw [readFrame_state]
  unfold frameSlots
  split
  · exact readSlots32_drawsOnly _ _ _
  · exact readSlots16_drawsOnly _ _ _

/-- A byte that had one value since the window's start is read exactly. -/
theorem cpuByte_exact {a : Nat} {s : State} (h : ∀ o ∈ s.rawPast, o.step ≤ windowStart s a) :
    cpuByte a s = ((cellGet s.raw a).getD (Config.powerOnByte a), s) := by
  have hw : heldSince s (windowStart s a) a = [cellGet s.raw a] := by
    have hnone : (s.rawPast.filter fun o => decide (windowStart s a < o.step)) = [] := by
      simpa [List.filter_eq_nil_iff] using h
    simp [heldSince, hnone, distinct]
  simp [cpuByte_eq, hw]

/-! ### Writing RAW -/

/-- Several DMA writes change memory and its record only. -/
theorem dmaWrites_frame {α : Type} (addr : α → Nat) (bytes : α → List Byte) (xs : List α) (s : State) :
    xs.foldl (fun t x => dmaWrite (addr x) (bytes x) t) s =
      { s with
        raw := xs.foldl (fun m x => putBytes m (addr x) (bytes x)) s.raw
        rawPast := (xs.foldl (fun t x => dmaWrite (addr x) (bytes x) t) s).rawPast } := by
  induction xs generalizing s with
  | nil => rfl
  | cons x xs ih =>
    simp only [List.foldl_cons]
    rw [ih]
    rfl

theorem dmaWriteFrame_eq (a : Nat) (fv : Frame) (s : State) :
    dmaWriteFrame a fv s = { s with
      raw := (dmaWriteFrame a fv s).raw
      rawPast := (dmaWriteFrame a fv s).rawPast } := by
  unfold dmaWriteFrame
  split
  · generalize List.range 8 = js
    rw [dmaWrites_frame (fun j => a + 4 * j) (fun j => leBytes 4 (frameWord fv j))]
  · generalize List.range 16 = ks
    rw [dmaWrites_frame (fun k => a + 2 * k) (fun k => leBytes 2 (slotWord fv k))]

theorem putBytesAll_wf {α : Type} (addr : α → Nat) (bytes : α → List Byte) (xs : List α) {m : Memory}
    (hm : Memory.wf m) : Memory.wf (xs.foldl (fun m x => putBytes m (addr x) (bytes x)) m) := by
  induction xs generalizing m with
  | nil => exact hm
  | cons x xs ih => exact ih (putBytes_wf hm _ _)

/-- A frame write keeps the canonical form. -/
theorem dmaWriteFrame_wf {a : Nat} {fv : Frame} {s : State} (h : Memory.wf s.raw) :
    Memory.wf (dmaWriteFrame a fv s).raw := by
  unfold dmaWriteFrame
  split
  · generalize List.range 8 = js
    rw [dmaWrites_frame (fun j => a + 4 * j) (fun j => leBytes 4 (frameWord fv j))]
    exact putBytesAll_wf _ _ _ h
  · generalize List.range 16 = ks
    rw [dmaWrites_frame (fun k => a + 2 * k) (fun k => leBytes 2 (slotWord fv k))]
    exact putBytesAll_wf _ _ _ h

@[simp] theorem leBytes_length {w : Nat} (k : Nat) (v : BitVec w) : (leBytes k v).length = k := by simp [leBytes]

theorem leBytes_getElem? {w k b : Nat} (v : BitVec w) (h : b < k) :
    (leBytes k v)[b]? = some (v.extractLsb' (8 * b) 8) := by
  simp [leBytes, h]

/-- Equal strips of `w` bytes laid end to end: byte `b` of strip `j` is byte `b` of the strip's value, and no other byte
changes. -/
theorem cellGet_strips (w a n : Nat) (hw : 0 < w) (strip : Nat → List Byte) (hlen : ∀ j, (strip j).length = w) (m : Memory)
    (x : Nat) :
    cellGet ((List.range n).foldl (fun m j => putBytes m (a + w * j) (strip j)) m) x =
      if a ≤ x ∧ x < a + w * n then (strip ((x - a) / w))[(x - a) % w]? else cellGet m x := by
  induction n with
  | zero =>
    have : ¬(a ≤ x ∧ x < a + w * 0) := by omega
    rw [if_neg this]
    rfl
  | succ n ih =>
    rw [List.range_succ, List.foldl_append]
    simp only [List.foldl_cons, List.foldl_nil, cellGet_putBytes, ih, hlen]
    have hmul : w * (n + 1) = w * n + w := by ring
    by_cases h1 : a + w * n ≤ x ∧ x < a + w * n + w
    · have h2 : a ≤ x ∧ x < a + w * (n + 1) := by omega
      have h3 : (x - a) / w = n := by
        rw [Nat.div_eq_iff (by omega)]
        have : n * w = w * n := Nat.mul_comm ..
        constructor <;> omega
      have h4 : (x - a) % w = x - (a + w * n) := by
        have := Nat.div_add_mod (x - a) w
        rw [h3] at this
        omega
      rw [if_pos h1, if_pos h2, h3, h4]
    · rw [if_neg h1]
      by_cases h2 : a ≤ x ∧ x < a + w * n
      · have h3 : a ≤ x ∧ x < a + w * (n + 1) := by omega
        rw [if_pos h2, if_pos h3]
      · have h3 : ¬(a ≤ x ∧ x < a + w * (n + 1)) := by omega
        rw [if_neg h2, if_neg h3]

/-- The strips list no address outside theirs that was not listed before. -/
theorem mem_strips {w a : Nat} {strip : Nat → List Byte} (hlen : ∀ j, (strip j).length = w) {n : Nat} {m : Memory}
    {c : Host.Cell} (h : c ∈ (List.range n).foldl (fun m j => putBytes m (a + w * j) (strip j)) m) :
    c ∈ m ∨ (a ≤ c.1 ∧ c.1 < a + w * n) := by
  induction n with
  | zero => exact .inl h
  | succ n ih =>
    rw [List.range_succ, List.foldl_append] at h
    have hmul : w * (n + 1) = w * n + w := by ring
    rcases mem_putBytes h with h | h
    · exact (ih h).imp id (by omega)
    · rw [hlen] at h
      exact .inr (by omega)

/-- The byte that a frame write puts at offset `o` of the frame (20_memory.md R62, R63). -/
def frameByte (layout : RawLayout) (fv : Frame) (o : Nat) : Byte :=
  match layout with
  | .word32HiFirst => (frameWord fv (o / 4)).extractLsb' (8 * (o % 4)) 8
  | .half16Seq => (slotWord fv (o / 2)).extractLsb' (8 * (o % 2)) 8

/-- A frame write changes the frame's 32 bytes and no other (41_raw_buffer.md R111). -/
theorem cellGet_dmaWriteFrame (a : Nat) (fv : Frame) (s : State) (x : Nat) :
    cellGet (dmaWriteFrame a fv s).raw x =
      if a ≤ x ∧ x < a + 32 then some (frameByte s.par.layout fv (x - a)) else cellGet s.raw x := by
  unfold dmaWriteFrame
  split <;> rename_i hl <;> simp only [frameByte, hl]
  · rw [dmaWrites_frame]
    simp only
    rw [cellGet_strips 4 a 8 (by decide) _ (fun j => leBytes_length ..)]
    split
    · rw [leBytes_getElem? _ (Nat.mod_lt _ (by decide))]
    · rfl
  · rw [dmaWrites_frame]
    simp only
    rw [cellGet_strips 2 a 16 (by decide) _ (fun j => leBytes_length ..)]
    split
    · rw [leBytes_getElem? _ (Nat.mod_lt _ (by decide))]
    · rfl

/-- Strips written one after another: what each held goes on record under the current step, byte for byte, and nothing else. -/
theorem rawPast_strips {w : Nat} (a : Nat) (hw : 0 < w) (strip : Nat → List Byte) (hlen : ∀ j, (strip j).length = w) (n : Nat)
    (s : State) :
    ∃ added, ((List.range n).foldl (fun t j => dmaWrite (a + w * j) (strip j) t) s).rawPast = added ++ s.rawPast ∧
      (∀ o ∈ added, o.step = s.now ∧
        ∀ x v, overwrittenAt o x = some v → (a ≤ x ∧ x < a + w * n) ∧ v = cellGet s.raw x) ∧
      ∀ x, a ≤ x → x < a + w * n → ∃ o ∈ added, overwrittenAt o x = some (cellGet s.raw x) := by
  induction n with
  | zero => exact ⟨[], rfl, by simp, fun x h1 h2 => by omega⟩
  | succ n ih =>
    obtain ⟨added, he, hadd, hall⟩ := ih
    have hmul : w * (n + 1) = w * n + w := by ring
    obtain ⟨u, hu⟩ : ∃ u, u = (List.range n).foldl (fun t j => dmaWrite (a + w * j) (strip j) t) s := ⟨_, rfl⟩
    rw [← hu] at he
    have hfr := dmaWrites_frame (fun j => a + w * j) strip (List.range n) s
    simp only [← hu] at hfr
    have hnow : u.now = s.now := by rw [hfr]
    have hraw : ∀ x, a + w * n ≤ x → cellGet u.raw x = cellGet s.raw x := by
      intro x hx
      rw [hfr]
      show cellGet ((List.range n).foldl (fun m j => putBytes m (a + w * j) (strip j)) s.raw) x = _
      rw [cellGet_strips w a n hw strip hlen, if_neg (by omega)]
    have hover : ∀ x, overwrittenAt ⟨u.now, a + w * n, (List.range w).map fun b => cellGet u.raw (a + w * n + b)⟩ x =
        if a + w * n ≤ x ∧ x < a + w * n + w then some (cellGet s.raw x) else Option.none := by
      intro x
      unfold overwrittenAt
      by_cases h1 : a + w * n ≤ x
      · have hx : a + w * n + (x - (a + w * n)) = x := by omega
        by_cases h2 : x < a + w * n + w
        · have h3 : x - (a + w * n) < w := by omega
          simp [h1, h2, h3, hx, hraw x h1]
        · have h3 : ¬x - (a + w * n) < w := by omega
          have h4 : w ≤ x - (a + w * n) := by omega
          simp [h1, h2, h4]
      · simp [h1]
    refine ⟨⟨u.now, a + w * n, (List.range w).map fun b => cellGet u.raw (a + w * n + b)⟩ :: added, ?_, ?_, ?_⟩
    · rw [List.range_succ, List.foldl_append, ← hu]
      simp only [List.foldl_cons, List.foldl_nil, dmaWrite, hlen, he, List.cons_append]
    · intro o ho
      rcases List.mem_cons.1 ho with rfl | ho
      · refine ⟨hnow, fun x v hv => ?_⟩
        rw [hover] at hv
        split at hv
        · exact ⟨by omega, (Option.some.inj hv).symm⟩
        · cases hv
      · refine ⟨(hadd o ho).1, fun x v hv => ?_⟩
        have := (hadd o ho).2 x v hv
        exact ⟨by omega, this.2⟩
    · intro x h1 h2
      by_cases h3 : x < a + w * n
      · obtain ⟨o, ho, hx⟩ := hall x h1 h3
        exact ⟨o, List.mem_cons_of_mem _ ho, hx⟩
      · exact ⟨_, List.mem_cons_self, by rw [hover, if_pos (by omega)]⟩

/-- A frame write puts on record, under the current step, what each of the frame's 32 bytes held (20_memory.md R66, R81). -/
theorem rawPast_dmaWriteFrame (a : Nat) (fv : Frame) (s : State) :
    ∃ added, (dmaWriteFrame a fv s).rawPast = added ++ s.rawPast ∧
      (∀ o ∈ added, o.step = s.now ∧
        ∀ x v, overwrittenAt o x = some v → (a ≤ x ∧ x < a + 32) ∧ v = cellGet s.raw x) ∧
      ∀ x, a ≤ x → x < a + 32 → ∃ o ∈ added, overwrittenAt o x = some (cellGet s.raw x) := by
  unfold dmaWriteFrame
  split
  · exact rawPast_strips a (by decide) (fun j => leBytes 4 (frameWord fv j)) (fun j => leBytes_length ..) 8 s
  · exact rawPast_strips a (by decide) (fun k => leBytes 2 (slotWord fv k)) (fun k => leBytes_length ..) 16 s

/-- A frame write lists no address outside the frame that was not listed before. -/
theorem mem_dmaWriteFrame {a : Nat} {fv : Frame} {s : State} {c : Host.Cell} (h : c ∈ (dmaWriteFrame a fv s).raw) :
    c ∈ s.raw ∨ (a ≤ c.1 ∧ c.1 < a + 32) := by
  unfold dmaWriteFrame at h
  split at h
  · rw [dmaWrites_frame] at h
    simp only at h
    exact mem_strips (fun j => leBytes_length 4 (frameWord fv j)) h
  · rw [dmaWrites_frame] at h
    simp only at h
    exact mem_strips (fun k => leBytes_length 2 (slotWord fv k)) h

/-- The memory that reset leaves, with nothing listed, has the canonical form. -/
theorem reset_memory_wf : Memory.wf State.reset.raw := List.Pairwise.nil

/-! ### Block storage -/

/-- Two handles that share a number are the same handle. -/
theorem handle_toNat_inj {g h : Handle} : g.toNat = h.toNat ↔ g = h := BitVec.toNat_inj

theorem blockOf_blkWrite {h g : Handle} (f : Nat) (v : Sample) (s : State) (hh : h ≠ emptyHandle) :
    blockOf (blkWrite h f v s) g =
      if h = g then { blockOf s h with samples := cellPut (blockOf s h).samples f v } else blockOf s g := by
  simp only [blkWrite, if_neg hh, blockOf, cellGet_cellPut, handle_toNat_inj]
  split <;> rfl

/-- A sample write: the value at its place, every other sample as before (42_transcoder.md R127). -/
theorem blkRead_blkWrite (h : Handle) (f : Nat) (v : Sample) (s : State) (g : Handle) (j : Nat) :
    blkRead (blkWrite h f v s) g j =
      if h ≠ emptyHandle ∧ h = g ∧ f = j then v else blkRead s g j := by
  by_cases hh : h = emptyHandle
  · simp [blkWrite, hh]
  · unfold blkRead
    rw [blockOf_blkWrite f v s hh]
    by_cases hg : h = g
    · subst hg
      by_cases hf : f = j
      · subst hf
        simp [hh]
      · simp [hf, cellGet_cellPut]
    · simp [hg]

/-- The lanes of a command change BLK only. -/
theorem writeLanes_eq (hs : List Handle) (vs : List Sample) (f : Nat) (s : State) :
    writeLanes hs vs f s = { s with blk := (writeLanes hs vs f s).blk } := by
  induction hs generalizing vs s with
  | nil => simp [writeLanes]
  | cons h hs ih =>
    cases vs with
    | nil => simp [writeLanes]
    | cons v vs =>
      simp only [writeLanes]
      rw [ih]
      unfold blkWrite
      split <;> rfl

/-- The lanes change no sample but those at index `f` of their blocks. -/
theorem blkRead_writeLanes_other {hs : List Handle} {vs : List Sample} {f : Nat} {s : State} {g : Handle} {j : Nat}
    (h : g ∉ hs ∨ j ≠ f) : blkRead (writeLanes hs vs f s) g j = blkRead s g j := by
  induction hs generalizing vs s with
  | nil => simp [writeLanes]
  | cons k hs ih =>
    cases vs with
    | nil => simp [writeLanes]
    | cons v vs =>
      simp only [writeLanes]
      rw [ih (h.imp (fun h hm => h (List.mem_cons_of_mem _ hm)) id), blkRead_blkWrite, if_neg]
      rintro ⟨-, rfl, rfl⟩
      rcases h with h | h
      · exact h (List.mem_cons_self ..)
      · exact h rfl

/-- Lane k writes its value into block `hs[k]`, when the blocks are distinct and none is EMPTY (42_transcoder.md R130). -/
theorem blkRead_writeLanes {hs : List Handle} {vs : List Sample} {f : Nat} {s : State} (hn : hs.Nodup)
    (he : emptyHandle ∉ hs) {k : Nat} {h : Handle} {v : Sample} (hk : hs[k]? = some h) (hv : vs[k]? = some v) :
    blkRead (writeLanes hs vs f s) h f = v := by
  induction hs generalizing vs s k with
  | nil => simp at hk
  | cons g hs ih =>
    cases vs with
    | nil => simp at hv
    | cons u vs =>
      simp only [writeLanes]
      obtain ⟨hg, hn'⟩ := List.nodup_cons.1 hn
      have he' : emptyHandle ∉ hs := fun hm => he (List.mem_cons_of_mem _ hm)
      cases k with
      | zero =>
        simp only [List.getElem?_cons_zero, Option.some.injEq] at hk hv
        subst hk hv
        rw [blkRead_writeLanes_other (.inl hg), blkRead_blkWrite, if_pos]
        exact ⟨fun e => he (e ▸ List.mem_cons_self ..), rfl, rfl⟩
      | succ k => exact ih hn' he' (by simpa using hk) (by simpa using hv)

/-- Every block's samples are in canonical form. -/
def SamplesRising (s : State) : Prop := ∀ c ∈ s.blk, cellsRising c.2.samples

theorem blockOf_samples_rising {s : State} (h : SamplesRising s) (g : Handle) : cellsRising (blockOf s g).samples := by
  unfold blockOf
  cases hc : cellGet s.blk g.toNat with
  | none => exact List.Pairwise.nil
  | some b => exact h _ (cellGet_mem hc)

theorem blkWrite_canonical {s : State} (hb : cellsRising s.blk) (hs : SamplesRising s) (h : Handle) (f : Nat) (v : Sample) :
    cellsRising (blkWrite h f v s).blk ∧ SamplesRising (blkWrite h f v s) := by
  unfold blkWrite
  split
  · exact ⟨hb, hs⟩
  · refine ⟨cellsRising_cellPut hb _ _, fun c hc => ?_⟩
    rcases mem_cellPut hc with rfl | hc
    · exact cellsRising_cellPut (blockOf_samples_rising hs h) _ _
    · exact hs c hc

theorem writeLanes_canonical {hs : List Handle} {vs : List Sample} {f : Nat} {s : State} (hb : cellsRising s.blk)
    (hr : SamplesRising s) : cellsRising (writeLanes hs vs f s).blk ∧ SamplesRising (writeLanes hs vs f s) := by
  induction hs generalizing vs s with
  | nil => simpa [writeLanes] using ⟨hb, hr⟩
  | cons h hs ih =>
    cases vs with
    | nil => simpa [writeLanes] using ⟨hb, hr⟩
    | cons v vs =>
      have := blkWrite_canonical hb hr h f v
      exact ih this.1 this.2

theorem handOut_canonical {s : State} (hb : cellsRising s.blk) (hs : SamplesRising s) (h : Handle) :
    cellsRising (handOut h s).blk ∧ SamplesRising (handOut h s) := by
  refine ⟨cellsRising_cellPut hb _ _, fun c hc => ?_⟩
  rcases mem_cellPut hc with rfl | hc
  · exact List.Pairwise.nil
  · exact hs c hc

/-! ### The pool -/

/-- What an allocation can do (45_init_and_interfaces.md R196): none, with only the supply of `draw()` changed, or a free
handle, handed out. -/
theorem poolAllocate_cases (s : State) :
    (∃ u, DrawsOnly s u ∧ poolAllocate s = (Option.none, u) ∧ (s.free = [] ∨ s.par.poolMayFail = true)) ∨
    (∃ h u, h ∈ s.free ∧ DrawsOnly s u ∧ poolAllocate s = (some h, handOut h u)) := by
  have hd := drawFrom_drawsOnly (allocChoices s) Option.none s
  rcases hr : drawFrom (allocChoices s) Option.none s with ⟨r, u⟩
  rw [hr] at hd
  by_cases hne : allocChoices s = []
  · have hr' := hr
    rw [hne, drawFrom_nil] at hr'
    obtain ⟨rfl, rfl⟩ := Prod.mk.inj hr'
    refine .inl ⟨_, hd, by simp [poolAllocate, hr], .inl ?_⟩
    have : s.free.map some = [] := (List.append_eq_nil_iff.1 hne).1
    simpa using this
  · have hm := drawFrom_mem Option.none s hne
    rw [hr] at hm
    cases r with
    | none =>
      refine .inl ⟨u, hd, by simp [poolAllocate, hr], .inr ?_⟩
      simp only [allocChoices, List.mem_append] at hm
      rcases hm with hm | hm
      · simp at hm
      · by_contra hc
        simp [hc] at hm
    | some h =>
      refine .inr ⟨h, u, ?_, hd, by simp [poolAllocate, hr]⟩
      simp only [allocChoices, List.mem_append] at hm
      rcases hm with hm | hm
      · simpa using hm
      · split at hm <;> simp at hm

/-- The default pool fails exactly when its free set is empty (R196). -/
theorem poolAllocate_default {s : State} (hp : s.par.poolMayFail = false) :
    (poolAllocate s).1 = Option.none ↔ s.free = [] := by
  rcases poolAllocate_cases s with ⟨u, -, h, hf⟩ | ⟨h, u, hm, -, h'⟩
  · simp [h, hf.resolve_right (by simp [hp])]
  · rw [h']
    constructor
    · intro hc
      simp at hc
    · intro hc
      simp [hc] at hm

/-- The pool may hand out any free handle, whatever choices are left for later (R196). -/
theorem poolAllocate_reaches {s : State} {h : Handle} (hm : h ∈ s.free) (rest : List Nat) :
    ∃ ds, poolAllocate { s with draws := ds } = (some h, handOut h { s with draws := rest }) := by
  obtain ⟨ds, hds⟩ := drawFrom_reaches (xs := allocChoices s) (x := some h) Option.none s (by simp [allocChoices, hm]) rest
  refine ⟨ds, ?_⟩
  unfold poolAllocate
  rw [show allocChoices { s with draws := ds } = allocChoices s from rfl, hds]

/-- The pool that may fail can fail at any allocation (R196). -/
theorem poolAllocate_reaches_none {s : State} (hp : s.par.poolMayFail = true) :
    ∃ ds, poolAllocate { s with draws := ds } = (Option.none, { s with draws := [] }) := by
  obtain ⟨ds, hds⟩ := drawFrom_reaches (xs := allocChoices s) (x := Option.none) Option.none s (by simp [allocChoices, hp]) []
  refine ⟨ds, ?_⟩
  unfold poolAllocate
  rw [show allocChoices { s with draws := ds } = allocChoices s from rfl, hds]

end Sys2Proof.Machine
end

