-- ==== Sys2Proof/Laws/Exchange.lean ====
section
/-! SUPPORT. Laws of the block exchange: what sixteen allocations, a rollback, a forwarding and the other pool clients can do. -/

namespace Sys2Proof.Machine

/-- Only the pool, block storage, EVENTS and the supply of `draw()` differ. -/
def PoolOnly (s t : State) : Prop :=
  t = { s with
    free := t.free
    blk := t.blk
    allocs := t.allocs
    events := t.events
    draws := t.draws
    drawn := t.drawn }

theorem PoolOnly.refl (s : State) : PoolOnly s s := rfl

theorem PoolOnly.trans {s t u : State} (h1 : PoolOnly s t) (h2 : PoolOnly t u) : PoolOnly s u := by
  unfold PoolOnly at *
  rw [h2, h1]

theorem DrawsOnly.poolOnly {s t : State} (h : DrawsOnly s t) : PoolOnly s t := by
  unfold DrawsOnly at h
  rw [h]
  rfl

theorem logEvent_poolOnly (e : Event) (s : State) : PoolOnly s (logEvent e s) := rfl

theorem handOut_poolOnly (h : Handle) (s : State) : PoolOnly s (handOut h s) := rfl

theorem poolRelease_poolOnly (h : Handle) (s : State) : PoolOnly s (poolRelease h s) := by
  unfold poolRelease PoolOnly
  split <;> rfl

/-! ### Releasing -/

theorem poolRelease_rising {s : State} (hr : handlesRising s.free) (h : Handle) :
    handlesRising (poolRelease h s).free := by
  rw [poolRelease_free]
  split
  · exact hr
  · exact insertHandle_rising hr

theorem mem_poolRelease {s : State} {h g : Handle} :
    g ∈ (poolRelease h s).free ↔ (g = h ∧ h ≠ emptyHandle) ∨ g ∈ s.free := by
  rw [poolRelease_free]
  split
  · rename_i he
    simp [he]
  · rename_i he
    simp [mem_insertHandle, he]

theorem rollback_frame (hs : List Handle) (s : State) :
    rollback hs s = { s with free := (rollback hs s).free, events := s.events ++ hs.map .release } := by
  induction hs generalizing s with
  | nil => simp [rollback]
  | cons h hs ih =>
    simp only [rollback]
    rw [ih]
    unfold poolRelease
    split <;> simp [logEvent]

/-- A rollback gives every handle back to the pool. -/
theorem mem_rollback_free {hs : List Handle} {s : State} {g : Handle} :
    g ∈ (rollback hs s).free ↔ (g ∈ hs ∧ g ≠ emptyHandle) ∨ g ∈ s.free := by
  induction hs generalizing s with
  | nil => simp [rollback]
  | cons h hs ih =>
    simp only [rollback, ih, logEvent_free, mem_poolRelease, List.mem_cons]
    constructor
    · rintro (⟨h1, h2⟩ | ⟨rfl, h2⟩ | h1) <;> tauto
    · rintro (⟨rfl | h1, h2⟩ | h1) <;> tauto

theorem rollback_rising {hs : List Handle} {s : State} (hr : handlesRising s.free) :
    handlesRising (rollback hs s).free := by
  induction hs generalizing s with
  | nil => exact hr
  | cons h hs ih => exact ih (by simpa using poolRelease_rising hr h)

theorem rollback_poolOnly (hs : List Handle) (s : State) : PoolOnly s (rollback hs s) := by
  rw [rollback_frame]
  rfl

/-! ### Allocating -/

/-- Taking handles out of the free set one by one. -/
def withoutHandles (free taken : List Handle) : List Handle := free.filter fun h => decide (h ∉ taken)

theorem mem_withoutHandles {free taken : List Handle} {h : Handle} :
    h ∈ withoutHandles free taken ↔ h ∈ free ∧ h ∉ taken := by simp [withoutHandles]

theorem withoutHandles_rising {free taken : List Handle} (h : handlesRising free) :
    handlesRising (withoutHandles free taken) := h.filter _

theorem withoutHandles_cons (free taken : List Handle) (h : Handle) :
    withoutHandles (removeHandle h free) taken = withoutHandles free (h :: taken) := by
  simp only [withoutHandles, removeHandle, List.filter_filter]
  congr 1
  funext g
  by_cases h1 : g = h <;> by_cases h2 : g ∈ taken <;> simp [h1, h2]

/-- What `k` more allocations can do (44_block_exchange.md R161). `taken` are the handles the pool returned: all `k`, free
before and distinct, their contents free values of new hand-outs; or fewer, and then everything acquired goes back. -/
theorem allocateMore_cases (k : Nat) (got : List Handle) (s : State) :
    ∃ (taken : List Handle) (u : State),
      PoolOnly s u ∧ (∀ h ∈ taken, h ∈ s.free) ∧ taken.Nodup ∧ u.free = withoutHandles s.free taken ∧
      (cellsRising s.blk → SamplesRising s → cellsRising u.blk ∧ SamplesRising u) ∧
      (∀ h, h ∉ taken → ∀ f, blkRead u h f = blkRead s h f) ∧
      (∀ h ∈ taken, ∃ n, s.allocs < n ∧ ∀ f, blkRead u h f = Config.freshSample n h f) ∧
      ((taken.length = k ∧ u.events = s.events ++ taken.map .alloc ∧ allocateMore k got s = (some (got ++ taken), u)) ∨
       (taken.length < k ∧ u.events = s.events ++ taken.map .alloc ++ [.allocFail] ∧
         (u.free = [] ∨ s.par.poolMayFail = true) ∧
         allocateMore k got s = (Option.none, rollback (got ++ taken) u))) := by
  induction k generalizing got s with
  | zero =>
    refine ⟨[], s, .refl s, by simp, by simp, by simp [withoutHandles], fun h1 h2 => ⟨h1, h2⟩, fun _ _ _ => rfl, by simp,
      .inl ?_⟩
    simp [allocateMore]
  | succ k ih =>
    rcases poolAllocate_cases s with ⟨u, hd, hp, hf⟩ | ⟨h, u, hm, hd, hp⟩
    · have hblk : u.blk = s.blk := by rw [hd]
      have hfree : u.free = s.free := by rw [hd]
      refine ⟨[], logEvent .allocFail u, hd.poolOnly.trans (logEvent_poolOnly ..), by simp, by simp,
        by simp [withoutHandles, hfree], fun h1 h2 => ?_, fun h _ f => ?_, by simp, .inr ⟨by simp, ?_, ?_, ?_⟩⟩
      · refine ⟨by simpa [hblk] using h1, fun c hc => h2 c (by simpa [hblk] using hc)⟩
      · simp [blkRead, blockOf, hblk]
      · have : u.events = s.events := by rw [hd]
        simp [this]
      · simpa [hfree] using hf
      · simp [allocateMore, hp]
    · have hblk : u.blk = s.blk := by rw [hd]
      have hfree : u.free = s.free := by rw [hd]
      have hpar : u.par = s.par := by rw [hd]
      have hev : u.events = s.events := by rw [hd]
      have hal : u.allocs = s.allocs := by rw [hd]
      obtain ⟨taken, v, hv, hsub, hnd, hfr, hcan, hread, hnew, hcase⟩ :=
        ih (got ++ [h]) (logEvent (.alloc h) (handOut h u))
      have hstart : PoolOnly s (logEvent (.alloc h) (handOut h u)) :=
        (hd.poolOnly.trans (handOut_poolOnly ..)).trans (logEvent_poolOnly ..)
      have hsub' : ∀ g ∈ taken, g ∈ s.free ∧ g ≠ h := fun g hg => by
        have := hsub g hg
        simpa [mem_removeHandle, hfree] using this
      refine ⟨h :: taken, v, hstart.trans hv, ?_, ?_, ?_, ?_, ?_, ?_, ?_⟩
      · intro g hg
        rcases List.mem_cons.1 hg with rfl | hg
        · exact hm
        · exact (hsub' g hg).1
      · exact List.nodup_cons.2 ⟨fun hc => (hsub' h hc).2 rfl, hnd⟩
      · rw [hfr]
        simp only [logEvent_free, handOut_free, hfree]
        exact withoutHandles_cons ..
      · intro h1 h2
        have h1' : cellsRising u.blk := by rw [hblk]; exact h1
        have h2' : SamplesRising u := fun c hc => h2 c (by rw [← hblk]; exact hc)
        have hc := handOut_canonical h1' h2' h
        exact hcan hc.1 hc.2
      · intro g hg f
        have hg' : g ≠ h ∧ g ∉ taken := by simpa using hg
        rw [hread g hg'.2 f]
        have : ¬ h = g := fun e => hg'.1 e.symm
        simp [blkRead, blockOf, cellGet_cellPut, hblk, handle_toNat_inj, this]
      · intro g hg
        rcases List.mem_cons.1 hg with rfl | hg
        · refine ⟨s.allocs + 1, by omega, fun f => ?_⟩
          rw [hread g (fun hc => (hsub' g hc).2 rfl) f, ← hal]
          simp [blkRead, blockOf]
        · obtain ⟨n, hn, hf⟩ := hnew g hg
          exact ⟨n, by simp only [logEvent_allocs, handOut_allocs, hal] at hn; omega, hf⟩
      · rcases hcase with ⟨hl, he, ha⟩ | ⟨hl, he, hf, ha⟩
        · refine .inl ⟨by simp [hl], ?_, ?_⟩
          · rw [he]
            simp [hev]
          · simp [allocateMore, hp, ha]
        · refine .inr ⟨by simp [hl], ?_, ?_, ?_⟩
          · rw [he]
            simp [hev]
          · simpa [hpar] using hf
          · simp [allocateMore, hp, ha]

/-- From a pool with at least `k` free handles `k` allocations succeed by some choices, and the command goes on from there with
any further choices. -/
theorem allocateMore_reaches (k : Nat) (s : State) (hr : handlesRising s.free) (hk : k ≤ s.free.length) :
    ∃ (taken : List Handle) (v : State), taken.length = k ∧ v.par = s.par ∧ v.events = s.events ++ taken.map .alloc ∧
      ∀ more, ∃ ds, ∀ n got, allocateMore (n + k) got { s with draws := ds } =
        allocateMore n (got ++ taken) { v with draws := more } := by
  induction k generalizing s with
  | zero => exact ⟨[], s, rfl, rfl, by simp, fun more => ⟨more, fun n got => by simp⟩⟩
  | succ k ih =>
    obtain ⟨h, hm⟩ : ∃ h, h ∈ s.free := List.exists_mem_of_length_pos (by omega)
    have hlen : (removeHandle h s.free).length = s.free.length - 1 := by
      rw [show removeHandle h s.free = s.free.erase h from ((handlesRising_nodup hr).erase_eq_filter h).symm,
        List.length_erase_of_mem hm]
    obtain ⟨taken, v, hl, hp, hev, hreach⟩ := ih (logEvent (.alloc h) (handOut h s)) (removeHandle_rising hr)
      (by show k ≤ (removeHandle h s.free).length; omega)
    refine ⟨h :: taken, v, by simp [hl], hp, by simp [hev], fun more => ?_⟩
    obtain ⟨ds, hds⟩ := hreach more
    obtain ⟨ds', hds'⟩ := poolAllocate_reaches hm ds
    refine ⟨ds', fun n got => ?_⟩
    rw [← Nat.add_assoc]
    simp only [allocateMore, hds']
    rw [show got ++ h :: taken = (got ++ [h]) ++ taken by simp, ← hds]
    rfl

/-- Sixteen allocations, or any number, succeed by some choices from a pool with enough free handles. -/
theorem allocateMore_canSucceed {k : Nat} {s : State} (hr : handlesRising s.free) (hk : k ≤ s.free.length) :
    ∃ (ds : List Nat) (taken : List Handle) (u : State), taken.length = k ∧
      allocateMore k [] { s with draws := ds } = (some taken, u) := by
  obtain ⟨taken, v, hl, -, -, h⟩ := allocateMore_reaches k s hr hk
  obtain ⟨ds, hds⟩ := h []
  refine ⟨ds, taken, { v with draws := [] }, hl, ?_⟩
  have := hds 0 []
  rw [Nat.zero_add] at this
  rw [this]
  rfl

/-- A pool that may fail can fail after any number of allocations that it has handles for. -/
theorem allocateMore_canFail {k n : Nat} {s : State} (hr : handlesRising s.free) (hk : k ≤ s.free.length) (hn : k < n)
    (hp : s.par.poolMayFail = true) :
    ∃ (ds : List Nat) (taken : List Handle) (u : State), taken.length = k ∧
      u.events = s.events ++ taken.map .alloc ∧
      allocateMore n [] { s with draws := ds } = (Option.none, rollback taken (logEvent .allocFail u)) := by
  obtain ⟨taken, v, hl, hpar, hev, h⟩ := allocateMore_reaches k s hr hk
  obtain ⟨ds, hds⟩ := poolAllocate_reaches_none (s := v) (by rw [hpar]; exact hp)
  obtain ⟨ds', hds'⟩ := h ds
  refine ⟨ds', taken, { v with draws := [] }, hl, hev, ?_⟩
  obtain ⟨j, rfl⟩ : ∃ j, n = j + 1 + k := ⟨n - k - 1, by omega⟩
  rw [hds']
  simp only [allocateMore, hds]
  rfl

/-! ### Forwarding -/

/-- The entries of a forwarding, from channel index `k` on (R165). -/
def forwardEvents (s : State) : Nat → List Handle → List Event
  | _, [] => []
  | k, h :: hs => .transmit k h (blockContents s h) :: .release h :: forwardEvents s (k + 1) hs

theorem blockContents_congr {s t : State} (hb : t.blk = s.blk) (hp : t.par = s.par) (h : Handle) :
    blockContents t h = blockContents s h := by
  simp [blockContents, blkRead, blockOf, hb, hp]

theorem forwardEvents_congr {s t : State} (hb : t.blk = s.blk) (hp : t.par = s.par) (k : Nat) (hs : List Handle) :
    forwardEvents t k hs = forwardEvents s k hs := by
  induction hs generalizing k with
  | nil => rfl
  | cons h hs ih => simp [forwardEvents, ih, blockContents_congr hb hp]

/-- A forwarding appends its entries and releases its blocks; block storage and everything else stay. -/
theorem forwardFrom_frame (k : Nat) (hs : List Handle) (s : State) :
    forwardFrom k hs s =
      { s with free := (forwardFrom k hs s).free, events := s.events ++ forwardEvents s k hs } := by
  induction hs generalizing k s with
  | nil => simp [forwardFrom, forwardEvents]
  | cons h hs ih =>
    simp only [forwardFrom, forwardEvents]
    rw [ih, forwardEvents_congr (s := s) (by simp) (by simp)]
    unfold poolRelease
    split <;> simp [logEvent]

theorem mem_forwardFrom_free {k : Nat} {hs : List Handle} {s : State} {g : Handle} :
    g ∈ (forwardFrom k hs s).free ↔ (g ∈ hs ∧ g ≠ emptyHandle) ∨ g ∈ s.free := by
  induction hs generalizing k s with
  | nil => simp [forwardFrom]
  | cons h hs ih =>
    simp only [forwardFrom, ih, logEvent_free, mem_poolRelease, List.mem_cons]
    constructor
    · rintro (⟨h1, h2⟩ | ⟨rfl, h2⟩ | h1) <;> tauto
    · rintro (⟨rfl | h1, h2⟩ | h1) <;> tauto

theorem forwardFrom_rising {k : Nat} {hs : List Handle} {s : State} (hr : handlesRising s.free) :
    handlesRising (forwardFrom k hs s).free := by
  induction hs generalizing k s with
  | nil => exact hr
  | cons h hs ih => exact ih (by simpa using poolRelease_rising (by simpa using hr) h)

/-! ### The other pool clients -/

theorem clientMove_frame (s : State) (m : ClientMove) : clientMove s m = { s with free := (clientMove s m).free } := by
  cases m with
  | acquire h => rfl
  | giveBack h =>
    simp only [clientMove]
    split <;> rfl

theorem clientMoves_frame (ms : List ClientMove) (s : State) :
    ms.foldl clientMove s = { s with free := (ms.foldl clientMove s).free } := by
  induction ms generalizing s with
  | nil => rfl
  | cons m ms ih =>
    simp only [List.foldl_cons]
    rw [ih, clientMove_frame]

/-- The other clients change the free set only (and their coming moves). -/
theorem clientsAct_frame (s : State) :
    clientsAct s = { s with free := (clientsAct s).free, clients := (clientsAct s).clients } := by
  unfold clientsAct
  split
  · rfl
  · rw [clientMoves_frame]

/-- A client's move keeps a sound free set sound and never frees a handle that the unit owns. -/
theorem clientMove_sound {s : State} {m : ClientMove} (hr : handlesRising s.free) :
    handlesRising (clientMove s m).free ∧
    ∀ h ∈ (clientMove s m).free, h ∈ s.free ∨ (h ∈ s.par.handles ∧ unitOwns s h = false) := by
  cases m with
  | acquire h => exact ⟨removeHandle_rising hr, fun g hg => .inl (mem_removeHandle.1 hg).1⟩
  | giveBack h =>
    unfold clientMove
    simp only
    split
    · rename_i hc
      refine ⟨insertHandle_rising hr, fun g hg => ?_⟩
      rcases mem_insertHandle.1 hg with rfl | hg
      · exact .inr (by simpa using hc)
      · exact .inl hg
    · exact ⟨hr, fun g hg => .inl hg⟩

theorem clientMoves_sound {ms : List ClientMove} {s : State} (hr : handlesRising s.free) :
    handlesRising (ms.foldl clientMove s).free ∧
    ∀ h ∈ (ms.foldl clientMove s).free, h ∈ s.free ∨ (h ∈ s.par.handles ∧ unitOwns s h = false) := by
  induction ms generalizing s with
  | nil => exact ⟨hr, fun g hg => .inl hg⟩
  | cons m ms ih =>
    have h1 := clientMove_sound (m := m) hr
    have h2 := ih h1.1
    refine ⟨h2.1, fun g hg => ?_⟩
    have hown : unitOwns (clientMove s m) g = unitOwns s g := by
      rw [clientMove_frame]
      rfl
    have hpar : (clientMove s m).par = s.par := by rw [clientMove_frame]
    rcases h2.2 g hg with hg | hg
    · exact h1.2 g hg
    · exact .inr (by rw [← hpar, ← hown]; exact hg)

theorem clientsAct_sound {s : State} (hr : handlesRising s.free) :
    handlesRising (clientsAct s).free ∧
    ∀ h ∈ (clientsAct s).free, h ∈ s.free ∨ (h ∈ s.par.handles ∧ unitOwns s h = false) := by
  unfold clientsAct
  split
  · exact ⟨hr, fun g hg => .inl hg⟩
  · rename_i ms rest _
    exact clientMoves_sound (s := { s with clients := rest }) hr

end Sys2Proof.Machine
end

