-- ==== Sys2Proof/Laws/Exec.lean ====
section
/-! SUPPORT. What each command can do, once per command: it faults, with nothing else changed, or it completes in the state
the rule gives. -/

namespace Sys2Proof.Machine

/-- The command raised a fault (60_exceptions.md R211). -/
def FaultedFrom (i : Instr) (s t : State) : Prop := ∃ c, c ≠ FaultCode.none ∧ t = raiseFault c (encodeWord i) s

theorem issuedBy_cases {a : Agent} {i : Instr} {s t : State} {k : Result} (h : issuedBy a i s k = .next t) :
    FaultedFrom i s t ∨ (s.actor = a ∧ k = .next t) := by
  rcases issuedBy_next h with h | ⟨-, h⟩
  · exact .inr h
  · exact .inl ⟨_, by decide, h⟩

theorem require_cases {b : Bool} {c : FaultCode} {i : Instr} {s t : State} {k : Result} (hc : c ≠ .none)
    (h : require b c i s k = .next t) : FaultedFrom i s t ∨ (b = true ∧ k = .next t) := by
  rcases require_next h with h | ⟨-, h⟩
  · exact .inr h
  · exact .inl ⟨_, hc, h⟩

theorem streamingCommand_cases {a : Agent} {i : Instr} {s t : State} {k : Result}
    (h : streamingCommand a i s k = .next t) :
    FaultedFrom i s t ∨ (s.actor = a ∧ s.drv = .streaming ∧ k = .next t) := by
  rcases streamingCommand_next h with h | ⟨-, h⟩ | ⟨-, -, h⟩
  · exact .inr h
  · exact .inl ⟨_, by decide, h⟩
  · exact .inl ⟨_, by decide, h⟩

theorem next_inj {s t : State} (h : (Host.Outcome.next s : Result) = .next t) : s = t := by
  cases h
  rfl

/-- The completions, by the position just reached (41_raw_buffer.md R111). -/
theorem completeAtBoundary_eq (s : State) : completeAtBoundary s = { s with
    irqPending := s.irqPending || decide (s.wpos = s.par.n) || decide (s.wpos = 0)
    events := s.events ++
      (if s.wpos = s.par.n then [.completion .h0] else if s.wpos = 0 then [.completion .h1] else []) } := by
  by_cases h1 : s.wpos = s.par.n
  · simp [completeAtBoundary, h1, complete, logEvent]
  · by_cases h2 : s.wpos = 0
    · have h1' : ¬0 = s.par.n := h2 ▸ h1
      simp [completeAtBoundary, h1', h2, complete, logEvent]
    · simp [completeAtBoundary, h1, h2]

/-- The state after DMA.FRAME of the DMA agent. -/
def afterFrame (fv : Frame) (s : State) : State :=
  { s with
    raw := (dmaWriteFrame (wposAddr s.par s.wpos) fv s).raw
    rawPast := (dmaWriteFrame (wposAddr s.par s.wpos) fv s).rawPast
    wpos := (s.wpos + 1) % (2 * s.par.n)
    irqPending := s.irqPending || decide ((s.wpos + 1) % (2 * s.par.n) = s.par.n) ||
      decide ((s.wpos + 1) % (2 * s.par.n) = 0)
    events := s.events ++
      (if (s.wpos + 1) % (2 * s.par.n) = s.par.n then [.completion .h0]
      else if (s.wpos + 1) % (2 * s.par.n) = 0 then [.completion .h1] else [])
    pcDma := s.pcDma + 1 }

theorem execDmaFrame_ok {fv : Frame} {s : State} (ha : s.actor = .dma) :
    execDmaFrame fv s = .next (afterFrame fv s) := by
  unfold execDmaFrame
  rw [issuedBy_ok ha, completeAtBoundary_eq, advance_dma (by rw [dmaWriteFrame_eq]; exact ha), dmaWriteFrame_eq]
  rfl

theorem execDmaFrame_cases {fv : Frame} {s t : State} (h : execDmaFrame fv s = .next t) :
    FaultedFrom (.dmaFrame fv) s t ∨ (s.actor = .dma ∧ t = afterFrame fv s) :=
  (issuedBy_cases h).imp id fun ⟨ha, _⟩ => ⟨ha, next_inj (h.symm.trans (execDmaFrame_ok ha))⟩

theorem execInit_cases {d : Nat} {tk : Bool} {s t : State} (h : execInit d tk s = .next t) :
    FaultedFrom (.init d tk) s t ∨
    (s.actor = .coop ∧ s.drv = .uninitialized ∧
      t = { s with mode := some (modeOf d), tk := tk, wpos := 0, irqPending := false, drv := .streaming,
                   pcCoop := s.pcCoop + 1 }) := by
  rcases issuedBy_cases h with h | ⟨ha, h⟩
  · exact .inl h
  · refine (require_cases (by decide) h).imp id fun ⟨hd, h⟩ => ⟨ha, by simpa using hd, ?_⟩
    rw [← next_inj h, advance_coop (by exact ha)]

/-- What every transcoder command can do (42_transcoder.md R120). -/
theorem xcCheck_cases {m : BitDepth} {f : Nat} {i : Instr} {s t : State} {k : Half → Result}
    (h : xcCheck m f i s k = .next t) :
    FaultedFrom i s t ∨
    (s.actor = .isr ∧ s.drv = .streaming ∧ s.mode = some m ∧ f < s.par.n ∧ ∃ hf, s.src = some hf ∧
      ((allEmpty s.slot = true ∧ t = { s with pcIsr := s.pcIsr + 1 }) ∨
       (allEmpty s.slot = false ∧ k hf = .next t))) := by
  rcases streamingCommand_cases h with h | ⟨ha, hd, h⟩
  · exact .inl h
  · rcases require_cases (by decide) h with h | ⟨hm, h⟩
    · exact .inl h
    · split at h
      · exact .inl ⟨_, by decide, (next_inj h).symm⟩
      · rename_i hf hsrc
        rcases require_cases (by decide) h with h | ⟨hn, h⟩
        · exact .inl h
        · refine .inr ⟨ha, hd, by simpa using hm, by simpa using hn, hf, hsrc, ?_⟩
          split at h
          · rename_i he
            exact .inl ⟨he, by rw [← next_inj h, advance_isr ha]⟩
          · rename_i he
            exact .inr ⟨by simpa using he, h⟩

/-- Where a transcoder command passes every check (R120). -/
theorem xcCheck_ok {m : BitDepth} {f : Nat} {i : Instr} {s : State} {k : Half → Result} {h : Half} (ha : s.actor = .isr)
    (hd : s.drv = .streaming) (hm : s.mode = some m) (hs : s.src = some h) (hf : f < s.par.n) :
    xcCheck m f i s k = if allEmpty s.slot then .next { s with pcIsr := s.pcIsr + 1 } else k h := by
  unfold xcCheck
  rw [streamingCommand_ok ha hd, show decide (s.mode = some m) = true by simp [hm], require_true]
  split
  · rename_i hn
    rw [hs] at hn
    cases hn
  · rename_i x hx
    rw [hs] at hx
    cases hx
    rw [show decide (f < s.par.n) = true by simp [hf], require_true, advance_isr ha]

theorem transcodeTo_eq {lanes : List Sample} {f : Nat} {s : State} (ha : s.actor = .isr) :
    transcodeTo lanes f s =
      .next { s with blk := (writeLanes s.slot.list lanes f s).blk, pcIsr := s.pcIsr + 1 } := by
  unfold transcodeTo
  rw [writeLanes_eq, advance_isr (by exact ha)]

/-- What the two silent transcoder commands and the two that read RAW do when they complete with SLOT not all EMPTY: `u` is the
state after the read. -/
def Transcoded (s t : State) (lanes : List Sample) (f : Nat) (u : State) : Prop :=
  DrawsOnly s u ∧ t = { u with blk := (writeLanes u.slot.list lanes f u).blk, pcIsr := u.pcIsr + 1 }

theorem execXc16_cases {f : Nat} {s t : State} (h : execXc16 f s = .next t) :
    FaultedFrom (.xc16 f) s t ∨
    (s.actor = .isr ∧ s.drv = .streaming ∧ s.mode = some .bits16 ∧ f < s.par.n ∧ ∃ hf, s.src = some hf ∧
      ((allEmpty s.slot = true ∧ t = { s with pcIsr := s.pcIsr + 1 }) ∨
       (allEmpty s.slot = false ∧ Transcoded s t silentLanes f s))) := by
  refine (xcCheck_cases h).imp id fun ⟨ha, hd, hm, hn, hf, hs, hc⟩ => ⟨ha, hd, hm, hn, hf, hs, hc.imp id ?_⟩
  rintro ⟨he, h⟩
  rw [transcodeTo_eq ha] at h
  exact ⟨he, .refl s, (next_inj h).symm⟩

theorem execXcuns_cases {f : Nat} {s t : State} (h : execXcuns f s = .next t) :
    FaultedFrom (.xcuns f) s t ∨
    (s.actor = .isr ∧ s.drv = .streaming ∧ s.mode = some .unsupported ∧ f < s.par.n ∧ ∃ hf, s.src = some hf ∧
      ((allEmpty s.slot = true ∧ t = { s with pcIsr := s.pcIsr + 1 }) ∨
       (allEmpty s.slot = false ∧ Transcoded s t silentLanes f s))) := by
  refine (xcCheck_cases h).imp id fun ⟨ha, hd, hm, hn, hf, hs, hc⟩ => ⟨ha, hd, hm, hn, hf, hs, hc.imp id ?_⟩
  rintro ⟨he, h⟩
  rw [transcodeTo_eq ha] at h
  exact ⟨he, .refl s, (next_inj h).symm⟩

theorem execXc24_eq (f : Nat) (s : State) :
    execXc24 f s =
      xcCheck .bits24 f (.xc24 f) s fun h => transcodeTo (lanes24 (readFrame h f s).1) f (readFrame h f s).2 := rfl

theorem execXc32_eq (f : Nat) (s : State) :
    execXc32 f s =
      xcCheck .bits32 f (.xc32 f) s fun h => transcodeTo (lanes32 (readFrame h f s).1) f (readFrame h f s).2 := rfl

theorem execXc24_cases {f : Nat} {s t : State} (h : execXc24 f s = .next t) :
    FaultedFrom (.xc24 f) s t ∨
    (s.actor = .isr ∧ s.drv = .streaming ∧ s.mode = some .bits24 ∧ f < s.par.n ∧ ∃ hf, s.src = some hf ∧
      ((allEmpty s.slot = true ∧ t = { s with pcIsr := s.pcIsr + 1 }) ∨
       (allEmpty s.slot = false ∧ Transcoded s t (lanes24 (readFrame hf f s).1) f (readFrame hf f s).2))) := by
  rw [execXc24_eq] at h
  refine (xcCheck_cases h).imp id fun ⟨ha, hd, hm, hn, hf, hs, hc⟩ => ⟨ha, hd, hm, hn, hf, hs, hc.imp id ?_⟩
  rintro ⟨he, h⟩
  have hr := readFrame_drawsOnly hf f s
  rw [transcodeTo_eq (by rw [hr]; exact ha)] at h
  exact ⟨he, hr, (next_inj h).symm⟩

theorem execXc32_cases {f : Nat} {s t : State} (h : execXc32 f s = .next t) :
    FaultedFrom (.xc32 f) s t ∨
    (s.actor = .isr ∧ s.drv = .streaming ∧ s.mode = some .bits32 ∧ f < s.par.n ∧ ∃ hf, s.src = some hf ∧
      ((allEmpty s.slot = true ∧ t = { s with pcIsr := s.pcIsr + 1 }) ∨
       (allEmpty s.slot = false ∧ Transcoded s t (lanes32 (readFrame hf f s).1) f (readFrame hf f s).2))) := by
  rw [execXc32_eq] at h
  refine (xcCheck_cases h).imp id fun ⟨ha, hd, hm, hn, hf, hs, hc⟩ => ⟨ha, hd, hm, hn, hf, hs, hc.imp id ?_⟩
  rintro ⟨he, h⟩
  have hr := readFrame_drawsOnly hf f s
  rw [transcodeTo_eq (by rw [hr]; exact ha)] at h
  exact ⟨he, hr, (next_inj h).symm⟩

theorem execSel_cases {s t : State} (h : execSel s = .next t) :
    FaultedFrom .sel s t ∨
    (s.actor = .isr ∧ s.drv = .streaming ∧
      t = { s with src := some (otherHalf (whalf s)), selAt := s.now, pcIsr := s.pcIsr + 1 }) :=
  (streamingCommand_cases h).imp id fun ⟨ha, hd, h⟩ => ⟨ha, hd, by rw [← next_inj h, advance_isr (by exact ha)]⟩

theorem invalidateHalf_eq (h : Half) (s : State) :
    invalidateHalf h s = { s with lastInv := (invalidateHalf h s).lastInv } := by
  unfold invalidateHalf
  split <;> rfl

theorem execCinv_cases {s t : State} (h : execCinv s = .next t) :
    FaultedFrom .cinv s t ∨
    (s.actor = .isr ∧ s.drv = .streaming ∧ ∃ hf, s.src = some hf ∧
      ((allEmpty s.slot = true ∧ t = { s with pcIsr := s.pcIsr + 1 }) ∨
       (allEmpty s.slot = false ∧
         t = { s with lastInv := (invalidateHalf hf s).lastInv, pcIsr := s.pcIsr + 1 }))) := by
  rcases streamingCommand_cases h with h | ⟨ha, hd, h⟩
  · exact .inl h
  · split at h
    · exact .inl ⟨_, by decide, (next_inj h).symm⟩
    · rename_i hf hsrc
      refine .inr ⟨ha, hd, hf, hsrc, ?_⟩
      split at h
      · rename_i he
        exact .inl ⟨he, by rw [← next_inj h, advance_isr ha]⟩
      · rename_i he
        refine .inr ⟨by simpa using he, ?_⟩
        rw [← next_inj h, invalidateHalf_eq, advance_isr (by exact ha)]

theorem execUpdall_cases {s t : State} (h : execUpdall s = .next t) :
    FaultedFrom .updall s t ∨
    (s.actor = .isr ∧ s.drv = .streaming ∧
      t = if s.tk then { s with updreq := s.updreq + 1, events := s.events ++ [.runAllUpdates], pcIsr := s.pcIsr + 1 }
          else { s with pcIsr := s.pcIsr + 1 }) := by
  refine (streamingCommand_cases h).imp id fun ⟨ha, hd, h⟩ => ⟨ha, hd, ?_⟩
  split at h
  · rename_i hk
    rw [if_pos hk, ← next_inj h, advance_isr (by exact ha)]
    rfl
  · rename_i hk
    rw [if_neg hk, ← next_inj h, advance_isr ha]

theorem execIret_cases {s t : State} (h : execIret s = .next t) :
    FaultedFrom .iret s t ∨
    (s.actor = .isr ∧ s.drv = .streaming ∧ t = { s with inIsr := false, src := Option.none, pcIsr := 0 }) :=
  (streamingCommand_cases h).imp id fun ⟨ha, hd, h⟩ => ⟨ha, hd, (next_inj h).symm⟩

/-- The taken handles are exactly the new bank. -/
theorem bankOf_list {hs : List Handle} (h : hs.length = 16) : (bankOf hs).list = hs := by
  simp [bankOf, ← h]

theorem execAlloc16_cases {s t : State} (h : execAlloc16 s = .next t) :
    FaultedFrom .alloc16 s t ∨
    (s.actor = .coop ∧ s.drv = .streaming ∧ allEmpty s.new = true ∧
      ∃ (taken : List Handle) (u : State),
        PoolOnly s u ∧ (∀ h ∈ taken, h ∈ s.free) ∧ taken.Nodup ∧ u.free = withoutHandles s.free taken ∧
        (cellsRising s.blk → SamplesRising s → cellsRising u.blk ∧ SamplesRising u) ∧
        (∀ h, h ∉ taken → ∀ f, blkRead u h f = blkRead s h f) ∧
        ((taken.length = 16 ∧ u.events = s.events ++ taken.map .alloc ∧
            t = { u with new := bankOf taken, pcCoop := u.pcCoop + 1 }) ∨
         (taken.length < 16 ∧ u.events = s.events ++ taken.map .alloc ++ [.allocFail] ∧
            (u.free = [] ∨ s.par.poolMayFail = true) ∧
            t = { rollback taken u with pcCoop := u.pcCoop + 1 }))) := by
  rcases streamingCommand_cases h with h | ⟨ha, hd, h⟩
  · exact .inl h
  · rcases require_cases (by decide) h with h | ⟨hn, h⟩
    · exact .inl h
    · obtain ⟨taken, u, hu, hsub, hnd, hfr, hcan, hread, -, hcase⟩ := allocateMore_cases 16 [] s
      have hact : u.actor = .coop := by rw [hu]; exact ha
      refine .inr ⟨ha, hd, hn, taken, u, hu, hsub, hnd, hfr, hcan, hread, hcase.imp ?_ ?_⟩
      · rintro ⟨hl, he, hall⟩
        rw [hall] at h
        refine ⟨hl, he, ?_⟩
        rw [← next_inj h, advance_coop (by exact hact)]
        simp
      · rintro ⟨hl, he, hf, hall⟩
        rw [hall] at h
        refine ⟨hl, he, hf, ?_⟩
        rw [← next_inj h, advance_coop (by rw [rollback_frame]; exact hact)]
        have hpc : (rollback taken u).pcCoop = u.pcCoop := by rw [rollback_frame]
        rw [List.nil_append, hpc]

theorem execSwap_cases {s t : State} (h : execSwap s = .next t) :
    FaultedFrom .swap s t ∨
    (s.actor = .coop ∧ s.drv = .streaming ∧ s.irqMask = true ∧ allEmpty s.ret = true ∧
      t = { s with ret := s.slot, slot := s.new, new := Bank.empty, pcCoop := s.pcCoop + 1 }) := by
  rcases streamingCommand_cases h with h | ⟨ha, hd, h⟩
  · exact .inl h
  · rcases require_cases (by decide) h with h | ⟨hm, h⟩
    · exact .inl h
    · refine (require_cases (by decide) h).imp id fun ⟨hr, h⟩ => ⟨ha, hd, hm, hr, ?_⟩
      rw [← next_inj h, advance_coop (by exact ha)]

theorem execFwd_cases {s t : State} (h : execFwd s = .next t) :
    FaultedFrom .fwd s t ∨
    (s.actor = .coop ∧ s.drv = .streaming ∧
      ((allEmpty s.ret = true ∧ t = { s with pcCoop := s.pcCoop + 1 }) ∨
       (allEmpty s.ret = false ∧
         t = { s with
           free := (forwardFrom 0 s.ret.list s).free
           events := s.events ++ forwardEvents s 0 s.ret.list
           ret := Bank.empty
           pcCoop := s.pcCoop + 1 }))) := by
  refine (streamingCommand_cases h).imp id fun ⟨ha, hd, h⟩ => ⟨ha, hd, ?_⟩
  split at h
  · rename_i he
    exact .inl ⟨he, by rw [← next_inj h, advance_coop ha]⟩
  · rename_i he
    refine .inr ⟨by simpa using he, ?_⟩
    rw [← next_inj h, forwardFrom_frame, advance_coop (by exact ha)]

theorem execCsd_cases {s t : State} (h : execCsd s = .next t) :
    FaultedFrom .csd s t ∨
    (s.actor = .coop ∧ s.drv = .streaming ∧ t = { s with irqMask := true, pcCoop := s.pcCoop + 1 }) :=
  (streamingCommand_cases h).imp id fun ⟨ha, hd, h⟩ => ⟨ha, hd, by rw [← next_inj h, advance_coop (by exact ha)]⟩

theorem execCse_cases {s t : State} (h : execCse s = .next t) :
    FaultedFrom .cse s t ∨
    (s.actor = .coop ∧ s.drv = .streaming ∧ t = { s with irqMask := false, pcCoop := s.pcCoop + 1 }) :=
  (streamingCommand_cases h).imp id fun ⟨ha, hd, h⟩ => ⟨ha, hd, by rw [← next_inj h, advance_coop (by exact ha)]⟩

end Sys2Proof.Machine
end

