-- ==== Sys2Proof/Laws/Command.lean ====
section
/-! SUPPORT. What any command can do: it raises a fault, or it completes in one of the ways listed in `Completes`. -/

namespace Sys2Proof.Machine

/-- The transcoder command of a mode, at frame `f` (30_encoding.md R98). -/
def IsTranscoder (i : Instr) (m : BitDepth) (f : Nat) : Prop :=
  (i = .xc16 f ∧ m = .bits16) ∨ (i = .xc24 f ∧ m = .bits24) ∨ (i = .xc32 f ∧ m = .bits32) ∨
    (i = .xcuns f ∧ m = .unsupported)

/-- What command `i` may do when it completes from `s` in `t`. -/
inductive Completes : Instr → State → State → Prop where
  | dmaFrame (fv : Frame) (s : State) (ha : s.actor = .dma) : Completes (.dmaFrame fv) s (afterFrame fv s)
  | init (d : Nat) (tk : Bool) (s : State) (ha : s.actor = .coop) (hd : s.drv = .uninitialized) :
      Completes (.init d tk) s { s with
        mode := some (modeOf d), tk := tk, wpos := 0, irqPending := false, drv := .streaming, pcCoop := s.pcCoop + 1 }
  | transcodeSkip (i : Instr) (m : BitDepth) (f : Nat) (s : State) (hf : Half) (hi : IsTranscoder i m f)
      (ha : s.actor = .isr) (hd : s.drv = .streaming) (hm : s.mode = some m) (hn : f < s.par.n) (hs : s.src = some hf)
      (he : allEmpty s.slot = true) : Completes i s { s with pcIsr := s.pcIsr + 1 }
  | transcode (i : Instr) (m : BitDepth) (f : Nat) (s : State) (hf : Half) (lanes : List Sample) (ds : List Nat) (dn : Nat)
      (hi : IsTranscoder i m f) (ha : s.actor = .isr) (hd : s.drv = .streaming) (hm : s.mode = some m) (hn : f < s.par.n)
      (hs : s.src = some hf) (he : allEmpty s.slot = false)
      (hl : lanes = silentLanes ∨ lanes = lanes24 (readFrame hf f s).1 ∨ lanes = lanes32 (readFrame hf f s).1) :
      Completes i s { s with
        blk := (writeLanes s.slot.list lanes f s).blk, draws := ds, drawn := dn, pcIsr := s.pcIsr + 1 }
  | sel (s : State) (ha : s.actor = .isr) (hd : s.drv = .streaming) :
      Completes .sel s { s with src := some (otherHalf (whalf s)), selAt := s.now, pcIsr := s.pcIsr + 1 }
  | cinvSkip (s : State) (hf : Half) (ha : s.actor = .isr) (hd : s.drv = .streaming) (hs : s.src = some hf)
      (he : allEmpty s.slot = true) : Completes .cinv s { s with pcIsr := s.pcIsr + 1 }
  | cinv (s : State) (hf : Half) (ha : s.actor = .isr) (hd : s.drv = .streaming) (hs : s.src = some hf)
      (he : allEmpty s.slot = false) :
      Completes .cinv s { s with lastInv := (invalidateHalf hf s).lastInv, pcIsr := s.pcIsr + 1 }
  | updall (s : State) (ha : s.actor = .isr) (hd : s.drv = .streaming) (hk : s.tk = true) :
      Completes .updall s { s with
        updreq := s.updreq + 1, events := s.events ++ [.runAllUpdates], pcIsr := s.pcIsr + 1 }
  | updallSkip (s : State) (ha : s.actor = .isr) (hd : s.drv = .streaming) (hk : s.tk = false) :
      Completes .updall s { s with pcIsr := s.pcIsr + 1 }
  | iret (s : State) (ha : s.actor = .isr) (hd : s.drv = .streaming) :
      Completes .iret s { s with inIsr := false, src := Option.none, pcIsr := 0 }
  | alloc16 (s u : State) (taken : List Handle) (ha : s.actor = .coop) (hd : s.drv = .streaming)
      (hnew : allEmpty s.new = true) (hsub : ∀ h ∈ taken, h ∈ s.free) (hnd : taken.Nodup)
      (hfree : u.free = withoutHandles s.free taken)
      (hcan : cellsRising s.blk → SamplesRising s → cellsRising u.blk ∧ SamplesRising u)
      (hread : ∀ h, h ∉ taken → ∀ f, blkRead u h f = blkRead s h f) (hl : taken.length = 16) :
      Completes .alloc16 s { s with
        new := bankOf taken, free := u.free, blk := u.blk, allocs := u.allocs
        events := s.events ++ taken.map .alloc, draws := u.draws, drawn := u.drawn, pcCoop := s.pcCoop + 1 }
  | alloc16Fail (s u : State) (taken : List Handle) (ha : s.actor = .coop) (hd : s.drv = .streaming)
      (hnew : allEmpty s.new = true) (hsub : ∀ h ∈ taken, h ∈ s.free) (hnd : taken.Nodup)
      (hfree : u.free = withoutHandles s.free taken)
      (hcan : cellsRising s.blk → SamplesRising s → cellsRising u.blk ∧ SamplesRising u)
      (hread : ∀ h, h ∉ taken → ∀ f, blkRead u h f = blkRead s h f) (hl : taken.length < 16)
      (hnone : u.free = [] ∨ s.par.poolMayFail = true) :
      Completes .alloc16 s { s with
        free := (rollback taken u).free, blk := u.blk, allocs := u.allocs
        events := s.events ++ taken.map .alloc ++ [.allocFail] ++ taken.map .release
        draws := u.draws, drawn := u.drawn, pcCoop := s.pcCoop + 1 }
  | swap (s : State) (ha : s.actor = .coop) (hd : s.drv = .streaming) (hm : s.irqMask = true)
      (hr : allEmpty s.ret = true) :
      Completes .swap s { s with ret := s.slot, slot := s.new, new := Bank.empty, pcCoop := s.pcCoop + 1 }
  | fwdSkip (s : State) (ha : s.actor = .coop) (hd : s.drv = .streaming) (hr : allEmpty s.ret = true) :
      Completes .fwd s { s with pcCoop := s.pcCoop + 1 }
  | fwd (s : State) (ha : s.actor = .coop) (hd : s.drv = .streaming) (hr : allEmpty s.ret = false) :
      Completes .fwd s { s with
        free := (forwardFrom 0 s.ret.list s).free, events := s.events ++ forwardEvents s 0 s.ret.list
        ret := Bank.empty, pcCoop := s.pcCoop + 1 }
  | csd (s : State) (ha : s.actor = .coop) (hd : s.drv = .streaming) :
      Completes .csd s { s with irqMask := true, pcCoop := s.pcCoop + 1 }
  | cse (s : State) (ha : s.actor = .coop) (hd : s.drv = .streaming) :
      Completes .cse s { s with irqMask := false, pcCoop := s.pcCoop + 1 }

/-- The lanes a command writes depend on block storage only. -/
theorem writeLanes_blk_congr (hs : List Handle) (vs : List Sample) (f : Nat) {s t : State} (h : s.blk = t.blk) :
    (writeLanes hs vs f s).blk = (writeLanes hs vs f t).blk := by
  induction hs generalizing vs s t with
  | nil => simpa [writeLanes] using h
  | cons g hs ih =>
    cases vs with
    | nil => simpa [writeLanes] using h
    | cons v vs =>
      simp only [writeLanes]
      apply ih
      unfold blkWrite blockOf
      split <;> simp [h]

theorem Transcoded.eq {s t u : State} {lanes : List Sample} {f : Nat} (h : Transcoded s t lanes f u) :
    t = { s with
      blk := (writeLanes s.slot.list lanes f s).blk, draws := u.draws, drawn := u.drawn, pcIsr := s.pcIsr + 1 } := by
  obtain ⟨h1, h2⟩ := h
  have hslot : u.slot = s.slot := by rw [h1]
  rw [h2, writeLanes_blk_congr u.slot.list lanes f (t := s) (by rw [h1]), hslot, h1]

/-- Every command that answers a next state raised a fault or completed. -/
theorem exec_cases {i : Instr} {s t : State} (h : exec i s = .next t) : FaultedFrom i s t ∨ Completes i s t := by
  cases i with
  | dmaFrame fv =>
    refine (execDmaFrame_cases h).imp id fun ⟨ha, ht⟩ => ?_
    subst ht
    exact .dmaFrame fv s ha
  | init d tk =>
    refine (execInit_cases h).imp id fun ⟨ha, hd, ht⟩ => ?_
    subst ht
    exact .init d tk s ha hd
  | xc16 f =>
    refine (execXc16_cases h).imp id fun ⟨ha, hd, hm, hn, hf, hs, hc⟩ => ?_
    rcases hc with ⟨he, ht⟩ | ⟨he, ht⟩
    · subst ht
      exact .transcodeSkip _ _ f s hf (.inl ⟨rfl, rfl⟩) ha hd hm hn hs he
    · rw [ht.eq]
      exact .transcode _ _ f s hf _ _ _ (.inl ⟨rfl, rfl⟩) ha hd hm hn hs he (.inl rfl)
  | xc24 f =>
    refine (execXc24_cases h).imp id fun ⟨ha, hd, hm, hn, hf, hs, hc⟩ => ?_
    rcases hc with ⟨he, ht⟩ | ⟨he, ht⟩
    · subst ht
      exact .transcodeSkip _ _ f s hf (.inr (.inl ⟨rfl, rfl⟩)) ha hd hm hn hs he
    · rw [ht.eq]
      exact .transcode _ _ f s hf _ _ _ (.inr (.inl ⟨rfl, rfl⟩)) ha hd hm hn hs he (.inr (.inl rfl))
  | xc32 f =>
    refine (execXc32_cases h).imp id fun ⟨ha, hd, hm, hn, hf, hs, hc⟩ => ?_
    rcases hc with ⟨he, ht⟩ | ⟨he, ht⟩
    · subst ht
      exact .transcodeSkip _ _ f s hf (.inr (.inr (.inl ⟨rfl, rfl⟩))) ha hd hm hn hs he
    · rw [ht.eq]
      exact .transcode _ _ f s hf _ _ _ (.inr (.inr (.inl ⟨rfl, rfl⟩))) ha hd hm hn hs he (.inr (.inr rfl))
  | xcuns f =>
    refine (execXcuns_cases h).imp id fun ⟨ha, hd, hm, hn, hf, hs, hc⟩ => ?_
    rcases hc with ⟨he, ht⟩ | ⟨he, ht⟩
    · subst ht
      exact .transcodeSkip _ _ f s hf (.inr (.inr (.inr ⟨rfl, rfl⟩))) ha hd hm hn hs he
    · rw [ht.eq]
      exact .transcode _ _ f s hf _ _ _ (.inr (.inr (.inr ⟨rfl, rfl⟩))) ha hd hm hn hs he (.inl rfl)
  | sel =>
    refine (execSel_cases h).imp id fun ⟨ha, hd, ht⟩ => ?_
    subst ht
    exact .sel s ha hd
  | cinv =>
    refine (execCinv_cases h).imp id fun ⟨ha, hd, hf, hs, hc⟩ => ?_
    rcases hc with ⟨he, ht⟩ | ⟨he, ht⟩
    · subst ht
      exact .cinvSkip s hf ha hd hs he
    · subst ht
      exact .cinv s hf ha hd hs he
  | updall =>
    refine (execUpdall_cases h).imp id fun ⟨ha, hd, ht⟩ => ?_
    split at ht
    · rename_i hk
      subst ht
      exact .updall s ha hd hk
    · rename_i hk
      subst ht
      exact .updallSkip s ha hd (by simpa using hk)
  | iret =>
    refine (execIret_cases h).imp id fun ⟨ha, hd, ht⟩ => ?_
    subst ht
    exact .iret s ha hd
  | alloc16 =>
    refine (execAlloc16_cases h).imp id fun ⟨ha, hd, hn, taken, u, hu, hsub, hnd, hfr, hcan, hread, hc⟩ => ?_
    rcases hc with ⟨hl, hev, ht⟩ | ⟨hl, hev, hnone, ht⟩
    · have e : t = { s with
          new := bankOf taken, free := u.free, blk := u.blk, allocs := u.allocs
          events := s.events ++ taken.map .alloc, draws := u.draws, drawn := u.drawn, pcCoop := s.pcCoop + 1 } := by
        rw [ht, ← hev, hu]
      rw [e]
      exact .alloc16 s u taken ha hd hn hsub hnd hfr hcan hread hl
    · have e : t = { s with
          free := (rollback taken u).free, blk := u.blk, allocs := u.allocs
          events := s.events ++ taken.map .alloc ++ [.allocFail] ++ taken.map .release
          draws := u.draws, drawn := u.drawn, pcCoop := s.pcCoop + 1 } := by
        have hr := rollback_frame taken u
        unfold PoolOnly at hu
        rw [ht, ← hev]
        generalize rollback taken u = r at hr
        rw [hr, hu]
      rw [e]
      exact .alloc16Fail s u taken ha hd hn hsub hnd hfr hcan hread hl hnone
  | swap =>
    refine (execSwap_cases h).imp id fun ⟨ha, hd, hm, hr, ht⟩ => ?_
    subst ht
    exact .swap s ha hd hm hr
  | fwd =>
    refine (execFwd_cases h).imp id fun ⟨ha, hd, hc⟩ => ?_
    rcases hc with ⟨he, ht⟩ | ⟨he, ht⟩
    · subst ht
      exact .fwdSkip s ha hd he
    · subst ht
      exact .fwd s ha hd he
  | csd =>
    refine (execCsd_cases h).imp id fun ⟨ha, hd, ht⟩ => ?_
    subst ht
    exact .csd s ha hd
  | cse =>
    refine (execCse_cases h).imp id fun ⟨ha, hd, ht⟩ => ?_
    subst ht
    exact .cse s ha hd

/-- What no completing command writes: the fault's record, the parameters and the inputs, and the step's own fields. -/
def CommandKeeps (s t : State) : Prop :=
  t.fault = s.fault ∧ t.fagent = s.fagent ∧ t.fword = s.fword ∧ t.par = s.par ∧ t.prog = s.prog ∧ t.wire = s.wire ∧
  t.endless = s.endless ∧ t.sched = s.sched ∧ t.clients = s.clients ∧ t.now = s.now ∧ t.actor = s.actor

/-- A completing command was issued by its own agent (60_exceptions.md R221) and keeps those fields. -/
theorem Completes.keeps {i : Instr} {s t : State} (h : Completes i s t) :
    s.actor = agentOf (opOf i) ∧ CommandKeeps s t := by
  cases h with
  | transcodeSkip _ m f _ hf hi ha =>
    rcases hi with ⟨rfl, -⟩ | ⟨rfl, -⟩ | ⟨rfl, -⟩ | ⟨rfl, -⟩ <;>
      exact ⟨ha, rfl, rfl, rfl, rfl, rfl, rfl, rfl, rfl, rfl, rfl, rfl⟩
  | transcode _ m f _ hf lanes ds dn hi ha =>
    rcases hi with ⟨rfl, -⟩ | ⟨rfl, -⟩ | ⟨rfl, -⟩ | ⟨rfl, -⟩ <;>
      exact ⟨ha, rfl, rfl, rfl, rfl, rfl, rfl, rfl, rfl, rfl, rfl, rfl⟩
  | _ => exact ⟨by assumption, rfl, rfl, rfl, rfl, rfl, rfl, rfl, rfl, rfl, rfl, rfl⟩

/-- From a state without a fault, a raised fault is recorded and nothing else changes (60_exceptions.md R211). -/
theorem FaultedFrom.eq {i : Instr} {s t : State} (hf : s.fault = .none) (h : FaultedFrom i s t) :
    t.fault ≠ .none ∧ t = { s with fault := t.fault, fagent := some s.actor, fword := encodeWord i } := by
  obtain ⟨c, hc, rfl⟩ := h
  rw [raiseFault_of_none hf]
  exact ⟨hc, rfl⟩

/-- A command that ends without a fault completed. -/
theorem exec_completes {i : Instr} {s t : State} (hf : s.fault = .none) (h : exec i s = .next t) (ht : t.fault = .none) :
    Completes i s t :=
  (exec_cases h).resolve_left fun hc => (hc.eq hf).1 ht

end Sys2Proof.Machine
end

