-- ==== Sys2Proof/Laws/Decode.lean ====
section
/-! SUPPORT. Laws of the opcode map, of decoding and encoding, and of byte order. -/

namespace Sys2Proof

/-! ### Words and their opcode -/

/-- A word is its opcode over its 24 operand bits. -/
theorem word_split (w : Word) : w = opcField w ++ w.extractLsb' 0 24 := by
  have h := BitVec.extractLsb'_append_extractLsb'_eq_extractLsb' (x := w) (start₂ := 24) (start₁ := 0) (len₁ := 24)
    (len₂ := 8) rfl
  unfold opcField
  rw [h]
  exact BitVec.extractLsb'_eq_self.symm

/-- Every mask covers the opcode (30_encoding.md R94). -/
theorem maskOf_split (o : Op) : maskOf o = 0xFF#8 ++ (maskOf o).extractLsb' 0 24 := by
  cases o <;> decide

theorem opcOf_injective {o1 o2 : Op} (h : opcOf o1 = opcOf o2) : o1 = o2 := by
  cases o1 <;> cases o2 <;> first | rfl | (exfalso; revert h; decide)

/-- A word that matches a row has the row's opcode. -/
theorem opcField_of_match {w : Word} {o : Op} (h : w &&& maskOf o = matchOf o) : opcField w = opcOf o := by
  have h2 : (w &&& maskOf o).extractLsb' 24 8 = (matchOf o).extractLsb' 24 8 := by rw [h]
  have hm : (maskOf o).extractLsb' 24 8 = BitVec.allOnes 8 := by cases o <;> decide
  have ho : (matchOf o).extractLsb' 24 8 = opcOf o := by cases o <;> decide
  rw [ho, BitVec.extractLsb'_and, hm, BitVec.and_allOnes] at h2
  exact h2

/-! ### Decoding -/

theorem mem_allOps (o : Op) : o ∈ allOps := by cases o <;> decide

/-- The row found is the row that matches; there is at most one. -/
theorem decodeOp_eq_some {w : Word} {o : Op} : decodeOp w = some o ↔ w &&& maskOf o = matchOf o := by
  constructor
  · intro h
    simpa using List.find?_some h
  · intro h
    have hs : (decodeOp w).isSome := by
      unfold decodeOp
      rw [List.find?_isSome]
      exact ⟨o, mem_allOps o, by simpa using h⟩
    obtain ⟨o', ho'⟩ := Option.isSome_iff_exists.1 hs
    have h1 : w &&& maskOf o' = matchOf o' := by simpa using List.find?_some ho'
    rw [ho', opcOf_injective ((opcField_of_match h1).symm.trans (opcField_of_match h))]

@[simp] theorem opOf_assemble (o : Op) (c : Command) : opOf (assemble o c) = o := by cases o <;> rfl

theorem decode_eq_ok {c : Command} {i : Instr} :
    decode c = .ok i ↔ ∃ o, decodeOp c.word = some o ∧ i = assemble o c := by
  unfold decode
  cases decodeOp c.word with
  | none =>
    simp only [reduceCtorEq, false_and, exists_false, iff_false]
    split <;> simp
  | some o => simp [eq_comm]

theorem decode_eq_error {c : Command} : (∃ e, decode c = .error e) ↔ decodeOp c.word = none := by
  unfold decode
  cases decodeOp c.word with
  | none =>
    simp only [iff_true]
    split <;> exact ⟨_, rfl⟩
  | some o => simp

/-! ### Operand fields -/

/-- An encoded word matches its own row. -/
theorem encodeWord_match (i : Instr) : encodeWord i &&& maskOf (opOf i) = matchOf (opOf i) := by
  have hx : ∀ f : Nat, (0#8 ++ BitVec.ofNat 16 f : BitVec 24) &&& (maskOf .xc16).extractLsb' 0 24 = 0#24 := by
    intro f
    rw [show (maskOf .xc16).extractLsb' 0 24 = 0xFF#8 ++ 0#16 by decide, BitVec.and_append]
    simp
  rw [maskOf_split]
  unfold encodeWord matchOf
  rw [BitVec.and_append, show (0xFF#8) = BitVec.allOnes 8 by decide, BitVec.and_allOnes]
  congr 1
  cases i with
  | init d tk =>
    have h : (maskOf (opOf (Instr.init d tk))).extractLsb' 0 24 = 0x7FFF#15 ++ 0#1 ++ 0#8 := by
      show (maskOf .init).extractLsb' 0 24 = _
      decide
    rw [h, show operandBits (Instr.init d tk) = 0#15 ++ BitVec.ofBool tk ++ BitVec.ofNat 8 d from rfl,
      BitVec.and_append, BitVec.and_append]
    simp
  | xc16 f => exact hx f
  | xc24 f => exact hx f
  | xc32 f => exact hx f
  | xcuns f => exact hx f
  | dmaFrame fv =>
    show 0#24 &&& (maskOf .dmaFrame).extractLsb' 0 24 = 0#24
    decide
  | _ => decide

/-! ### Byte order -/

/-- Reassembling little-endian bytes adds up their weights. -/
theorem leBytes_weights {w : Nat} (v : BitVec w) (k : Nat) : ∀ j,
    (((List.range' j k).map fun b => v.extractLsb' (8 * b) 8).foldr (fun b acc => b.toNat + 256 * acc) 0) =
      (v.toNat / 2 ^ (8 * j)) % 2 ^ (8 * k) := by
  induction k with
  | zero =>
    intro j
    simp [Nat.mod_one]
  | succ k ih =>
    intro j
    have hdiv : v.toNat / 2 ^ (8 * (j + 1)) = v.toNat / 2 ^ (8 * j) / 256 := by
      rw [Nat.div_div_eq_div_mul, show 8 * (j + 1) = 8 * j + 8 by ring, pow_add]
      norm_num
    rw [List.range'_succ, List.map_cons, List.foldr_cons, ih, BitVec.extractLsb'_toNat, Nat.shiftRight_eq_div_pow, hdiv,
      show 8 * (k + 1) = 8 + 8 * k by ring, pow_add, Nat.mod_mul]
    norm_num

/-- Little-endian bytes reassemble to the value. -/
theorem ofLeBytes_leBytes {w k : Nat} (v : BitVec w) (h : w ≤ 8 * k) : ofLeBytes w (leBytes k v) = v := by
  unfold ofLeBytes leBytes
  rw [List.range_eq_range', leBytes_weights v k 0]
  apply BitVec.eq_of_toNat_eq
  have hlt : v.toNat < 2 ^ (8 * k) := lt_of_lt_of_le v.isLt (Nat.pow_le_pow_right (by decide) h)
  simp [Nat.mod_eq_of_lt hlt]

/-- A stored word's four bytes are the word's (30_encoding.md R90). -/
theorem wordOfBytes_leBytes (w : Word) :
    ∃ b0 b1 b2 b3, leBytes 4 w = [b0, b1, b2, b3] ∧ wordOfBytes b0 b1 b2 b3 = w := by
  refine ⟨w.extractLsb' 0 8, w.extractLsb' 8 8, w.extractLsb' 16 8, w.extractLsb' 24 8, rfl, ?_⟩
  unfold wordOfBytes
  rw [BitVec.extractLsb'_append_extractLsb'_eq_extractLsb' (start₁ := 16) (len₁ := 8) rfl,
    BitVec.extractLsb'_append_extractLsb'_eq_extractLsb' (start₁ := 8) (len₁ := 8) rfl,
    BitVec.extractLsb'_append_extractLsb'_eq_extractLsb' (start₁ := 0) (len₁ := 8) rfl]
  exact BitVec.extractLsb'_eq_self

end Sys2Proof
end

