-- ==== Sys2Proof/Laws/PerInstr.lean ====
section
/-! SUPPORT. Per-constructor statements. `RowMatch`: the word that encodes a command matches the command's row of
30_encoding.md R93, whatever its operands. -/

namespace Sys2Proof.Laws.RowMatch

/-- `(w AND mask) = match` for the command's word and its row (R94). -/
def Statement (i : Instr) : Prop := encodeWord i &&& maskOf (opOf i) = matchOf (opOf i)

theorem dmaFrame (fv : Frame) : Statement (.dmaFrame fv) := encodeWord_match _
theorem init (depth : Nat) (tk : Bool) : Statement (.init depth tk) := encodeWord_match _
theorem xc16 (f : Nat) : Statement (.xc16 f) := encodeWord_match _
theorem xc24 (f : Nat) : Statement (.xc24 f) := encodeWord_match _
theorem xc32 (f : Nat) : Statement (.xc32 f) := encodeWord_match _
theorem xcuns (f : Nat) : Statement (.xcuns f) := encodeWord_match _
theorem sel : Statement .sel := encodeWord_match _
theorem cinv : Statement .cinv := encodeWord_match _
theorem updall : Statement .updall := encodeWord_match _
theorem iret : Statement .iret := encodeWord_match _
theorem alloc16 : Statement .alloc16 := encodeWord_match _
theorem swap : Statement .swap := encodeWord_match _
theorem fwd : Statement .fwd := encodeWord_match _
theorem csd : Statement .csd := encodeWord_match _
theorem cse : Statement .cse := encodeWord_match _

end Sys2Proof.Laws.RowMatch
end

