-- ==== Sys2Proof/Laws/Step.lean ====
section
/-! SUPPORT. What one step can do: which agent takes it, in what state, and interrupt entry, a command or an illegal word. -/

namespace Sys2Proof.Machine

theorem mem_enabledAgents {a : Agent} {s : State} : a ∈ enabledAgents s ↔ enabled a s = true := by
  cases a <;> simp [enabledAgents]

theorem firstEnabled_mem {agents sched rest : List Agent} {a : Agent}
    (h : firstEnabled agents sched = some (a, rest)) : a ∈ agents := by
  induction sched with
  | nil => simp [firstEnabled] at h
  | cons b sched ih =>
    simp only [firstEnabled] at h
    split at h
    · rename_i hb
      simp only [Option.some.injEq, Prod.mk.injEq] at h
      exact h.1 ▸ hb
    · exact ih h

/-- Only the schedule and the supply of `draw()` differ. -/
def ChoiceOnly (s t : State) : Prop := t = { s with sched := t.sched, draws := t.draws, drawn := t.drawn }

/-- The chosen agent is enabled, and choosing changes the schedule and the supply of `draw()` only (10_state.md R21). -/
theorem chooseAgent_some {s t : State} {a : Agent} (h : chooseAgent s = some (a, t)) :
    enabled a s = true ∧ ChoiceOnly s t := by
  unfold chooseAgent at h
  split at h
  · rename_i b rest hf
    simp only [Option.some.injEq, Prod.mk.injEq] at h
    obtain ⟨rfl, rfl⟩ := h
    exact ⟨mem_enabledAgents.1 (firstEnabled_mem hf), rfl⟩
  · split at h
    · simp at h
    · rename_i b others he
      have hm : (drawFrom (b :: others) b { s with sched := [] }).1 ∈ b :: others := drawFrom_mem _ _ (by simp)
      have hd := drawFrom_drawsOnly (b :: others) b { s with sched := [] }
      simp only [Option.some.injEq] at h
      rw [h] at hm hd
      refine ⟨mem_enabledAgents.1 (he ▸ hm), ?_⟩
      unfold DrawsOnly at hd
      change t = _ at hd
      unfold ChoiceOnly
      rw [hd]

/-- No agent is chosen exactly when none is enabled. -/
theorem chooseAgent_none {s : State} : chooseAgent s = Option.none ↔ ∀ a, enabled a s = false := by
  constructor
  · intro h a
    unfold chooseAgent at h
    split at h
    · simp at h
    · split at h
      · rename_i he
        have : a ∉ enabledAgents s := by simp [he]
        simpa [mem_enabledAgents] using this
      · simp at h
  · intro h
    cases hc : chooseAgent s with
    | none => rfl
    | some p =>
      obtain ⟨a, t⟩ := p
      have := (chooseAgent_some hc).1
      simp [h a] at this

theorem enabled_nextCommand_dma {s : State} (h : enabled .dma s = true) :
    s.fault = .none ∧ s.drv = .streaming ∧ ∃ fv, wireAt s s.pcDma = some fv := by
  simpa [enabled, nextCommand, Option.isSome_iff_exists] using h

theorem enabled_coop {s : State} (h : enabled .coop s = true) :
    s.fault = .none ∧ s.inIsr = false ∧ ∃ c, s.prog[s.pcCoop]? = some c := by
  simpa [enabled, nextCommand, Option.isSome_iff_exists] using h

theorem enabled_isr {s : State} (h : enabled .isr s = true) :
    s.fault = .none ∧ ((s.inIsr = true ∧ ∃ c, nextCommand .isr s = some c) ∨
      (s.inIsr = false ∧ s.irqPending = true ∧ s.irqMask = false)) := by
  simpa [enabled, entryEnabled, Option.isSome_iff_exists, and_assoc] using h

/-- The agent's next command is decoded and runs, or its word is illegal. -/
theorem fetchFor_cases (a : Agent) (s : State) :
    (nextCommand a s = Option.none ∧ fetchFor a s = .stop .noAgentEnabled) ∨
    ∃ c, nextCommand a s = some c ∧
      ((∃ i, decode c = .ok i ∧ fetchFor a s = .command i s) ∨
       (∃ e, decode c = .error e ∧ fetchFor a s = .illegal (raiseFault .illegalCommand c.word s))) := by
  unfold fetchFor
  cases hc : nextCommand a s with
  | none => exact .inl ⟨rfl, rfl⟩
  | some c =>
    refine .inr ⟨c, rfl, ?_⟩
    cases hd : decode c with
    | ok i => exact .inl ⟨i, rfl, by simp [hd]⟩
    | error e => exact .inr ⟨e, rfl, by simp [hd]⟩

/-- The state a step's command runs in: the choice is made, the step has begun, and before a COOP command the other pool
clients have acted. -/
def stepStart (a : Agent) (t : State) : State :=
  match a with
  | .coop => clientsAct (beginStep .coop t)
  | .isr => beginStep .isr t
  | .dma => beginStep .dma t

/-- What a step that answers a next state did (10_state.md R21): an enabled agent was chosen, and it entered the handler, or
ran its next command, or issued an illegal word. -/
theorem step_cases {s t : State} (h : step s = .next t) :
    ∃ (a : Agent) (u : State), enabled a s = true ∧ chooseAgent s = some (a, u) ∧ ChoiceOnly s u ∧
      ((a = .isr ∧ s.inIsr = false ∧ t = interruptEntry (beginStep .isr u)) ∨
       ((a = .isr → s.inIsr = true) ∧ ∃ c, nextCommand a (stepStart a u) = some c ∧
         ((∃ i, decode c = .ok i ∧ exec i (stepStart a u) = .next t) ∨
          (∃ e, decode c = .error e ∧ t = raiseFault .illegalCommand c.word (stepStart a u))))) := by
  unfold step at h
  unfold nextTurn at h
  cases hc : chooseAgent s with
  | none => simp [hc] at h
  | some p =>
    obtain ⟨a, u⟩ := p
    obtain ⟨he, hu⟩ := chooseAgent_some hc
    refine ⟨a, u, he, rfl, hu, ?_⟩
    simp only [hc] at h
    have hin : u.inIsr = s.inIsr := by rw [hu]
    have key : ∀ v : State, (match fetchFor a v with
        | .entry t => (Host.Outcome.next t : Result)
        | .command i t => exec i t
        | .illegal t => .next t
        | .stop r => .fault r) = .next t →
        ∃ c, nextCommand a v = some c ∧
          ((∃ i, decode c = .ok i ∧ exec i v = .next t) ∨
           (∃ e, decode c = .error e ∧ t = raiseFault .illegalCommand c.word v)) := by
      intro v hv
      rcases fetchFor_cases a v with ⟨-, hf⟩ | ⟨c, hn, ⟨i, hd, hf⟩ | ⟨e, hd, hf⟩⟩
      · simp [hf] at hv
      · rw [hf] at hv
        exact ⟨c, hn, .inl ⟨i, hd, hv⟩⟩
      · rw [hf] at hv
        exact ⟨c, hn, .inr ⟨e, hd, (next_inj hv).symm⟩⟩
    cases a with
    | coop => exact .inr ⟨by simp, key _ h⟩
    | dma => exact .inr ⟨by simp, key _ h⟩
    | isr =>
      simp only [turnOf] at h
      by_cases hi : u.inIsr = true
      · rw [if_pos hi] at h
        exact .inr ⟨fun _ => hin ▸ hi, key _ h⟩
      · rw [if_neg hi] at h
        exact .inl ⟨rfl, by simpa [hin] using hi, (next_inj h).symm⟩

/-- The state a command runs in differs from the one before the step in these fields only. -/
theorem stepStart_frame {a : Agent} {s u : State} (h : ChoiceOnly s u) :
    stepStart a u = { s with
      sched := (stepStart a u).sched
      draws := (stepStart a u).draws
      drawn := (stepStart a u).drawn
      actor := a
      now := s.now + 1
      free := (stepStart a u).free
      clients := (stepStart a u).clients } := by
  unfold ChoiceOnly at h
  cases a with
  | coop =>
    simp only [stepStart]
    rw [clientsAct_frame, h]
    rfl
  | isr =>
    simp only [stepStart]
    rw [h]
    rfl
  | dma =>
    simp only [stepStart]
    rw [h]
    rfl

/-- Every command that has a word answers a next state: a fault is recorded in one (60_exceptions.md R211). -/
theorem exec_next (i : Instr) (s : State) : ∃ t, exec i s = .next t := by
  have hreq : ∀ (b : Bool) (c : FaultCode) (i : Instr) (k : Result), (∃ t, k = .next t) →
      ∃ t, require b c i s k = .next t := by
    intro b c i k hk
    cases b with
    | true => exact hk
    | false => exact ⟨_, rfl⟩
  have hstr : ∀ (a : Agent) (i : Instr) (k : Result), (∃ t, k = .next t) → ∃ t, streamingCommand a i s k = .next t :=
    fun a i k hk => hreq _ _ _ _ (hreq _ _ _ _ hk)
  have hxc : ∀ (m : BitDepth) (f : Nat) (i : Instr) (k : Half → Result), (∀ h, ∃ t, k h = .next t) →
      ∃ t, xcCheck m f i s k = .next t := by
    intro m f i k hk
    refine hstr _ _ _ (hreq _ _ _ _ ?_)
    split
    · exact ⟨_, rfl⟩
    · refine hreq _ _ _ _ ?_
      split
      · exact ⟨_, rfl⟩
      · exact hk _
  cases i with
  | dmaFrame fv => exact hreq _ _ _ _ ⟨_, rfl⟩
  | init d tk => exact hreq _ _ _ _ (hreq _ _ _ _ ⟨_, rfl⟩)
  | xc16 f => exact hxc _ _ _ _ fun h => ⟨_, rfl⟩
  | xc24 f => exact hxc _ _ _ _ fun h => ⟨_, rfl⟩
  | xc32 f => exact hxc _ _ _ _ fun h => ⟨_, rfl⟩
  | xcuns f => exact hxc _ _ _ _ fun h => ⟨_, rfl⟩
  | sel => exact hstr _ _ _ ⟨_, rfl⟩
  | cinv =>
    refine hstr _ _ _ ?_
    split
    · exact ⟨_, rfl⟩
    · split <;> exact ⟨_, rfl⟩
  | updall =>
    refine hstr _ _ _ ?_
    split <;> exact ⟨_, rfl⟩
  | iret => exact hstr _ _ _ ⟨_, rfl⟩
  | alloc16 =>
    refine hstr _ _ _ (hreq _ _ _ _ ?_)
    split <;> exact ⟨_, rfl⟩
  | swap => exact hstr _ _ _ (hreq _ _ _ _ (hreq _ _ _ _ ⟨_, rfl⟩))
  | fwd =>
    refine hstr _ _ _ ?_
    split <;> exact ⟨_, rfl⟩
  | csd => exact hstr _ _ _ ⟨_, rfl⟩
  | cse => exact hstr _ _ _ ⟨_, rfl⟩

/-- A listed choice of an enabled agent is taken. -/
theorem chooseAgent_of_head {s : State} {a : Agent} {rest : List Agent} (h : s.sched = a :: rest)
    (he : enabled a s = true) : chooseAgent s = some (a, { s with sched := rest }) := by
  simp [chooseAgent, h, firstEnabled, mem_enabledAgents.2 he]

/-- A chosen agent steps: its next command runs, or its word faults, or it enters the handler. -/
theorem step_of_chosen {s u : State} {a : Agent} (h : chooseAgent s = some (a, u)) : ∃ t, step s = .next t := by
  obtain ⟨he, hu⟩ := chooseAgent_some h
  have key : ∀ v : State, (nextCommand a v).isSome = true → ∃ t, (match fetchFor a v with
      | .entry t => (Host.Outcome.next t : Result)
      | .command i t => exec i t
      | .illegal t => .next t
      | .stop r => .fault r) = .next t := by
    intro v hv
    rcases fetchFor_cases a v with ⟨h, -⟩ | ⟨c, -, ⟨i, -, hf⟩ | ⟨e, -, hf⟩⟩
    · simp [h] at hv
    · rw [hf]
      exact exec_next i v
    · rw [hf]
      exact ⟨_, rfl⟩
  unfold step nextTurn
  rw [h]
  cases a with
  | coop =>
    obtain ⟨-, -, c, hc⟩ := enabled_coop he
    refine key _ ?_
    show (nextCommand .coop (stepStart .coop u)).isSome = true
    rw [stepStart_frame (a := .coop) hu]
    show (s.prog[s.pcCoop]?).isSome = true
    simp [hc]
  | dma =>
    obtain ⟨-, -, c, hc⟩ := enabled_nextCommand_dma he
    refine key _ ?_
    show (nextCommand .dma (stepStart .dma u)).isSome = true
    rw [stepStart_frame (a := .dma) hu]
    show ((wireAt s s.pcDma).map _).isSome = true
    simp [hc]
  | isr =>
    obtain ⟨-, h⟩ := enabled_isr he
    have hin : u.inIsr = s.inIsr := by rw [hu]
    simp only [turnOf]
    by_cases hi : u.inIsr = true
    · rw [if_pos hi]
      rcases h with ⟨-, c, hc⟩ | ⟨h, -⟩
      · refine key _ ?_
        show (nextCommand .isr (stepStart .isr u)).isSome = true
        rw [stepStart_frame (a := .isr) hu]
        show (nextCommand .isr s).isSome = true
        simp [hc]
      · rw [hin] at hi
        simp [hi] at h
    · rw [if_neg hi]
      exact ⟨_, rfl⟩

/-- The machine has no step where no agent is enabled, and a next state everywhere else (10_state.md R21). -/
theorem step_total (s : State) :
    ((∀ a, enabled a s = false) ∧ step s = .fault (stopReason s)) ∨
    ((∃ a, enabled a s = true) ∧ ∃ t, step s = .next t) := by
  cases h : chooseAgent s with
  | none => exact .inl ⟨chooseAgent_none.1 h, by simp [step, nextTurn, h]⟩
  | some p => exact .inr ⟨⟨_, (chooseAgent_some h).1⟩, step_of_chosen h⟩

/-- A transitive relation that starting a step, raising a fault, completing a command and entering the handler keep is kept by
every step. -/
theorem step_keeps (R : State → State → Prop) (trans : ∀ a b c, R a b → R b c → R a c)
    (start : ∀ s u a, ChoiceOnly s u → R s (stepStart a u)) (fault : ∀ s c w, R s (raiseFault c w s))
    (command : ∀ i s t, Completes i s t → R s t) (entry : ∀ s, R s (interruptEntry s)) {s t : State}
    (h : step s = .next t) : R s t := by
  obtain ⟨a, u, -, -, hu, hc⟩ := step_cases h
  rcases hc with ⟨rfl, -, rfl⟩ | ⟨-, c, -, ⟨i, -, hx⟩ | ⟨e, -, rfl⟩⟩
  · exact trans _ _ _ (start s u .isr hu) (entry _)
  · refine trans _ _ _ (start s u a hu) ?_
    rcases exec_cases hx with ⟨c, -, rfl⟩ | hx
    · exact fault _ _ _
    · exact command _ _ _ hx
  · exact trans _ _ _ (start s u a hu) (fault _ _ _)

/-- Nothing is recorded yet in the state a step's command runs in. -/
theorem stepStart_fault {s u : State} {a : Agent} (he : enabled a s = true) (hu : ChoiceOnly s u) :
    (stepStart a u).fault = .none := by
  rw [stepStart_frame hu]
  show s.fault = .none
  cases a with
  | coop => exact (enabled_coop he).1
  | isr => exact (enabled_isr he).1
  | dma => exact (enabled_nextCommand_dma he).1

/-- The commands of the handler body, by place (43_interrupt_handler.md R140). -/
theorem handlerBody_cases {m : BitDepth} {n k : Nat} {i : Instr} (h : (handlerBody m n)[k]? = some i) :
    (k = 0 ∧ i = .sel) ∨ (k = 1 ∧ i = .cinv) ∨ (2 ≤ k ∧ k < n + 2 ∧ i = xcOf m (k - 2)) ∨ (k = n + 2 ∧ i = .updall) ∨
      (k = n + 3 ∧ i = .iret) := by
  unfold handlerBody xcall at h
  rw [List.append_assoc] at h
  match k, h with
  | 0, h =>
    simp at h
    exact .inl ⟨rfl, h.symm⟩
  | 1, h =>
    simp at h
    exact .inr (.inl ⟨rfl, h.symm⟩)
  | k + 2, h =>
    simp only [List.getElem?_append, List.length_cons, List.length_nil, List.length_map, List.length_range] at h
    rw [if_neg (by omega)] at h
    split at h
    · rename_i hk
      refine .inr (.inr (.inl ⟨by omega, by omega, ?_⟩))
      have hk' : k < n := by omega
      simpa [hk'] using h.symm
    · rename_i hk
      obtain ⟨j, rfl⟩ : ∃ j, k = n + j := ⟨k - n, by omega⟩
      have hj : n + j + 2 - (0 + 1 + 1) - n = j := by omega
      rw [hj] at h
      match j, h with
      | 0, h => exact .inr (.inr (.inr (.inl ⟨by omega, by simpa using h.symm⟩)))
      | 1, h => exact .inr (.inr (.inr (.inr ⟨by omega, by simpa using h.symm⟩)))
      | j + 2, h => simp at h

/-- Every command of the handler body is well-formed. -/
theorem handlerBody_wellFormed {m : BitDepth} {n k : Nat} {i : Instr} (hn : n ≤ 65536)
    (h : (handlerBody m n)[k]? = some i) : i.wellFormed = true := by
  rcases handlerBody_cases h with ⟨-, rfl⟩ | ⟨-, rfl⟩ | ⟨h1, h2, rfl⟩ | ⟨-, rfl⟩ | ⟨-, rfl⟩
  · rfl
  · rfl
  · cases m <;> simp only [xcOf, Instr.wellFormed, decide_eq_true_eq] <;> omega
  · rfl
  · rfl

end Sys2Proof.Machine
end

