-- ==== Sys2Proof/Machine/Assembler.lean ====
section
/-! DEFINITION. The assembler's text (30_encoding.md R97) and its pseudo-instructions (R98 to R100). No step reads it: it says
which commands a listing stands for. What R97 leaves open of the text (white space, a line with a comment only) is log entry 21. -/

namespace Sys2Proof.Machine

/-- A token read so far, its characters reversed; none if there are none. -/
def flushToken (acc : List Char) : List (List Char) := if acc.isEmpty then [] else [acc.reverse]

/-- The tokens of a line: runs of characters between blanks, a comma being a token of its own. -/
def tokensFrom : List Char → List Char → List (List Char)
  | acc, [] => flushToken acc
  | acc, c :: cs =>
    if c = ' ' || c = '\t' then flushToken acc ++ tokensFrom [] cs
    else if c = ',' then flushToken acc ++ [','] :: tokensFrom [] cs
    else tokensFrom (c :: acc) cs

/-- "A `;` starts a comment" and mnemonics are case-insensitive (R97). -/
def tokensOf (line : List Char) : List (List Char) :=
  tokensFrom [] ((line.takeWhile fun c => c != ';').map Char.toLower)

/-- The value of a digit in either base; the caller bounds it. -/
def digitValue (c : Char) : Option Nat :=
  if '0'.toNat ≤ c.toNat ∧ c.toNat ≤ '9'.toNat then some (c.toNat - '0'.toNat)
  else if 'a'.toNat ≤ c.toNat ∧ c.toNat ≤ 'f'.toNat then some (c.toNat - 'a'.toNat + 10)
  else Option.none

/-- The number that digits write in a base, after the value `acc`. -/
def digitsValue (base : Nat) : Nat → List Char → Option Nat
  | acc, [] => some acc
  | acc, c :: cs =>
    match digitValue c with
    | some d => if d < base then digitsValue base (base * acc + d) cs else Option.none
    | Option.none => Option.none

/-- A decimal or `0x` hexadecimal integer below `bound`; one out of range is an assembly error (R97). -/
def parseNumber (bound : Nat) (t : List Char) : Option Nat :=
  let value := match t with
    | '0' :: 'x' :: c :: cs => digitsValue 16 0 (c :: cs)
    | c :: cs => digitsValue 10 0 (c :: cs)
    | [] => Option.none
  match value with
  | some v => if v < bound then some v else Option.none
  | Option.none => Option.none

/-- A frame payload: `0x` and exactly 64 hexadecimal digits, most significant first (R97). -/
def parseFrame (t : List Char) : Option Frame :=
  match t with
  | '0' :: 'x' :: ds => if ds.length = 64 then (digitsValue 16 0 ds).map (BitVec.ofNat 256) else Option.none
  | _ => Option.none

/-- The commands of a mnemonic or pseudo-instruction that takes no operand; `m` and `n` are the mode and N for `xcall` and
`isr` (R98 to R100). -/
def parseBare (m : BitDepth) (n : Nat) (t : List Char) : Option (List Instr) :=
  if t = "sel".toList then some [.sel]
  else if t = "cinv".toList then some [.cinv]
  else if t = "updall".toList then some [.updall]
  else if t = "iret".toList then some [.iret]
  else if t = "alloc16".toList then some [.alloc16]
  else if t = "swap".toList then some [.swap]
  else if t = "fwd".toList then some [.fwd]
  else if t = "csd".toList then some [.csd]
  else if t = "cse".toList then some [.cse]
  else if t = "update".toList then some updateCycle
  else if t = "xcall".toList then some (xcall m n)
  else if t = "isr".toList then some (handlerBody m n)
  else Option.none

/-- The command of a mnemonic with one operand (R97). -/
def parseUnary (t x : List Char) : Option Instr :=
  if t = "init".toList then (parseNumber 256 x).map fun d => .init d false
  else if t = "xc16".toList then (parseNumber 65536 x).map .xc16
  else if t = "xc24".toList then (parseNumber 65536 x).map .xc24
  else if t = "xc32".toList then (parseNumber 65536 x).map .xc32
  else if t = "xcuns".toList then (parseNumber 65536 x).map .xcuns
  else if t = "dma.frame".toList then (parseFrame x).map .dmaFrame
  else Option.none

/-- The commands of one line of a listing, or an assembly error (R97). -/
def assembleLine (m : BitDepth) (n : Nat) (line : List Char) : Option (List Instr) :=
  match tokensOf line with
  | [] => some []
  | [t] => parseBare m n t
  | [t, x] => (parseUnary t x).map fun i => [i]
  | [t, x, c, k] =>
    if t = "init".toList ∧ c = [','] ∧ k = "tk".toList then (parseNumber 256 x).map fun d => [.init d true]
    else Option.none
  | _ => Option.none

end Sys2Proof.Machine
end

