-- ==== Sys2Proof/Tests/Slice0.lean ====
section
/-! SUPPORT. Tests against the words and vectors of 30_encoding.md and 95_test_vectors.md, and a witness for the hypotheses of
each obligation. Expected results are the spec's own. -/

namespace Sys2Proof.Tests

-- One theorem at a time: elaborated side by side, these wait on each other in more threads than the memory limit allows.
set_option Elab.async false

open Sys2Proof Sys2Proof.Machine Sys2Proof.Safety

/-! ### Helpers -/

/-- The result is a next state that passes a check. -/
def nextWith (o : Result) (check : State → Bool) : Bool :=
  match o with
  | .next t => check t
  | .fault _ => false
  | .refused _ => false

theorem nextWith_exists {o : Result} {check : State → Bool} (h : nextWith o check = true) :
    ∃ t, o = .next t ∧ check t = true := by
  unfold nextWith at h
  split at h
  · exact ⟨_, rfl, h⟩
  · cases h
  · cases h

/-- Handles `a` to `a + k - 1`. -/
def hs (a k : Nat) : List Handle := (List.range k).map fun j => BitVec.ofNat 32 (a + j)

/-- Handles `a` to `a + 15` in sixteen registers. -/
def bank (a : Nat) : Bank := ⟨hs a 16, by simp [hs]⟩

/-- A streaming machine at a step of one agent. -/
def streaming (m : BitDepth) (a : Agent) : State := { State.reset with mode := some m, drv := .streaming, actor := a }

/-- A step of the handler at frame 0 of half 0, with SLOT populated. -/
def inHandler (m : BitDepth) : State :=
  { streaming m .isr with inIsr := true, pcIsr := 2, src := some .h0, slot := bank 1, free := hs 17 24 }

/-- The frame of vector DMA-3. -/
def dma3 : Frame := 0xABCDEF1234568000017FFFFF000000FFFFFF010203A5A5A5DEADBEEF00112233#256

/-- The bytes of vector DMA-3. -/
def dma3Bytes : Memory :=
  ([0x12, 0xEF, 0xCD, 0xAB, 0x00, 0x80, 0x56, 0x34, 0xFF, 0xFF, 0x7F, 0x01, 0xFF, 0x00, 0x00, 0x00,
    0x02, 0x01, 0xFF, 0xFF, 0xA5, 0xA5, 0xA5, 0x03, 0xEF, 0xBE, 0xAD, 0xDE, 0x33, 0x22, 0x11, 0x00] : List Byte).zipIdx.map
    fun p => (0x20000000 + p.2, p.1)

/-- The platform of the vectors with the other layout. -/
def half16 : Params := { Params.vectors with layout := .half16Seq, ok := by decide }

/-- The platform of the vectors with a data cache. -/
def cached : Params := { Params.vectors with hasDcache := true, ok := by decide }

/-- The platform of the vectors with the pool that may fail at will. -/
def mayFail : Params := { Params.vectors with poolMayFail := true, ok := by decide }

/-! ### Well-formedness (30_encoding.md R92, R97) -/

theorem test_illFormed_init : (Instr.init 256 false).wellFormed = false := by decide
theorem test_illFormed_xc16 : (Instr.xc16 65536).wellFormed = false := by decide
theorem test_illFormed_xc24 : (Instr.xc24 65536).wellFormed = false := by decide
theorem test_illFormed_xc32 : (Instr.xc32 65536).wellFormed = false := by decide
theorem test_illFormed_xcuns : (Instr.xcuns 65536).wellFormed = false := by decide
theorem test_wellFormed_bounds :
    (Instr.init 255 true).wellFormed = true ∧ (Instr.xc32 65535).wellFormed = true ∧ Instr.sel.wellFormed = true := by
  decide

/-! ### Decoding: each word from its opcode, reserved bits and operand fields (30_encoding.md R91, R93) -/

theorem test_decode_dmaFrame : decode ⟨0x01#8 ++ 0#24, dma3⟩ = .ok (.dmaFrame dma3) := by rfl
theorem test_decode_init : decode ⟨(0x10#8 ++ 0#15 ++ 1#1 ++ 0x20#8 : Word), 0#256⟩ = .ok (.init 32 true) := by rfl
theorem test_decode_xc16 : decode ⟨(0x20#8 ++ 0#8 ++ 0x0100#16 : Word), 0#256⟩ = .ok (.xc16 256) := by rfl
theorem test_decode_xc24 : decode ⟨(0x21#8 ++ 0#8 ++ 0x007F#16 : Word), 0#256⟩ = .ok (.xc24 127) := by rfl
theorem test_decode_xc32 : decode ⟨(0x22#8 ++ 0#8 ++ 0xFFFF#16 : Word), 0#256⟩ = .ok (.xc32 65535) := by rfl
theorem test_decode_xcuns : decode ⟨(0x23#8 ++ 0#8 ++ 0x8000#16 : Word), 0#256⟩ = .ok (.xcuns 32768) := by rfl
theorem test_decode_sel : decode ⟨0x30#8 ++ 0#24, 0#256⟩ = .ok .sel := by rfl
theorem test_decode_cinv : decode ⟨0x31#8 ++ 0#24, 0#256⟩ = .ok .cinv := by rfl
theorem test_decode_updall : decode ⟨0x32#8 ++ 0#24, 0#256⟩ = .ok .updall := by rfl
theorem test_decode_iret : decode ⟨0x33#8 ++ 0#24, 0#256⟩ = .ok .iret := by rfl
theorem test_decode_alloc16 : decode ⟨0x40#8 ++ 0#24, 0#256⟩ = .ok .alloc16 := by rfl
theorem test_decode_swap : decode ⟨0x41#8 ++ 0#24, 0#256⟩ = .ok .swap := by rfl
theorem test_decode_fwd : decode ⟨0x42#8 ++ 0#24, 0#256⟩ = .ok .fwd := by rfl
theorem test_decode_csd : decode ⟨0x50#8 ++ 0#24, 0#256⟩ = .ok .csd := by rfl
theorem test_decode_cse : decode ⟨0x51#8 ++ 0#24, 0#256⟩ = .ok .cse := by rfl

/-- 95_test_vectors.md 2.1: the words that decode to nothing. -/
theorem test_decode_illegal :
    [0x10000200#32, 0x1000FF00#32, 0x22010000#32, 0x00000000#32, 0xF0000000#32, 0x24000000#32, 0x30000001#32].any
      (fun w => (decode ⟨w, 0#256⟩).isOk) = false := by decide

/-- 95_test_vectors.md 2.1: `0x10000120` is stored as `20 01 00 10`. -/
theorem test_stored_bytes :
    commandBytes (encode (.init 32 true)) = [0x20#8, 0x01#8, 0x00#8, 0x10#8] ∧
    decodeTableWord 32 0x10000120 = some (.init 32 true) ∧ decodeTableWord 32 0x01000000 = some (.dmaFrame 0#256) := by
  decide

/-! ### The raw buffer -/

/-- Vectors DMA-3 and DMA-4. -/
theorem test_dmaFrame_bytes :
    nextWith (exec (.dmaFrame dma3) (streaming .bits32 .dma)) (fun t => t.raw == dma3Bytes) = true ∧
    nextWith (exec (.dmaFrame dma3) { streaming .bits32 .dma with par := half16 })
      (fun t => (t.raw.take 8).map (·.2) == [0xCD#8, 0xAB#8, 0x12#8, 0xEF#8, 0x56#8, 0x34#8, 0x00#8, 0x80#8]) = true := by
  decide +kernel

/-- Vector DMA-1: frames 1, 2 and 3. -/
theorem test_dmaFrame_completion :
    nextWith (exec (.dmaFrame 0#256) { streaming .bits32 .dma with wpos := 1 })
      (fun t => t.wpos == 2 && t.irqPending && t.events == [.completion .h0]) = true ∧
    nextWith (exec (.dmaFrame 0#256) { streaming .bits32 .dma with wpos := 2 })
      (fun t => t.wpos == 3 && !t.irqPending && t.events == []) = true ∧
    nextWith (exec (.dmaFrame 0#256) { streaming .bits32 .dma with wpos := 3 })
      (fun t => t.wpos == 0 && t.irqPending && t.events == [.completion .h1]) = true := by
  decide +kernel

/-- Vector H-8: after the overrun, a byte of frame 0 is the old or the new one; and the settled byte is one value. -/
theorem test_overrun_race :
    heldSince { State.reset with raw := [(0x20000000, 0x44#8)], rawPast := [⟨4, 0x20000000, [some 0x22#8]⟩], selAt := 2 } 2
      0x20000000 = [some 0x44#8, some 0x22#8] ∧
    heldSince { State.reset with raw := [(0x20000000, 0x44#8)], rawPast := [⟨4, 0x20000000, [some 0x22#8]⟩], selAt := 5 } 5
      0x20000000 = [some 0x44#8] := by
  decide +kernel

/-- A byte written at step 4, after SEL at step 2, as a CPU with a cache sees it when its line's last CINV was step `t`. -/
def seenAfterCinv (t : Nat) : List (Option Byte) :=
  let s : State := { State.reset with
    par := cached, raw := [(0x20000000, 0x44#8)], rawPast := [⟨4, 0x20000000, [some 0x22#8]⟩], selAt := 2
    lastInv := [(0x20000000, t)] }
  heldSince s (windowStart s 0x20000000) 0x20000000

/-- Vector H-7 and R80: a read is of the window from the line's own CINV, so a write before it, although after SEL, is read
exactly, and a write after it may be read old or new. -/
theorem test_cached_window : seenAfterCinv 6 = [some 0x44#8] ∧ seenAfterCinv 3 = [some 0x44#8, some 0x22#8] := by
  decide +kernel

/-! ### The transcoder -/

/-- The samples of a set's blocks at an index. -/
def samplesAt (t : State) (b : Bank) (f : Nat) : List Sample := b.list.map fun h => blkRead t h f

/-- Vector T16-1. -/
theorem test_xc16 :
    nextWith (exec (.xc16 1) { inHandler .bits16 with raw := dma3Bytes })
      (fun t => samplesAt t (bank 1) 1 == List.replicate 16 0#16) = true := by
  decide +kernel

/-- Vector T24-1, all sixteen blocks. -/
theorem test_xc24 :
    nextWith (exec (.xc24 0) { inHandler .bits24 with raw := dma3Bytes })
      (fun t => samplesAt t (bank 1) 0 == [0xABCD#16, 0xEF00#16, 0x1234#16, 0x5600#16, 0x8000#16, 0x0100#16, 0x7FFF#16,
        0xFF00#16, 0x0000#16, 0x0000#16, 0xFFFF#16, 0xFF00#16, 0x0102#16, 0x0300#16, 0xA5A5#16, 0xA500#16]) = true := by
  decide +kernel

/-- Vector T32-2, all sixteen blocks. -/
theorem test_xc32 :
    nextWith (exec (.xc32 0) { inHandler .bits32 with raw := dma3Bytes })
      (fun t => samplesAt t (bank 1) 0 == [0xABCD#16, 0xEF12#16, 0x3456#16, 0x8000#16, 0x017F#16, 0xFFFF#16, 0x0000#16,
        0x00FF#16, 0xFFFF#16, 0x0102#16, 0x03A5#16, 0xA5A5#16, 0xDEAD#16, 0xBEEF#16, 0x0011#16, 0x2233#16]) = true := by
  decide +kernel

/-- Vector TX-2, the faulting rows. -/
theorem test_xc_faults :
    nextWith (exec (.xc32 0) { inHandler .bits32 with src := none }) (fun t => t.fault == .noSource) = true ∧
    nextWith (exec (.xc32 2) (inHandler .bits32)) (fun t => t.fault == .frameRange) = true ∧
    nextWith (exec (.xc24 5) { inHandler .bits32 with src := none }) (fun t => t.fault == .modeMismatch) = true ∧
    nextWith (exec (.xc32 0) { inHandler .bits32 with actor := .coop }) (fun t => t.fault == .wrongContext) = true := by
  decide +kernel

/-- Vector TUNS-1. -/
theorem test_xcuns :
    nextWith (exec (.xcuns 0) { inHandler .unsupported with raw := dma3Bytes })
      (fun t => samplesAt t (bank 1) 0 == List.replicate 16 0#16) = true := by
  decide +kernel

/-! ### The handler -/

/-- Vector H-1. -/
theorem test_sel :
    [0, 1, 2, 3].map (fun w => nextWith (exec .sel { inHandler .bits32 with wpos := w }) fun t => t.src == some .h1) =
      [true, true, false, false] := by
  decide +kernel

/-- Vector H-3. -/
theorem test_cinv :
    nextWith (exec .cinv { inHandler .bits32 with par := cached, src := some .h1, now := 9 })
      (fun t => t.lastInv == [(0x20000040, 9), (0x20000060, 9)]) = true ∧
    nextWith (exec .cinv { inHandler .bits32 with par := cached, slot := Bank.empty, now := 9 })
      (fun t => t.lastInv == []) = true ∧
    nextWith (exec .cinv { inHandler .bits32 with now := 9 }) (fun t => t.lastInv == []) = true := by
  decide +kernel

/-- Vector H-4. -/
theorem test_updall :
    nextWith (exec .updall { inHandler .bits32 with tk := true, updreq := 7#32 })
      (fun t => t.updreq == 8#32 && t.events == [.runAllUpdates]) = true ∧
    nextWith (exec .updall { inHandler .bits32 with tk := true, updreq := 0xFFFFFFFF#32 }) (fun t => t.updreq == 0#32) = true ∧
    nextWith (exec .updall { inHandler .bits32 with updreq := 7#32 }) (fun t => t.updreq == 7#32 && t.events == []) = true := by
  decide +kernel

/-- Vector H-6. -/
theorem test_iret :
    nextWith (exec .iret { inHandler .bits32 with irqPending := true })
      (fun t => !t.inIsr && !srcValid t && enabled .isr t && t.pcIsr == 0) = true := by
  decide +kernel

/-- Vector H-5. -/
theorem test_entry_enabled :
    [(false, true, false), (false, true, true), (false, false, false), (true, true, false)].map (fun r =>
      entryEnabled { State.reset with inIsr := r.1, irqPending := r.2.1, irqMask := r.2.2 }) =
    [true, false, false, false] := by
  decide +kernel

/-- Vector H-2. -/
theorem test_handler_body :
    (handlerBody .bits32 2).map encodeWord =
      [0x30000000#32, 0x31000000#32, 0x22000000#32, 0x22000001#32, 0x32000000#32, 0x33000000#32] := by
  decide

/-! ### The block exchange -/

/-- Vector X-1, with `draw()` resolved as the lowest free handle. -/
theorem test_alloc16 :
    nextWith (exec .alloc16 { streaming .bits32 .coop with draws := List.replicate 16 0 })
      (fun t => t.new == bank 1 && t.free == hs 17 24 && t.events == (hs 1 16).map .alloc) = true := by
  decide +kernel

/-- Vector X-3, with `draw()` resolved as the lowest free handle; and X-4. -/
theorem test_alloc16_failure :
    nextWith (exec .alloc16 { streaming .bits32 .coop with free := hs 1 15, draws := List.replicate 15 0 })
      (fun t => t.new == Bank.empty && t.free == hs 1 15 &&
        t.events == (hs 1 15).map .alloc ++ [.allocFail] ++ (hs 1 15).map .release) = true ∧
    nextWith (exec .alloc16 { streaming .bits32 .coop with new := bank 1 })
      (fun t => t.fault == .worksetBusy && t.fword == 0x40000000#32) = true := by
  decide +kernel

/-- Vector X-8. -/
theorem test_swap :
    nextWith (exec .swap { streaming .bits32 .coop with slot := bank 1, new := bank 17, irqMask := true })
      (fun t => t.ret == bank 1 && t.slot == bank 17 && t.new == Bank.empty && slotsFull t) = true := by
  decide +kernel

/-- Vectors X-12 and X-13, and the status word of 2.7. -/
theorem test_swap_faults :
    nextWith (exec .swap { streaming .bits32 .coop with ret := bank 1, irqMask := true })
      (fun t => t.fault == .worksetBusy) = true ∧
    nextWith (exec .swap { streaming .bits32 .coop with ret := bank 1 })
      (fun t => t.fault == .swapUnmasked && t.pcCoop == 0 && statWord t == 0x00000540#32 && t.fword == 0x41000000#32) = true := by
  decide +kernel

/-- Vectors X-14 and X-15. -/
theorem test_fwd :
    nextWith (exec .fwd { streaming .bits32 .coop with ret := bank 1, free := hs 17 24 })
      (fun t => t.ret == Bank.empty && t.free == hs 1 40 && t.events.length == 32 &&
        t.events[31]? == some (.release 16#32)) = true ∧
    nextWith (exec .fwd (streaming .bits32 .coop)) (fun t => t.events == [] && t.pcCoop == 1) = true := by
  decide +kernel

/-- Vector X-5. -/
theorem test_csd :
    nextWith (exec .csd { streaming .bits32 .coop with irqPending := true })
      (fun t => t.irqMask && !enabled .isr t) = true := by
  decide +kernel

/-- Vector X-7. -/
theorem test_cse :
    nextWith (exec .cse { streaming .bits32 .coop with irqPending := true, irqMask := true })
      (fun t => !t.irqMask && enabled .isr t) = true := by
  decide +kernel

/-! ### Initialisation, reset and steps -/

/-- 95_test_vectors.md 2.6, the mode table. -/
theorem test_init_modes :
    [0, 8, 20, 25, 31, 33, 255, 16, 24, 32].map (fun d => modeBits (modeOf d)) =
      [3#2, 3#2, 3#2, 3#2, 3#2, 3#2, 3#2, 0#2, 1#2, 2#2] := by
  decide

/-- 95_test_vectors.md 2.6: INIT at reset, and INIT again. -/
theorem test_init :
    nextWith (exec (.init 32 true) { State.reset with wire := [0#256] })
      (fun t => cfgWord t == some 0xE#32 && t.wpos == 0 && !t.irqPending && enabled .dma t) = true ∧
    nextWith (exec (.init 24 false) (streaming .bits32 .coop))
      (fun t => t.fault == .reinit && t.mode == some .bits32) = true := by
  decide +kernel

/-- 95_test_vectors.md 2.6 and program P3b: the first word after reset, issued by COOP. -/
theorem test_first_words :
    [0x10000120#32, 0x40000000#32, 0x30000000#32, 0x10000200#32].map (fun w =>
      nextWith (step { State.reset with prog := [⟨w, 0#256⟩] }) fun t => t.pcCoop == 1 && t.drv == .streaming) =
      [true, false, false, false] ∧
    [0x10000120#32, 0x40000000#32, 0x30000000#32, 0x10000200#32].map (fun w =>
      match step { State.reset with prog := [⟨w, 0#256⟩] } with
      | .next t => faultNumber t.fault
      | _ => 0#8) = [0#8, 2#8, 4#8, 1#8] := by
  decide +kernel

/-- A placed word is the next command: one of COOP, one of the handler, one of the wire, and one that no handler body holds. -/
theorem test_withFetchWord :
    nextWith (step (State.reset.withFetchWord 32 0x10000120)) (fun t => t.drv == .streaming && t.fault == .none) = true ∧
    nextWith (step (State.reset.withFetchWord 32 0x30000000)) (fun t => t.src == some .h1 && t.fault == .none) = true ∧
    nextWith (step (State.reset.withFetchWord 32 0x22000001)) (fun t => t.pcIsr == 4 && t.fault == .none) = true ∧
    nextWith (step (State.reset.withFetchWord 32 0x01000000)) (fun t => t.wpos == 1 && t.fault == .none) = true ∧
    nextWith (step (State.reset.withFetchWord 32 0x22000002)) (fun t => t.fault == .wrongContext) = true := by
  decide +kernel

/-! ### The assembler (30_encoding.md R97 to R100, 95_test_vectors.md P1) -/

theorem test_assembler :
    assembleLine .bits32 2 "0x".toList = none ∧
    assembleLine .bits32 2 "INIT 32, tk ; start".toList = some [.init 32 true] ∧
    assembleLine .bits32 2 "init 256".toList = none ∧
    assembleLine .bits32 2 "xc24 0x7F".toList = some [.xc24 127] ∧
    assembleLine .bits32 2 "update".toList = some [.alloc16, .csd, .swap, .cse, .fwd] ∧
    assembleLine .bits32 2 "isr".toList = some [.sel, .cinv, .xc32 0, .xc32 1, .updall, .iret] := by
  decide +kernel

/-! ### Witnesses: concrete states and operands that meet each obligation's hypotheses, clause by clause -/

/-- A run's state inside the handler: SLOT and RET populated, a frame on the wire, FWD next for COOP. -/
def mid : State :=
  { inHandler .bits32 with ret := bank 17, free := hs 33 8, wire := [dma3], prog := [encode .fwd], draws := [0, 1] }

/-- The same with SLOT and RET all EMPTY, at the UPDALL of the timekeeper. -/
def midEmpty : State :=
  { mid with slot := Bank.empty, ret := Bank.empty, free := hs 1 40, tk := true, pcIsr := 4, sched := [.isr] }

/-- Reset with a program whose first command faults. -/
def faulty : State := { State.reset with prog := [encode .swap], sched := [.coop] }

/-- A state that a fault has stopped. -/
def stopped : State := { faulty with fault := .notStreaming, fagent := some .coop, fword := 0x41000000#32 }

theorem toNat_of_mem_hs {h : Handle} {a k : Nat} (hk : a + k ≤ 2 ^ 32) (hm : h ∈ hs a k) : a ≤ h.toNat ∧ h.toNat < a + k := by
  simp only [hs, List.mem_map, List.mem_range] at hm
  obtain ⟨j, hj, rfl⟩ := hm
  rw [BitVec.toNat_ofNat, Nat.mod_eq_of_lt (by omega)]
  omega

theorem hs_rising {a k : Nat} (hk : a + k ≤ 2 ^ 32) : handlesRising (hs a k) := by
  unfold handlesRising hs
  rw [List.pairwise_map]
  refine List.pairwise_lt_range.imp_of_mem fun {x y} hx hy hxy => ?_
  rw [List.mem_range] at hx hy
  rw [BitVec.toNat_ofNat, BitVec.toNat_ofNat, Nat.mod_eq_of_lt (by omega), Nat.mod_eq_of_lt (by omega)]
  omega

theorem hs_nodup {a k : Nat} (hk : a + k ≤ 2 ^ 32) : (hs a k).Nodup :=
  (hs_rising hk).imp fun hlt he => by rw [he] at hlt; omega

theorem hs_handles {h : Handle} {a k : Nat} (ha : 1 ≤ a) (hk : a + k ≤ 41) (hm : h ∈ hs a k) :
    h ∈ Params.vectors.handles := by
  simp only [hs, List.mem_map, List.mem_range] at hm
  obtain ⟨j, hj, rfl⟩ := hm
  simp only [Params.vectors, List.mem_map, List.mem_range]
  exact ⟨a + j - 1, by omega, by congr 1; omega⟩

/-- The invariant of a state on the vectors' platform that holds handles `1` to `k` and leaves the handles from `b` on free. -/
theorem inv_of_hs {s : State} {k b l : Nat} (hp : s.par = Params.vectors) (hh : heldHandles s = hs 1 k) (hf : s.free = hs b l)
    (hkb : k + 1 ≤ b) (hbl : b + l ≤ 41) (h1 : Uniform s.slot ∧ Uniform s.new ∧ Uniform s.ret) (h2 : StorageCanonical s)
    (h3 : ControlSound s) : Inv s where
  slotUniform := h1.1
  newUniform := h1.2.1
  retUniform := h1.2.2
  ownership := by
    refine ⟨by rw [hh]; exact hs_nodup (by omega), fun h hm => ?_, fun h hm hc => ?_⟩
    · rw [hh] at hm
      rw [hp]
      exact hs_handles (by omega) (by omega) hm
    · rw [hh] at hm
      rw [hf] at hc
      have := toNat_of_mem_hs (by omega) hm
      have := toNat_of_mem_hs (by omega) hc
      omega
  pool := by
    refine ⟨by rw [hf]; exact hs_rising (by omega), fun h hm => ?_⟩
    rw [hf] at hm
    rw [hp]
    exact hs_handles (by omega) (by omega) hm
  storage := h2
  control := h3

theorem inv_mid : Inv mid :=
  inv_of_hs (k := 32) (b := 33) (l := 8) rfl (by decide +kernel) rfl (by decide) (by decide)
    ⟨.inr (by decide +kernel), .inl (by decide +kernel), .inr (by decide +kernel)⟩
    ⟨List.Pairwise.nil, List.Pairwise.nil, fun _ h => absurd h List.not_mem_nil, List.Pairwise.nil⟩
    ⟨by decide, rfl, rfl, fun _ => rfl, fun _ => rfl, by decide, rfl⟩

theorem inv_midEmpty : Inv midEmpty :=
  inv_of_hs (k := 0) (b := 1) (l := 40) rfl (by decide +kernel) rfl (by decide) (by decide)
    ⟨.inl (by decide +kernel), .inl (by decide +kernel), .inl (by decide +kernel)⟩
    ⟨List.Pairwise.nil, List.Pairwise.nil, fun _ h => absurd h List.not_mem_nil, List.Pairwise.nil⟩
    ⟨by decide, rfl, rfl, fun _ => rfl, fun _ => rfl, by decide, rfl⟩

theorem inv_faulty : Inv faulty :=
  inv_of_hs (k := 0) (b := 1) (l := 40) rfl (by decide +kernel) (by decide +kernel) (by decide) (by decide)
    ⟨.inl (by decide +kernel), .inl (by decide +kernel), .inl (by decide +kernel)⟩
    ⟨List.Pairwise.nil, List.Pairwise.nil, fun _ h => absurd h List.not_mem_nil, List.Pairwise.nil⟩
    ⟨by decide, rfl, rfl, fun h => (nomatch h), fun h => (nomatch h), rfl, rfl⟩

theorem witness_DecodeOfEncode :
    (Instr.init 0 false).wellFormed = true ∧ (Instr.init 255 true).wellFormed = true ∧
    (Instr.xc24 0).wellFormed = true ∧ (Instr.xc24 65535).wellFormed = true ∧ (Instr.dmaFrame dma3).wellFormed = true := by
  decide

theorem witness_EncodeOfDecode :
    decode ⟨0x2200FFFF#32, 0#256⟩ = .ok (.xc32 65535) ∧
    decode ⟨0x01000000#32, dma3⟩ = .ok (.dmaFrame dma3) ∧ opOf (.dmaFrame dma3) = .dmaFrame := ⟨rfl, rfl, rfl⟩

theorem witness_DecodingFollowsMaskAndMatch :
    0x2200FFFF#32 &&& maskOf .xc32 = matchOf .xc32 ∧ (∀ o : Op, 0x22010000#32 &&& maskOf o ≠ matchOf o) ∧
    opcOf .xc32 = opcOf .xc32 := by
  refine ⟨by decide, fun o => ?_, rfl⟩
  cases o <;> decide

theorem witness_IllegalWordsAreTheReservedOnes :
    (∀ o : Op, opcOf o ≠ opcField 0x24000000#32) ∧
    (opcOf .xc32 = opcField 0x22010000#32 ∧ 0x22010000#32 &&& maskOf .xc32 &&& 0x00FFFFFF#32 ≠ 0#32) := by
  refine ⟨fun o => ?_, by decide⟩
  cases o <;> decide

theorem witness_StoredBytesDecode : (Instr.dmaFrame dma3).wellFormed = true ∧ (Instr.xc16 65535).wellFormed = true := by
  decide

/-- COOP, a handler step, and a frame; the wire's first frame, and past its end. -/
theorem witness_StepRunsTheDecodedCommand :
    (faulty.fault = .none ∧ faulty.inIsr = false ∧ faulty.sched = [.coop] ∧ faulty.prog[faulty.pcCoop]? = some (encode .swap) ∧
      decode (encode .swap) = .ok .swap) ∧
    (midEmpty.fault = .none ∧ midEmpty.inIsr = true ∧ midEmpty.sched = [.isr] ∧ midEmpty.mode = some .bits32 ∧
      (handlerBody .bits32 midEmpty.par.n)[midEmpty.pcIsr]? = some .updall) ∧
    (({ mid with sched := [.dma] } : State).fault = .none ∧ ({ mid with sched := [.dma] } : State).drv = .streaming ∧
      ({ mid with sched := [.dma] } : State).sched = [.dma] ∧ wireAt { mid with sched := [.dma] } 0 = some dma3) ∧
    (mid.wire[0]? = some dma3 ∧ mid.wire[mid.wire.length]? = Option.none) :=
  ⟨⟨rfl, rfl, rfl, rfl, rfl⟩, ⟨rfl, rfl, rfl, rfl, rfl⟩, ⟨rfl, rfl, rfl, rfl⟩, rfl, rfl⟩

theorem witness_AnyEnabledAgentMayStep :
    enabled .dma mid = true ∧ enabled .isr mid = true ∧ enabled .coop mid = false ∧ enabled .coop faulty = true ∧
    enabled .isr { State.reset with irqPending := true } = true ∧ faulty.inIsr = false ∧
    (chooseAgent faulty).map (·.1) = some .coop := by
  decide +kernel

theorem witness_StepStopsExactlyWhenNoAgentIsEnabled :
    (∀ a, enabled a State.reset = false) ∧ step State.reset = .fault .runEnded ∧
    (∃ t, step faulty = .next t ∧ true = true) :=
  ⟨fun a => by cases a <;> rfl, rfl, nextWith_exists (check := fun _ => true) (by decide +kernel)⟩

theorem witness_FaultedAndFinalStatesHaveNoStep :
    stopped.fault ≠ .none ∧ isFinal State.reset = true ∧ ({ State.reset with endless := true } : State).endless = true ∧
    isFinal { State.reset with irqPending := true, irqMask := true } = true := by
  decide +kernel

theorem witness_FaultChangesOnlyItsRecord :
    faulty.fault = .none ∧ nextWith (exec .swap faulty) (fun t => t.fault != .none) = true ∧
    nextWith (step faulty) (fun t => t.fault != .none) = true ∧ stopped.fault ≠ .none := by
  decide +kernel

theorem witness_FirstFaultIsKept :
    stopped.fault ≠ .none ∧ nextWith (exec .sel stopped) (fun t => t.fault == .notStreaming) = true := by
  decide +kernel

theorem witness_FirstApplicableFaultIsReported :
    faulty.fault = .none ∧ nextWith (exec .swap faulty) (fun t => t.fault == .notStreaming) = true ∧
    reportedFault .swap faulty = .notStreaming ∧ mid.fault = .none ∧ reportedFault (.xc32 1) mid = .none := by
  decide +kernel

theorem witness_IllegalWordFaultsWhenIssued :
    ∃ s : State, s.fault = .none ∧ s.inIsr = false ∧ s.sched = [.coop] ∧ s.prog[s.pcCoop]? = some ⟨0x24000000#32, 0#256⟩ ∧
      decode ⟨0x24000000#32, 0#256⟩ = .error (.unassignedOpcode 0x24#8) :=
  ⟨{ faulty with prog := [⟨0x24000000#32, 0#256⟩] }, rfl, rfl, rfl, rfl, rfl⟩

/-- A handler command of COOP, a frame command of COOP, and a COOP command of the handler. -/
theorem witness_WrongContextFaults :
    faulty.fault = .none ∧ faulty.actor ≠ agentOf (opOf .sel) ∧ faulty.actor ≠ agentOf (opOf (.dmaFrame dma3)) ∧
    mid.fault = .none ∧ mid.actor ≠ agentOf (opOf .swap) := by
  decide +kernel

theorem witness_FaultRecordsTheIssuedWord :
    nextWith (step faulty) (fun t => t.actor == .coop && t.fault != .none) = true ∧
    faulty.prog[faulty.pcCoop]? = some (encode .swap) := by
  decide +kernel

/-- Depths 0 and 255; COOP before and after INIT; another agent; a wire with a frame. -/
theorem witness_InitStartsStreaming :
    0 < 256 ∧ 255 < 256 ∧
    (mid.fault = .none ∧ mid.actor ≠ .coop) ∧
    ((streaming .bits32 .coop).fault = .none ∧ (streaming .bits32 .coop).actor = .coop ∧
      (streaming .bits32 .coop).drv = .streaming) ∧
    (State.reset.actor = .coop ∧ State.reset.drv = .uninitialized ∧ State.reset.fault = .none ∧
      (wireAt { State.reset with wire := [dma3] } 0).isSome = true) := by
  decide +kernel

theorem witness_PowerOnState :
    ((State.initial half16 (Inputs.none half16)).slot = Bank.empty) ∧ (0x10 ≤ 0x10 ∧ 0x10 < 0x40) ∧
    (0x10 ≤ 0x3F ∧ 0x3F < 0x40) := by
  decide +kernel

theorem witness_ConfigurationIsFixed : nextWith (step mid) (fun _ => true) = true ∧ mid.drv = .streaming := by
  decide +kernel

/-- Both layouts, at the last word and the last byte of each. -/
theorem witness_DmaFrameWritesAndAdvances :
    (mid.fault = .none ∧ mid.actor ≠ .dma) ∧ (streaming .bits32 .dma).actor = .dma ∧
    (streaming .bits32 .dma).par.layout = .word32HiFirst ∧ half16.layout = .half16Seq ∧
    (7 < 8 ∧ 3 < 4) ∧ (15 < 16 ∧ 1 < 2) := by
  decide +kernel

/-- The last frame of half 1, read by a CPU whose SEL came after the write. -/
theorem witness_SettledFrameReadsBack :
    let s : State := { streaming .bits32 .dma with wpos := 3, now := 5 }
    s.actor = .dma ∧ s.wpos = s.par.n * (if Half.h1 = .h0 then 0 else 1) + 1 ∧
    ∃ t, exec (.dmaFrame dma3) s = .next t ∧ t.par = s.par ∧
      ∀ o ∈ ({ t with selAt := 5 } : State).rawPast, o.step ≤ windowStart { t with selAt := 5 } 0x20000060 := by
  refine ⟨rfl, rfl, ?_⟩
  obtain ⟨t, h, hc⟩ := nextWith_exists (o := exec (.dmaFrame dma3) { streaming .bits32 .dma with wpos := 3, now := 5 })
    (check := fun t => decide (t.par = (streaming .bits32 .dma).par ∧
      ∀ o ∈ ({ t with selAt := 5 } : State).rawPast, o.step ≤ windowStart { t with selAt := 5 } 0x20000060))
    (by decide +kernel)
  have hc := of_decide_eq_true hc
  exact ⟨t, h, hc.1, hc.2⟩

theorem witness_OnlyDmaWritesRaw :
    nextWith (exec (.dmaFrame dma3) (streaming .bits32 .dma)) (fun t => t.raw != []) = true ∧
    nextWith (exec (.xc32 0) mid) (fun t => t.raw == []) = true := by
  decide +kernel

/-- The last position, with a listed byte at each end of RAW, and a step that writes a frame. -/
theorem witness_StepKeepsRawInItsRange :
    let s : State := { mid with wpos := 3, sched := [.dma], raw := [(0x20000000, 1#8), (0x2000007F, 2#8)] }
    s.wpos < 2 * s.par.n ∧ (∀ c ∈ s.raw, s.par.rawBase ≤ c.1 ∧ c.1 < s.par.rawBase + 64 * s.par.n) ∧
    nextWith (step s) (fun t => t.raw != s.raw) = true := by
  decide +kernel

/-- A byte with two values held since the window's start, without a cache and with one. -/
theorem witness_CpuReadsAnyHeldValue :
    [Params.vectors, cached].all (fun p =>
      let s : State := { mid with
        par := p, raw := [(0x20000000, 0x44#8)], rawPast := [⟨4, 0x20000000, [some 0x22#8]⟩], selAt := 2 }
      decide (some 0x44#8 ∈ heldSince s (windowStart s 0x20000000) 0x20000000 ∧
        some 0x22#8 ∈ heldSince s (windowStart s 0x20000000) 0x20000000)) = true := by
  decide +kernel

/-- With a cache and without one; SEL; CINV at the first and last byte of a half; a frame's first and last byte, overwritten after
the window's start. -/
theorem witness_ReadWindowIsRecorded :
    nextWith (step mid) (fun _ => true) = true ∧ cached.hasDcache = true ∧ mid.par.hasDcache = false ∧
    (mid.actor = .isr ∧ mid.drv = .streaming) ∧
    (let s : State := { mid with par := cached, src := some .h1 }
     s.actor = .isr ∧ s.drv = .streaming ∧ s.src = some .h1 ∧ allEmpty s.slot = false ∧ s.par.hasDcache = true ∧
      s.par.rawBase + 32 * (s.par.n * if Half.h1 = .h0 then 0 else 1) = 0x20000040 ∧ 0x20000040 + 32 * s.par.n = 0x20000080) ∧
    nextWith (exec .sel mid) (fun _ => true) = true ∧
    (let s : State := { streaming .bits32 .dma with now := 5, selAt := 2 }
     s.actor = .dma ∧
      nextWith (exec (.dmaFrame dma3) s)
        (fun t => decide (windowStart t 0x20000000 < s.now ∧ windowStart t 0x2000001F < s.now)) = true) := by
  decide +kernel

/-- The last frame of a half. -/
theorem witness_Xc32WritesSlotWords :
    mid.actor = .isr ∧ mid.drv = .streaming ∧ mid.mode = some .bits32 ∧ mid.src = some .h0 ∧ 1 < mid.par.n ∧
    allFull mid.slot = true ∧ mid.slot.list.Nodup ∧ mid.slot.list[15]? = some 16#32 ∧ 17#32 ∉ mid.slot.list := by
  decide +kernel

theorem witness_Xc24WritesHiAndLo :
    let s := inHandler .bits24
    s.actor = .isr ∧ s.drv = .streaming ∧ s.mode = some .bits24 ∧ s.src = some .h0 ∧ 1 < s.par.n ∧
    allFull s.slot = true ∧ s.slot.list.Nodup ∧ s.slot.list[2 * 7]? = some 15#32 ∧ s.slot.list[2 * 7 + 1]? = some 16#32 := by
  decide +kernel

theorem witness_Xc16AndXcunsWriteSilence :
    [BitDepth.bits16, .unsupported].all (fun m =>
      decide ((inHandler m).actor = .isr ∧ (inHandler m).drv = .streaming ∧ (inHandler m).mode = some m ∧
        (inHandler m).src = some .h0 ∧ 1 < (inHandler m).par.n ∧ allFull (inHandler m).slot = true)) = true := by
  decide +kernel

theorem witness_EmptySlotSkipsTranscoding :
    [BitDepth.bits16, .bits24, .bits32, .unsupported].all (fun m =>
      decide (({ inHandler m with slot := Bank.empty } : State).actor = .isr ∧ (inHandler m).drv = .streaming ∧
        (inHandler m).mode = some m ∧ (inHandler m).src = some .h0 ∧ 1 < (inHandler m).par.n ∧
        allEmpty ({ inHandler m with slot := Bank.empty } : State).slot = true)) = true := by
  decide +kernel

theorem witness_SilenceIgnoresRaw :
    nextWith (exec (.xc16 1) (inHandler .bits16)) (fun t => t.fault == .none) = true ∧
    nextWith (exec (.xcuns 1) (inHandler .unsupported)) (fun t => t.fault == .none) = true := by
  decide +kernel

/-- Two states with the same mode, frame and SLOT: without choices to make, with bytes written. -/
theorem witness_TranscoderIsPure :
    let s : State := { mid with raw := dma3Bytes }
    s.fault = .none ∧ nextWith (exec (.xc32 0) s) (fun t => t.fault == .none) = true ∧ s.src = some .h0 ∧
    nextWith (exec (.xc32 0) { s with wpos := 3 }) (fun t => t.fault == .none) = true ∧
    (readFrame .h0 0 s).1 = (readFrame .h0 0 { s with wpos := 3 }).1 ∧ 1#32 ∈ s.slot.list ∧ 1#32 ≠ emptyHandle := by
  decide +kernel

theorem witness_PairsReconstructChannels :
    mid.actor = .isr ∧ mid.drv = .streaming ∧ mid.src = some .h0 ∧ 1 < mid.par.n ∧ allFull mid.slot = true ∧
    mid.slot.list.Nodup ∧ mid.slot.list[2 * 7]? = some 15#32 ∧ mid.slot.list[2 * 7 + 1]? = some 16#32 ∧
    mid.mode = some .bits32 ∧ (inHandler .bits24).mode = some .bits24 ∧
    nextWith (exec (.xc32 1) mid) (fun _ => true) = true ∧
    nextWith (exec (.xc24 1) (inHandler .bits24)) (fun _ => true) = true := by
  decide +kernel

theorem witness_HandlerBodyIsFixed : mid.mode = some .bits32 ∧ 65535 < 65536 ∧ paramsOk 65536 0 false 32 [] = true := by
  decide +kernel

/-- The faulting clauses of the handler's commands: another agent, a handler before INIT, no source. -/
theorem witness_handlerFaults :
    (faulty.fault = .none ∧ faulty.actor ≠ .isr) ∧
    (({ State.reset with actor := .isr } : State).fault = .none ∧ ({ State.reset with actor := .isr } : State).actor = .isr ∧
      ({ State.reset with actor := .isr } : State).drv ≠ .streaming) ∧
    (({ mid with src := none } : State).fault = .none ∧ srcValid { mid with src := none } = false) := by
  decide +kernel

theorem witness_SelChoosesTheStableHalf : mid.actor = .isr ∧ mid.drv = .streaming ∧ mid.wpos < mid.par.n := by
  decide +kernel

theorem witness_CompletedHalfIsSelected :
    (mid.actor = .isr ∧ mid.drv = .streaming ∧ nextWith (exec .sel mid) (fun _ => true) = true) ∧
    nextWith (exec (.dmaFrame dma3) { streaming .bits32 .dma with wpos := 1 })
      (fun t => t.events == [.completion .h0]) = true ∧
    nextWith (exec (.dmaFrame dma3) { streaming .bits32 .dma with wpos := 3 })
      (fun t => t.events == [.completion .h1]) = true ∧
    nextWith (exec (.dmaFrame dma3) { streaming .bits32 .dma with wpos := 2 }) (fun t => t.events == []) = true ∧
    (mid.actor ≠ .dma ∧ nextWith (exec (.xc32 0) mid) (fun _ => true) = true) := by
  decide +kernel

/-- With a cache and a populated SLOT; with an empty SLOT; without a cache. The half's last byte, and the byte after it. -/
theorem witness_CinvCoversExactlyTheHalf :
    (({ mid with par := cached } : State).src = some .h0 ∧ allEmpty mid.slot = false ∧ cached.hasDcache = true ∧
      mid.par.rawBase + 32 * (mid.par.n * if Half.h0 = .h0 then 0 else 1) = 0x20000000 ∧
      0x20000000 + 32 * mid.par.n = 0x20000040) ∧
    (midEmpty.actor = .isr ∧ midEmpty.drv = .streaming ∧ midEmpty.src = some .h0 ∧ allEmpty midEmpty.slot = true) ∧
    (mid.actor = .isr ∧ mid.drv = .streaming ∧ mid.src = some .h0 ∧ mid.par.hasDcache = false) := by
  decide +kernel

theorem witness_UpdallTriggersTheGraph :
    (midEmpty.actor = .isr ∧ midEmpty.drv = .streaming ∧ midEmpty.tk = true) ∧
    (mid.actor = .isr ∧ mid.drv = .streaming ∧ mid.tk = false) := by
  decide +kernel

theorem witness_IretLeavesTheHandler :
    mid.actor = .isr ∧ mid.drv = .streaming ∧ mid.fault = .none ∧ ({ mid with irqPending := true } : State).irqPending = true ∧
    mid.irqMask = false ∧ (mid.prog[mid.pcCoop]?).isSome = true := by
  decide +kernel

/-- The clauses of COOP's commands: another agent, before INIT, and streaming with and without the mask. -/
theorem witness_coopClauses :
    (mid.fault = .none ∧ mid.actor ≠ .coop) ∧
    (faulty.fault = .none ∧ faulty.actor = .coop ∧ faulty.drv ≠ .streaming) ∧
    ((streaming .bits32 .coop).fault = .none ∧ (streaming .bits32 .coop).actor = .coop ∧
      (streaming .bits32 .coop).drv = .streaming ∧ (streaming .bits32 .coop).irqMask = false) := by
  decide +kernel

theorem witness_CsdMasksInterrupts :
    (streaming .bits32 .coop).actor = .coop ∧ (streaming .bits32 .coop).drv = .streaming ∧
    (streaming .bits32 .coop).inIsr = false := by
  decide +kernel

theorem witness_CseUnmasksInterrupts :
    let s : State := { streaming .bits32 .coop with irqPending := true, irqMask := true }
    s.actor = .coop ∧ s.drv = .streaming ∧ s.fault = .none ∧ s.inIsr = false ∧ s.irqPending = true := by
  decide +kernel

theorem witness_InterruptEntryIsPreciseAndUnmasked :
    let s : State := { streaming .bits32 .coop with irqPending := true, sched := [.isr] }
    s.inIsr = false ∧ s.irqPending = true ∧ s.irqMask = false ∧ s.fault = .none ∧ s.sched = [.isr] ∧
    s.mode = some .bits32 ∧ nextWith (step s) (fun t => t.inIsr) = true ∧
    nextWith (step mid) (fun _ => true) = true ∧ mid.inIsr = true := by
  decide +kernel

theorem witness_HandlerLeavesCooperativeState : nextWith (step mid) (fun _ => true) = true ∧ mid.inIsr = true := by
  decide +kernel

/-- A command of the handler, and its last one. -/
theorem witness_HandlerMovesOnToItsEnd :
    Inv midEmpty ∧ midEmpty.inIsr = true ∧ midEmpty.fault = .none ∧
    nextWith (step midEmpty) (fun t => t.actor == .isr && t.inIsr) = true ∧
    nextWith (step { midEmpty with pcIsr := 5 }) (fun t => t.actor == .isr && !t.inIsr) = true :=
  ⟨inv_midEmpty, by decide +kernel⟩

theorem witness_EmptySlotHandlerStepTouchesNoData :
    Inv midEmpty ∧ midEmpty.inIsr = true ∧ allEmpty midEmpty.slot = true ∧ midEmpty.sched = [.isr] ∧
    nextWith (step midEmpty) (fun t => t.updreq == 1#32) = true ∧ mid.tk = false :=
  ⟨inv_midEmpty, by decide +kernel⟩

/-- SWAP without the mask, with a full RET, and completing. -/
theorem witness_SwapExchangesTheSets :
    (({ streaming .bits32 .coop with ret := bank 1, irqMask := true } : State).irqMask = true ∧ allEmpty (bank 1) = false) ∧
    (({ streaming .bits32 .coop with irqMask := true } : State).actor = .coop ∧
      ({ streaming .bits32 .coop with irqMask := true } : State).irqMask = true ∧
      allEmpty ({ streaming .bits32 .coop with irqMask := true } : State).ret = true) := by
  decide +kernel

/-- A full NEW; and exactly 16 free handles, in either pool. -/
theorem witness_Alloc16TakesSixteenBlocks :
    allEmpty (bank 1) = false ∧
    (let s : State := { streaming .bits32 .coop with free := hs 1 16 }
     s.actor = .coop ∧ s.drv = .streaming ∧ allEmpty s.new = true ∧ s.par.poolMayFail = false ∧ mayFail.poolMayFail = true ∧
      handlesRising s.free ∧ 16 ≤ s.free.length) := by
  decide +kernel

/-- One handle short; and, in the pool that may fail, a failure at the first allocation and at the sixteenth. -/
theorem witness_Alloc16RollsBackAFailure :
    (let s : State := { streaming .bits32 .coop with free := hs 1 15 }
     s.actor = .coop ∧ s.drv = .streaming ∧ allEmpty s.new = true ∧ s.par.poolMayFail = false ∧ handlesRising s.free ∧
      emptyHandle ∉ s.free ∧ s.free.length < 16) ∧
    (let s : State := { streaming .bits32 .coop with par := mayFail, free := hs 1 16 }
     s.actor = .coop ∧ s.drv = .streaming ∧ allEmpty s.new = true ∧ s.par.poolMayFail = true ∧ handlesRising s.free ∧
      emptyHandle ∉ s.free ∧ 0 ≤ s.free.length ∧ 15 < 16 ∧ 15 ≤ s.free.length) := by
  decide +kernel

theorem witness_FwdTransmitsAndReleases :
    allEmpty (streaming .bits32 .coop).ret = true ∧
    (let s : State := { streaming .bits32 .coop with ret := bank 1 }
     s.actor = .coop ∧ s.drv = .streaming ∧ allFull s.ret = true) := by
  decide +kernel

/-- The default pool with a handle and with none; a pool that may fail; a client's move, and none; a handle of HANDLE that the
unit does not hold, one that it holds, and one that is not of HANDLE. -/
theorem witness_PoolReturnsAnyFreeHandle :
    mid.par.poolMayFail = false ∧ 33#32 ∈ mid.free ∧
    (poolAllocate { mid with draws := [0] }).1 = some 33#32 ∧
    (poolAllocate { mid with free := [] }).1 = none ∧
    mayFail.poolMayFail = true ∧ mid.clients = [] ∧
    ({ mid with clients := [[.acquire 33#32, .giveBack 40#32]] } : State).clients = [[.acquire 33#32, .giveBack 40#32]] ∧
    (40#32 ∈ mid.par.handles ∧ unitOwns mid 40#32 = false) ∧ 41#32 ∉ mid.par.handles ∧
    unitOwns mid 17#32 = true ∧ 17#32 ∉ mid.free ∧ handlesRising mid.free := by
  decide +kernel

theorem witness_poolSound : PoolSound mid := inv_mid.pool

theorem witness_OnlySwapWritesSlot :
    nextWith (exec .swap { streaming .bits32 .coop with new := bank 1, irqMask := true }) (fun t => t.slot == bank 1) = true := by
  decide +kernel

theorem witness_RetiredBlocksKeepTheirContents :
    Inv mid ∧ nextWith (step mid) (fun _ => true) = true ∧ 17#32 ∈ mid.ret.list ∧ 17#32 ≠ emptyHandle :=
  ⟨inv_mid, by decide +kernel⟩

theorem witness_EventsOnlyGrow : nextWith (step midEmpty) (fun t => t.events.length == 1) = true := by
  decide +kernel

theorem witness_ParametersAndProgramsAreFixed : nextWith (step mid) (fun _ => true) = true := by
  decide +kernel

/-- A command of each agent, and IRET. -/
theorem witness_CommandIndexAdvances :
    nextWith (exec .csd (streaming .bits32 .coop)) (fun t => t.fault == .none) = true ∧
    nextWith (exec (.dmaFrame dma3) (streaming .bits32 .dma)) (fun t => t.fault == .none) = true ∧
    nextWith (exec (.xc32 0) mid) (fun t => t.fault == .none) = true ∧
    nextWith (exec .iret mid) (fun t => t.fault == .none) = true := by
  decide +kernel

/-- The last position, with the largest N; the first and last number of each range; a populated SLOT and an EMPTY one. -/
theorem witness_RegisterViewHasTheFields :
    mid.mode = some .bits32 ∧ 3 < 2 * mid.par.n ∧ 131071 < 2 * 65536 ∧ 15 < 16 ∧ (5 ≤ 0xF ∧ 0xF < 0x10) ∧ 0x40 ≤ 0x40 ∧
    emptyHandle ∉ mid.slot.list ∧ midEmpty.slot.list = List.replicate 16 emptyHandle := by
  decide +kernel

theorem witness_StepKeepsStorageCanonical :
    StorageCanonical { mid with raw := dma3Bytes, sched := [.dma] } ∧
    nextWith (step { mid with raw := dma3Bytes, sched := [.dma] }) (fun _ => true) = true :=
  ⟨⟨by decide +kernel, by decide +kernel, by decide +kernel, by decide +kernel⟩, by decide +kernel⟩

theorem witness_StepKeepsTheInvariant : Inv mid ∧ nextWith (step mid) (fun _ => true) = true :=
  ⟨inv_mid, by decide +kernel⟩

theorem witness_PowerOnMeetsTheInvariant :
    inputsOk Params.vectors { Inputs.none Params.vectors with endless := true, free := hs 2 20 } :=
  ⟨hs_rising (by decide), fun _ hm => hs_handles (a := 2) (k := 20) (by decide) (by decide) hm⟩

theorem witness_RunsKeepTheSetsAllOrNothing :
    Reachable Params.vectors { Inputs.none Params.vectors with prog := [encode (.init 32 true)], free := hs 2 20 }
      (State.initial Params.vectors { Inputs.none Params.vectors with prog := [encode (.init 32 true)], free := hs 2 20 }) :=
  .start ⟨hs_rising (by decide), fun _ hm => hs_handles (a := 2) (k := 20) (by decide) (by decide) hm⟩

theorem witness_OnlyCoopFaultsInARun : Inv faulty ∧ nextWith (step faulty) (fun t => t.fault != .none) = true :=
  ⟨inv_faulty, by decide +kernel⟩

end Sys2Proof.Tests
end

section
/-! PROOFS. The encoder's words decode to the commands they came from, so an agent's fetch is known by its command. -/

namespace Sys2Proof

/-- The `F` operand survives the encoder (30_encoding.md R92). -/
theorem frameField_append (opc : BitVec 8) {f : Nat} (h : f < 65536) :
    frameField (opc ++ (0#8 ++ BitVec.ofNat 16 f : BitVec 24)) = f := by
  have hx : (opc ++ (0#8 ++ BitVec.ofNat 16 f : BitVec 24)).extractLsb' 0 16 = BitVec.ofNat 16 f := by
    rw [BitVec.extractLsb'_append_eq_of_add_le (by decide), BitVec.extractLsb'_append_eq_of_add_le (by decide),
      BitVec.extractLsb'_eq_self]
  unfold frameField
  rw [hx, BitVec.toNat_ofNat, Nat.mod_eq_of_lt h]

/-- The `DEPTH` operand survives the encoder (R92). -/
theorem depthField_append (opc : BitVec 8) (tk : Bool) {d : Nat} (h : d < 256) :
    depthField (opc ++ (0#15 ++ BitVec.ofBool tk ++ BitVec.ofNat 8 d : BitVec 24)) = d := by
  have hx : (opc ++ (0#15 ++ BitVec.ofBool tk ++ BitVec.ofNat 8 d : BitVec 24)).extractLsb' 0 8 = BitVec.ofNat 8 d := by
    rw [BitVec.extractLsb'_append_eq_of_add_le (by decide), BitVec.extractLsb'_append_eq_of_add_le (by decide),
      BitVec.extractLsb'_eq_self]
  unfold depthField
  rw [hx, BitVec.toNat_ofNat, Nat.mod_eq_of_lt h]

/-- The `TK` operand survives the encoder (R92). -/
theorem tkField_append (opc : BitVec 8) (tk : Bool) (d : Nat) :
    tkField (opc ++ (0#15 ++ BitVec.ofBool tk ++ BitVec.ofNat 8 d : BitVec 24)) = tk := by
  unfold tkField
  rw [BitVec.getLsbD_append, BitVec.getLsbD_append, BitVec.getLsbD_append]
  simp

/-- Every operand at every value of its field survives the encoder. -/
theorem assemble_encode {i : Instr} (h : i.wellFormed = true) : assemble (opOf i) (encode i) = i := by
  cases i with
  | init d tk => exact congrArg₂ Instr.init (depthField_append _ _ (of_decide_eq_true h)) (tkField_append _ _ _)
  | xc16 f => exact congrArg Instr.xc16 (frameField_append _ (of_decide_eq_true h))
  | xc24 f => exact congrArg Instr.xc24 (frameField_append _ (of_decide_eq_true h))
  | xc32 f => exact congrArg Instr.xc32 (frameField_append _ (of_decide_eq_true h))
  | xcuns f => exact congrArg Instr.xcuns (frameField_append _ (of_decide_eq_true h))
  | _ => rfl

/-- Decoding undoes encoding on well-formed commands (R94). -/
theorem decode_encode {i : Instr} (h : i.wellFormed = true) : decode (encode i) = .ok i :=
  decode_eq_ok.2 ⟨opOf i, decodeOp_eq_some.2 (encodeWord_match i), (assemble_encode h).symm⟩

end Sys2Proof

namespace Sys2Proof.Machine

/-- The handler is at command `i` of its body (43_interrupt_handler.md R140). -/
def HandlerAt (i : Instr) (s : State) : Prop :=
  s.inIsr = true ∧ ∃ m, s.mode = some m ∧ (handlerBody m s.par.n)[s.pcIsr]? = some i

/-- The handler's next command decodes to the command of the body at its place. -/
theorem handlerAt_of_nextCommand {s : State} {c : Command} {i : Instr} (hin : s.inIsr = true)
    (hc : nextCommand .isr s = some c) (hd : decode c = .ok i) : HandlerAt i s := by
  obtain ⟨m, hm, hb⟩ := Option.bind_eq_some_iff.1 (show s.mode.bind _ = some c from hc)
  obtain ⟨j, hj, rfl⟩ := Option.map_eq_some_iff.1 hb
  rw [decode_encode (handlerBody_wellFormed (params_n s.par).2 hj)] at hd
  cases hd
  exact ⟨hin, m, hm, hj⟩

/-- A transcoder command is neither the first nor the last of the handler body. -/
theorem IsTranscoder.ne_iret_sel {i : Instr} {m : BitDepth} {f : Nat} (h : IsTranscoder i m f) :
    i ≠ .iret ∧ i ≠ .sel := by
  rcases h with ⟨rfl, -⟩ | ⟨rfl, -⟩ | ⟨rfl, -⟩ | ⟨rfl, -⟩ <;> exact ⟨nofun, nofun⟩

/-- SEL alone stands at the start of the handler body. -/
theorem HandlerAt.pc_pos {i : Instr} {s : State} (h : HandlerAt i s) (hi : i ≠ .sel) : 0 < s.pcIsr := by
  obtain ⟨-, m, -, hb⟩ := h
  rcases handlerBody_cases hb with ⟨-, rfl⟩ | ⟨hk, -⟩ | ⟨hk, -, -⟩ | ⟨hk, -⟩ | ⟨hk, -⟩
  · exact absurd rfl hi
  all_goals omega

/-- IRET alone stands at the end of the handler body. -/
theorem HandlerAt.pc_lt {i : Instr} {s : State} (h : HandlerAt i s) (hi : i ≠ .iret) : s.pcIsr + 1 < s.par.n + 4 := by
  obtain ⟨-, m, -, hb⟩ := h
  rcases handlerBody_cases hb with ⟨hk, -⟩ | ⟨hk, -⟩ | ⟨-, hk, -⟩ | ⟨hk, -⟩ | ⟨-, rfl⟩
  · omega
  · omega
  · omega
  · omega
  · exact absurd rfl hi

end Sys2Proof.Machine
end

section
/-! PROOFS. The handle sets of the unit and the pool (10_state.md R39, R40): every step keeps them sound. -/

namespace Sys2Proof.Safety

open Sys2Proof.Machine

/-- The non-EMPTY handles of sixteen registers. -/
def heldOf (b : Bank) : List Handle := b.list.filter fun h => h != emptyHandle

theorem heldHandles_eq (s : State) : heldHandles s = heldOf s.slot ++ heldOf s.new ++ heldOf s.ret := by
  simp [heldHandles, heldOf]

theorem mem_heldOf {b : Bank} {h : Handle} : h ∈ heldOf b ↔ h ∈ b.list ∧ h ≠ emptyHandle := by
  simp [heldOf]

theorem heldOf_eq_nil {b : Bank} (h : allEmpty b = true) : heldOf b = [] := by
  simpa [heldOf, allEmpty, List.filter_eq_nil_iff] using h

@[simp] theorem heldOf_empty : heldOf Bank.empty = [] := by decide

theorem uniform_empty : Uniform Bank.empty := .inl (by decide)

/-- Sixteen non-EMPTY handles fill the registers. -/
theorem allFull_bankOf {hs : List Handle} (hl : hs.length = 16) (he : emptyHandle ∉ hs) : allFull (bankOf hs) = true := by
  simp only [allFull, bankOf_list hl, List.all_eq_true, bne_iff_ne]
  rintro h hm rfl
  exact he hm

theorem heldOf_bankOf {hs : List Handle} (hl : hs.length = 16) (he : emptyHandle ∉ hs) : heldOf (bankOf hs) = hs := by
  simp only [heldOf, bankOf_list hl, List.filter_eq_self, bne_iff_ne]
  rintro h hm rfl
  exact he hm

/-- A handle that the unit does not own is held in none of its sets. -/
theorem not_mem_heldHandles {s : State} {h : Handle} (hu : unitOwns s h = false) : h ∉ heldHandles s := by
  simp only [unitOwns, Bool.or_eq_false_iff, List.contains_eq_mem, decide_eq_false_iff_not] at hu
  simp only [heldHandles_eq, List.mem_append, mem_heldOf]
  tauto

/-- The part of `Inv` that speaks of handles: the three sets and the pool. -/
structure HandlesSound (s : State) : Prop where
  slotUniform : Uniform s.slot
  newUniform : Uniform s.new
  retUniform : Uniform s.ret
  ownership : Ownership s
  pool : PoolSound s

/-- What `HandlesSound` speaks of. -/
def handlePart (s : State) : Params × Bank × Bank × Bank × List Handle := (s.par, s.slot, s.new, s.ret, s.free)

theorem HandlesSound.congr {s t : State} (h : HandlesSound s) (e : handlePart t = handlePart s) : HandlesSound t := by
  simp only [handlePart, Prod.mk.injEq] at e
  obtain ⟨hp, hs, hn, hr, hf⟩ := e
  have hh : heldHandles t = heldHandles s := by simp only [heldHandles, hs, hn, hr]
  obtain ⟨h1, h2, h3, ⟨h4, h5, h6⟩, ⟨h7, h8⟩⟩ := h
  exact ⟨hs ▸ h1, hn ▸ h2, hr ▸ h3, ⟨hh ▸ h4, by rwa [hh, hp], by rwa [hh, hf]⟩, ⟨hf ▸ h7, by rwa [hf, hp]⟩⟩

/-- Free handles are of HANDLE, so EMPTY is not free (10_state.md R35). -/
theorem HandlesSound.empty_not_free {s : State} (h : HandlesSound s) : emptyHandle ∉ s.free := fun hm =>
  (params_handles s.par).1 (h.pool.inHandle _ hm)

/-- The unit holds no new handle, and the pool gains only handles of HANDLE that the unit does not hold. -/
theorem HandlesSound.of_subperm {s t : State} (h : HandlesSound s) (hpar : t.par = s.par)
    (hu : Uniform t.slot ∧ Uniform t.new ∧ Uniform t.ret) (hheld : (heldHandles t).Subperm (heldHandles s))
    (hrise : handlesRising t.free)
    (hfree : ∀ g ∈ t.free, g ∈ s.free ∨ (g ∈ s.par.handles ∧ g ∉ heldHandles t)) : HandlesSound t where
  slotUniform := hu.1
  newUniform := hu.2.1
  retUniform := hu.2.2
  ownership := by
    obtain ⟨l, hl, hsub⟩ := id hheld
    refine ⟨hl.nodup_iff.1 (h.ownership.distinct.sublist hsub), fun g hg => ?_, fun g hg hc => ?_⟩
    · rw [hpar]
      exact h.ownership.inHandle g (hheld.subset hg)
    · rcases hfree g hc with hf | ⟨-, hn⟩
      · exact h.ownership.notFree g (hheld.subset hg) hf
      · exact hn hg
  pool := by
    refine ⟨hrise, fun g hg => ?_⟩
    rw [hpar]
    exact (hfree g hg).elim (h.pool.inHandle g) And.left

/-- The other pool clients keep the handles sound (45_init_and_interfaces.md R196). -/
theorem HandlesSound.clientsAct {s : State} (h : HandlesSound s) : HandlesSound (Machine.clientsAct s) := by
  obtain ⟨hrise, hfree⟩ := clientsAct_sound h.pool.rising
  have hf := clientsAct_frame s
  generalize Machine.clientsAct s = t at hf hrise hfree
  have hheld : heldHandles t = heldHandles s := by rw [hf]; rfl
  refine h.of_subperm (by rw [hf]) (by rw [hf]; exact ⟨h.slotUniform, h.newUniform, h.retUniform⟩)
    (hheld ▸ List.Subperm.refl _) hrise fun g hg => (hfree g hg).imp id fun ⟨hm, hu⟩ => ⟨hm, ?_⟩
  rw [hheld]
  exact not_mem_heldHandles hu

theorem HandlesSound.stepStart {s u : State} {a : Agent} (h : HandlesSound s) (hu : ChoiceOnly s u) :
    HandlesSound (Machine.stepStart a u) := by
  have hb : HandlesSound (beginStep a u) := h.congr (by rw [hu]; rfl)
  cases a with
  | coop => exact hb.clientsAct
  | isr => exact hb
  | dma => exact hb

/-- Sixteen free handles taken into NEW (44_block_exchange.md R161). -/
theorem HandlesSound.take {s t : State} {taken : List Handle} (h : HandlesSound s) (hnew : allEmpty s.new = true)
    (hsub : ∀ g ∈ taken, g ∈ s.free) (hnd : taken.Nodup) (hl : taken.length = 16)
    (e : handlePart t = (s.par, s.slot, bankOf taken, s.ret, withoutHandles s.free taken)) : HandlesSound t := by
  simp only [handlePart, Prod.mk.injEq] at e
  obtain ⟨hpar, hslot, hnew', hret, hfree⟩ := e
  have he : emptyHandle ∉ taken := fun hm => h.empty_not_free (hsub _ hm)
  have hs : heldHandles s = heldOf s.slot ++ heldOf s.ret := by
    rw [heldHandles_eq, heldOf_eq_nil hnew, List.append_nil]
  have ht : (heldHandles t).Perm (taken ++ heldHandles s) := by
    rw [heldHandles_eq, hslot, hnew', hret, heldOf_bankOf hl he, hs, ← List.append_assoc]
    exact List.perm_append_comm.append_right _
  have hmem : ∀ g, g ∈ heldHandles t ↔ g ∈ taken ∨ g ∈ heldHandles s := fun g => by rw [ht.mem_iff, List.mem_append]
  refine ⟨hslot ▸ h.slotUniform, hnew' ▸ .inr (allFull_bankOf hl he), hret ▸ h.retUniform, ⟨?_, ?_, ?_⟩, ⟨?_, ?_⟩⟩
  · refine ht.nodup_iff.2 (List.nodup_append'.2 ⟨hnd, h.ownership.distinct, fun g hg hc => ?_⟩)
    exact h.ownership.notFree g hc (hsub g hg)
  · intro g hg
    rw [hpar]
    exact ((hmem g).1 hg).elim (fun hm => h.pool.inHandle g (hsub g hm)) (h.ownership.inHandle g)
  · intro g hg hc
    obtain ⟨hfr, hnt⟩ := mem_withoutHandles.1 (hfree ▸ hc)
    exact ((hmem g).1 hg).elim hnt fun hm => h.ownership.notFree g hm hfr
  · rw [hfree]
    exact withoutHandles_rising h.pool.rising
  · intro g hg
    rw [hpar]
    exact h.pool.inHandle g (mem_withoutHandles.1 (hfree ▸ hg)).1

/-- A failed ALLOC16 gives back what it took (R161). -/
theorem HandlesSound.rollback {s t u : State} {taken : List Handle} (h : HandlesSound s)
    (hsub : ∀ g ∈ taken, g ∈ s.free) (hu : u.free = withoutHandles s.free taken)
    (e : handlePart t = (s.par, s.slot, s.new, s.ret, (Machine.rollback taken u).free)) : HandlesSound t := by
  simp only [handlePart, Prod.mk.injEq] at e
  obtain ⟨hpar, hslot, hnew, hret, hfree⟩ := e
  have hh : heldHandles t = heldHandles s := by simp only [heldHandles, hslot, hnew, hret]
  refine h.of_subperm hpar (by rw [hslot, hnew, hret]; exact ⟨h.slotUniform, h.newUniform, h.retUniform⟩)
    (hh ▸ List.Subperm.refl _) ?_ fun g hg => .inl ?_
  · rw [hfree]
    exact rollback_rising (hu ▸ withoutHandles_rising h.pool.rising)
  · rw [hfree, mem_rollback_free, hu, mem_withoutHandles] at hg
    exact hg.elim (fun hm => hsub g hm.1) And.left

/-- SWAP moves the two sets on (44_block_exchange.md R164). -/
theorem HandlesSound.swap {s t : State} (h : HandlesSound s) (hr : allEmpty s.ret = true)
    (e : handlePart t = (s.par, s.new, Bank.empty, s.slot, s.free)) : HandlesSound t := by
  simp only [handlePart, Prod.mk.injEq] at e
  obtain ⟨hpar, hslot, hnew, hret, hfree⟩ := e
  have hp : (heldHandles t).Perm (heldHandles s) := by
    rw [heldHandles_eq, heldHandles_eq, hslot, hnew, hret, heldOf_eq_nil hr, heldOf_empty, List.append_nil, List.append_nil]
    exact List.perm_append_comm
  exact h.of_subperm hpar (by rw [hslot, hnew, hret]; exact ⟨h.newUniform, uniform_empty, h.slotUniform⟩) hp.subperm
    (hfree ▸ h.pool.rising) fun g hg => .inl (hfree ▸ hg)

/-- FWD releases what RET held, and nothing else that the unit holds (R165). -/
theorem HandlesSound.forward {s t : State} (h : HandlesSound s)
    (e : handlePart t = (s.par, s.slot, s.new, Bank.empty, (forwardFrom 0 s.ret.list s).free)) : HandlesSound t := by
  simp only [handlePart, Prod.mk.injEq] at e
  obtain ⟨hpar, hslot, hnew, hret, hfree⟩ := e
  have hs : heldHandles s = heldHandles t ++ heldOf s.ret := by
    rw [heldHandles_eq s, heldHandles_eq t, hslot, hnew, hret, heldOf_empty, List.append_nil]
  refine h.of_subperm hpar (by rw [hslot, hnew, hret]; exact ⟨h.slotUniform, h.newUniform, uniform_empty⟩)
    (hs ▸ (List.sublist_append_left _ _).subperm) (hfree ▸ forwardFrom_rising h.pool.rising) fun g hg => ?_
  rw [hfree, mem_forwardFrom_free] at hg
  refine hg.symm.imp id fun hm => ⟨h.ownership.inHandle g ?_, fun hc => ?_⟩
  · rw [hs]
    exact List.mem_append_right _ (mem_heldOf.2 hm)
  · have hd := h.ownership.distinct
    rw [hs] at hd
    exact List.disjoint_of_nodup_append hd hc (mem_heldOf.2 hm)

/-- A completing command keeps the handles sound: only ALLOC16, SWAP and FWD touch them. -/
theorem HandlesSound.completes {i : Instr} {s t : State} (h : HandlesSound s) (hc : Completes i s t) : HandlesSound t := by
  cases hc with
  | alloc16 _ u taken _ _ hnew hsub hnd hfree _ _ hl => exact h.take hnew hsub hnd hl (by simp only [handlePart, hfree])
  | alloc16Fail _ u taken _ _ _ hsub _ hfree => exact h.rollback hsub hfree rfl
  | swap _ _ _ _ hr => exact h.swap hr rfl
  | fwd => exact h.forward rfl
  | _ => exact h.congr rfl

/-- Every step keeps the three sets all-or-nothing and the handles exclusive. -/
theorem HandlesSound.step {s t : State} (h : HandlesSound s) (hs : Machine.step s = .next t) : HandlesSound t :=
  step_keeps (fun s t => HandlesSound s → HandlesSound t) (fun _ _ _ h1 h2 h => h2 (h1 h))
    (fun _ _ _ hu h => h.stepStart hu) (fun _ _ _ h => h.congr (by simp [handlePart])) (fun _ _ _ hc h => h.completes hc)
    (fun _ h => h.congr rfl) hs h

end Sys2Proof.Safety
end

section
/-! PROOFS. Canonical storage and sound control state, and with the handles the whole invariant: every step keeps it. -/

namespace Sys2Proof.Safety

open Sys2Proof.Machine

/-! ### Storage -/

/-- What `StorageCanonical` speaks of. -/
def storagePart (s : State) : Memory × List (Nat × Block) × List (Nat × Nat) := (s.raw, s.blk, s.lastInv)

theorem StorageCanonical.congr {s t : State} (h : StorageCanonical s) (e : storagePart t = storagePart s) :
    StorageCanonical t := by
  simp only [storagePart, Prod.mk.injEq] at e
  obtain ⟨hr, hb, hl⟩ := e
  exact ⟨hr ▸ h.raw, hb ▸ h.blk, by rw [hb]; exact h.samples, hl ▸ h.lastInv⟩

/-- New block storage in canonical form. -/
theorem StorageCanonical.withBlk {s t u : State} (h : StorageCanonical s) (hb : cellsRising u.blk ∧ SamplesRising u)
    (e : storagePart t = (s.raw, u.blk, s.lastInv)) : StorageCanonical t := by
  simp only [storagePart, Prod.mk.injEq] at e
  obtain ⟨hr, hb', hl⟩ := e
  exact ⟨hr ▸ h.raw, hb' ▸ hb.1, by rw [hb']; exact hb.2, hl ▸ h.lastInv⟩

/-- CINV's new steps are listed in canonical form (43_interrupt_handler.md R142). -/
theorem invalidateHalf_rising {s : State} (h : cellsRising s.lastInv) (hf : Half) :
    cellsRising (invalidateHalf hf s).lastInv := by
  rw [invalidateHalf_lastInv]
  split
  · generalize halfLines s.par hf = ls
    generalize s.lastInv = m at h
    induction ls generalizing m with
    | nil => exact h
    | cons l ls ih => exact ih _ (cellsRising_cellPut h l s.now)
  · exact h

/-- A completing command keeps storage canonical. -/
theorem StorageCanonical.completes {i : Instr} {s t : State} (h : StorageCanonical s) (hc : Completes i s t) :
    StorageCanonical t := by
  cases hc with
  | dmaFrame fv => exact ⟨dmaWriteFrame_wf h.raw, h.blk, h.samples, h.lastInv⟩
  | transcode => exact h.withBlk (writeLanes_canonical h.blk h.samples) rfl
  | cinv _ hf => exact ⟨h.raw, h.blk, h.samples, invalidateHalf_rising h.lastInv hf⟩
  | alloc16 _ u _ _ _ _ _ _ _ hcan => exact h.withBlk (hcan h.blk h.samples) rfl
  | alloc16Fail _ u _ _ _ _ _ _ _ hcan => exact h.withBlk (hcan h.blk h.samples) rfl
  | _ => exact h.congr rfl

/-- Every step keeps storage canonical. -/
theorem StorageCanonical.step {s t : State} (h : StorageCanonical s) (hs : Machine.step s = .next t) :
    StorageCanonical t :=
  step_keeps (fun s t => StorageCanonical s → StorageCanonical t) (fun _ _ _ h1 h2 h => h2 (h1 h))
    (fun _ _ _ hu h => h.congr (by rw [stepStart_frame hu]; rfl)) (fun _ _ _ h => h.congr (by simp [storagePart]))
    (fun _ _ _ hc h => h.completes hc) (fun _ h => h.congr rfl) hs h

/-! ### Control -/

/-- What `ControlSound` speaks of. -/
def controlPart (s : State) :
    Nat × Nat × Option BitDepth × DriverState × FaultCode × Option Agent × Bool × Bool × Nat × Option Half :=
  (s.par.n, s.wpos, s.mode, s.drv, s.fault, s.fagent, s.inIsr, s.irqPending, s.pcIsr, s.src)

theorem ControlSound.congr {s t : State} (h : ControlSound s) (e : controlPart t = controlPart s) : ControlSound t := by
  simp only [controlPart, Prod.mk.injEq] at e
  obtain ⟨hn, hw, hm, hd, hf, hg, hi, hp, hk, hs⟩ := e
  obtain ⟨h1, h2, h3, h4, h5, h6, h7⟩ := h
  constructor <;> simpa only [hn, hw, hm, hd, hf, hg, hi, hp, hk, hs]

/-- A fault is recorded with its agent (10_state.md R27). -/
theorem ControlSound.raiseFault {s : State} (h : ControlSound s) {c : FaultCode} (hc : c ≠ .none) (w : Word) :
    ControlSound (Machine.raiseFault c w s) := by
  by_cases hf : s.fault = .none
  · rw [raiseFault_of_none hf]
    exact ⟨h.wpos, h.mode, by simp [hc], h.handlerStreaming, h.pendingStreaming, h.handlerPc, h.source⟩
  · rwa [raiseFault_of_fault hf]

/-- Interrupt entry from outside the handler, with a completion pending (60_exceptions.md R216). -/
theorem ControlSound.interruptEntry {s : State} (h : ControlSound s) (hin : s.inIsr = false) (hp : s.irqPending = true) :
    ControlSound (Machine.interruptEntry s) where
  wpos := h.wpos
  mode := h.mode
  fagent := h.fagent
  handlerStreaming := fun _ => h.pendingStreaming hp
  pendingStreaming := by simp
  handlerPc := by simp
  source := by simpa [hin] using h.source

/-- The handler moves on by one command, SRC holding a value from SEL on (43_interrupt_handler.md R140, R141). -/
theorem ControlSound.handlerMoves {i : Instr} {s t : State} (h : ControlSound s) (hat : HandlerAt i s) (hi : i ≠ .iret)
    {src : Option Half} (hsrc : src.isSome = true)
    (e : controlPart t = controlPart { s with pcIsr := s.pcIsr + 1, src := src }) : ControlSound t := by
  have hm : ControlSound { s with pcIsr := s.pcIsr + 1, src := src } := by
    refine ⟨h.wpos, h.mode, h.fagent, h.handlerStreaming, h.pendingStreaming, ?_, ?_⟩
    · simpa only [hat.1, if_true] using hat.pc_lt hi
    · simpa [hat.1] using hsrc
  exact hm.congr e

/-- A command after SEL moves the handler on and leaves SRC as it was. -/
theorem ControlSound.handlerMovesOn {i : Instr} {s t : State} (h : ControlSound s) (hat : HandlerAt i s)
    (hi : i ≠ .iret ∧ i ≠ .sel) (e : controlPart t = controlPart { s with pcIsr := s.pcIsr + 1 }) : ControlSound t :=
  h.handlerMoves hat hi.1 (src := s.src) (by simpa [hat.1, hat.pc_pos hi.2] using h.source) e

/-- A completing command keeps the control state sound, when the handler's commands are those of its body and the wire delivers
to a streaming unit only. -/
theorem ControlSound.completes {i : Instr} {s t : State} (h : ControlSound s) (hc : Completes i s t)
    (hisr : s.actor = .isr → HandlerAt i s) (hdma : s.actor = .dma → s.drv = .streaming) : ControlSound t := by
  have hn : 0 < 2 * s.par.n := by have := (params_n s.par).1; omega
  cases hc with
  | dmaFrame fv _ ha =>
    exact ⟨Nat.mod_lt _ hn, h.mode, h.fagent, h.handlerStreaming, fun _ => hdma ha, h.handlerPc, h.source⟩
  | init =>
    exact ⟨hn, rfl, h.fagent, fun _ => rfl, nofun, h.handlerPc, h.source⟩
  | transcodeSkip _ _ _ _ _ hi ha => exact h.handlerMovesOn (hisr ha) hi.ne_iret_sel rfl
  | transcode _ _ _ _ _ _ _ _ hi ha => exact h.handlerMovesOn (hisr ha) hi.ne_iret_sel rfl
  | sel _ ha => exact h.handlerMoves (hisr ha) nofun rfl rfl
  | cinvSkip _ _ ha => exact h.handlerMovesOn (hisr ha) ⟨nofun, nofun⟩ rfl
  | cinv _ _ ha => exact h.handlerMovesOn (hisr ha) ⟨nofun, nofun⟩ rfl
  | updall _ ha => exact h.handlerMovesOn (hisr ha) ⟨nofun, nofun⟩ rfl
  | updallSkip _ ha => exact h.handlerMovesOn (hisr ha) ⟨nofun, nofun⟩ rfl
  | iret =>
    exact ⟨h.wpos, h.mode, h.fagent, nofun, h.pendingStreaming, rfl, rfl⟩
  | _ => exact h.congr rfl

/-- Every step keeps the control state sound. -/
theorem ControlSound.step {s t : State} (h : ControlSound s) (hs : Machine.step s = .next t) : ControlSound t := by
  obtain ⟨a, u, he, -, hu, hstep⟩ := step_cases hs
  rcases hstep with ⟨rfl, hin, rfl⟩ | ⟨hin, c, hn, hstep⟩
  · obtain ⟨-, ⟨hc, -⟩ | ⟨-, hp, -⟩⟩ := enabled_isr he
    · rw [hin] at hc
      cases hc
    · have hb : ControlSound (beginStep .isr u) := h.congr (by rw [hu]; rfl)
      exact hb.interruptEntry (by rw [hu]; exact hin) (by rw [hu]; exact hp)
  · have hfr := stepStart_frame (a := a) hu
    generalize stepStart a u = v at hfr hn hstep
    have hv : ControlSound v := h.congr (by rw [hfr]; rfl)
    have ha : v.actor = a := by rw [hfr]
    rcases hstep with ⟨i, hd, hx⟩ | ⟨e, -, rfl⟩
    · rcases exec_cases hx with ⟨c, hc, rfl⟩ | hx
      · exact hv.raiseFault hc _
      · refine hv.completes hx (fun hi => ?_) (fun hi => ?_) <;> rw [ha] at hi <;> subst hi
        · exact handlerAt_of_nextCommand (by rw [hfr]; exact hin rfl) hn hd
        · rw [hfr]
          exact (enabled_nextCommand_dma he).2.1
    · exact hv.raiseFault (by decide) _

/-! ### The invariant -/

theorem Inv.handlesSound {s : State} (h : Inv s) : HandlesSound s :=
  ⟨h.slotUniform, h.newUniform, h.retUniform, h.ownership, h.pool⟩

theorem HandlesSound.inv {s : State} (h : HandlesSound s) (hs : StorageCanonical s) (hc : ControlSound s) : Inv s :=
  ⟨h.slotUniform, h.newUniform, h.retUniform, h.ownership, h.pool, hs, hc⟩

end Sys2Proof.Safety
end

section
/-! PROOFS. The start of a run, and runs: the invariant holds in every reachable state. -/

namespace Sys2Proof.Safety

open Sys2Proof.Machine

@[simp] theorem heldHandles_initial (p : Params) (inp : Inputs) : heldHandles (State.initial p inp) = [] := by
  simp [heldHandles_eq, State.initial]

/-- At power-on the unit holds nothing and the control state is that of 10_state.md R48. -/
theorem inv_initial {p : Params} {inp : Inputs} (h : inputsOk p inp) : Inv (State.initial p inp) where
  slotUniform := uniform_empty
  newUniform := uniform_empty
  retUniform := uniform_empty
  ownership := ⟨by simp, by simp, by simp⟩
  pool := ⟨h.1, h.2⟩
  storage := ⟨.nil, .nil, nofun, .nil⟩
  control := by
    have hn : 0 < 2 * p.n := by have := (params_n p).1; omega
    exact ⟨hn, rfl, rfl, nofun, nofun, rfl, rfl⟩

/-- With no input every handle is free (log entry 9). -/
theorem inputsOk_none (p : Params) : inputsOk p (Inputs.none p) := ⟨(params_handles p).2, fun _ h => h⟩

theorem inv_step {s t : State} (h : Inv s) (hs : Machine.step s = .next t) : Inv t :=
  (h.handlesSound.step hs).inv (h.storage.step hs) (h.control.step hs)

/-- The invariant holds in every state of every run. -/
theorem Reachable.inv {p : Params} {inp : Inputs} {s : State} (h : Reachable p inp s) : Inv s := by
  induction h with
  | start hi => exact inv_initial hi
  | step s t _ hs ih => exact inv_step ih hs

end Sys2Proof.Safety

namespace Sys2Proof.Proofs

open Sys2Proof.Machine Sys2Proof.Safety

/-- Settles O56, part by part: the handles, storage and the control state are each kept by every step. -/
theorem stepKeepsTheInvariant : Obligations.StepKeepsTheInvariant := fun _ _ => inv_step

/-- Settles O57; `State.reset` is the platform of the vectors with every handle free. -/
theorem powerOnMeetsTheInvariant : Obligations.PowerOnMeetsTheInvariant :=
  ⟨fun _ _ => inv_initial, inv_initial (inputsOk_none _)⟩

/-- Settles O58, by induction on the run. -/
theorem runsKeepTheSetsAllOrNothing : Obligations.RunsKeepTheSetsAllOrNothing := fun _ _ _ h =>
  have hi := h.inv
  ⟨hi.slotUniform, hi.newUniform, hi.retUniform, hi⟩

end Sys2Proof.Proofs
end

section
/-! PROOFS. Whose step it is, and what the step runs (10_state.md R21, R22). -/

namespace Sys2Proof.Machine

theorem enabled_dma_iff {s : State} :
    enabled .dma s = true ↔ s.drv = .streaming ∧ s.fault = .none ∧ (wireAt s s.pcDma).isSome = true := by
  simp only [enabled, nextCommand, Option.isSome_map, Bool.and_eq_true, decide_eq_true_eq]
  tauto

theorem enabled_isr_iff {s : State} :
    enabled .isr s = true ↔ s.fault = .none ∧
      ((s.inIsr = true ∧ (nextCommand .isr s).isSome = true) ∨
       (s.inIsr = false ∧ s.irqPending = true ∧ s.irqMask = false)) := by
  simp [enabled, entryEnabled, and_assoc]

theorem enabled_coop_iff {s : State} :
    enabled .coop s = true ↔ s.fault = .none ∧ s.inIsr = false ∧ (s.prog[s.pcCoop]?).isSome = true := by
  simp [enabled, nextCommand]

/-- What is enabled does not depend on the listed choices. -/
theorem enabled_withSched (a : Agent) (s : State) (l : List Agent) : enabled a { s with sched := l } = enabled a s := by
  cases a <;> rfl

/-- The chosen agent's turn, where it is not interrupt entry: the fetch in the state that the step starts in. -/
theorem turnOf_eq_fetchFor {a : Agent} {u : State} (h : a = .isr → u.inIsr = true) :
    turnOf a u = fetchFor a (stepStart a u) := by
  cases a with
  | coop => rfl
  | dma => rfl
  | isr => exact if_pos (h rfl)

theorem fetchFor_of_decode {a : Agent} {s : State} {c : Command} {i : Instr} (hc : nextCommand a s = some c)
    (hd : decode c = .ok i) : fetchFor a s = .command i s := by
  simp only [fetchFor, hc, hd]

/-- An enabled agent that heads the schedule runs its next command. -/
theorem step_of_head {s : State} {a : Agent} {rest : List Agent} {c : Command} {i : Instr} (hs : s.sched = a :: rest)
    (he : enabled a s = true) (ha : a = .isr → s.inIsr = true)
    (hc : nextCommand a (stepStart a { s with sched := rest }) = some c) (hd : decode c = .ok i) :
    step s = exec i (stepStart a { s with sched := rest }) := by
  have ht : nextTurn s = .command i (stepStart a { s with sched := rest }) := by
    unfold nextTurn
    rw [chooseAgent_of_head hs he, ← fetchFor_of_decode hc hd]
    exact turnOf_eq_fetchFor (u := { s with sched := rest }) ha
  unfold step
  rw [ht]

end Sys2Proof.Machine

namespace Sys2Proof.Proofs

open Sys2Proof.Machine Sys2Proof.Safety

/-- Settles O8: each agent's condition, and the choice among the enabled ones. -/
theorem anyEnabledAgentMayStep : Obligations.AnyEnabledAgentMayStep :=
  ⟨fun _ => enabled_dma_iff, fun _ => enabled_isr_iff, fun s h => if_neg (by rw [h]; decide), fun _ => enabled_coop_iff,
    fun s a h => chooseAgent_of_head rfl ((enabled_withSched a s _).trans h), fun _ _ _ h => (chooseAgent_some h).1⟩

/-- Settles O9, from the two outcomes that a step has. -/
theorem stepStopsExactlyWhenNoAgentIsEnabled : Obligations.StepStopsExactlyWhenNoAgentIsEnabled := by
  intro s
  rcases step_total s with ⟨hno, hs⟩ | ⟨⟨a, ha⟩, t, hs⟩ <;> rw [hs]
  · exact ⟨⟨fun _ => hno, fun _ => ⟨_, rfl⟩⟩, nofun⟩
  · refine ⟨⟨nofun, fun hno => ?_⟩, nofun⟩
    rw [hno a] at ha
    cases ha

/-- Settles O7, agent by agent; the words of the handler body and of the wire are encoded commands, so they decode back. -/
theorem stepRunsTheDecodedCommand : Obligations.StepRunsTheDecodedCommand := by
  refine ⟨?coop, ?isr, ?dma, ?listed, ?past⟩
  case coop =>
    intro s rest c i hf hin hs hc hd
    refine step_of_head hs (enabled_coop_iff.2 ⟨hf, hin, by simp [hc]⟩) nofun ?_ hd
    simp only [stepStart, nextCommand]
    rw [clientsAct_frame]
    exact hc
  case isr =>
    intro s rest m i hf hin hs hm hb
    have hn : nextCommand .isr s = some (encode i) := by simp [nextCommand, hm, hb]
    exact step_of_head hs (enabled_isr_iff.2 ⟨hf, .inl ⟨hin, by simp [hn]⟩⟩) (fun _ => hin) hn
      (decode_encode (handlerBody_wellFormed (params_n s.par).2 hb))
  case dma =>
    intro s rest fv hf hdrv hs hw
    have hn : nextCommand .dma s = some (encode (.dmaFrame fv)) := by simp [nextCommand, hw]
    exact step_of_head hs (enabled_dma_iff.2 ⟨hdrv, hf, by simp [hw]⟩) nofun hn (decode_encode rfl)
  case listed =>
    intro s k fv h
    simp only [wireAt, h]
  case past =>
    intro s k h
    simp only [wireAt, h]

end Sys2Proof.Proofs
end

section
/-! PROOFS. What every step leaves unchanged, and what it only adds to. -/

namespace Sys2Proof.Machine

/-- A step keeps the configuration of a streaming unit (10_state.md R26). -/
def ConfigKept (s t : State) : Prop := s.drv = .streaming → t.drv = .streaming ∧ t.mode = s.mode ∧ t.tk = s.tk

theorem ConfigKept.of_eq {s t : State} (hd : t.drv = s.drv) (hm : t.mode = s.mode) (hk : t.tk = s.tk) : ConfigKept s t :=
  fun h => ⟨hd.trans h, hm, hk⟩

theorem ConfigKept.trans {s t u : State} (h1 : ConfigKept s t) (h2 : ConfigKept t u) : ConfigKept s u := fun h =>
  have ⟨hd, hm, hk⟩ := h1 h
  have ⟨hd', hm', hk'⟩ := h2 hd
  ⟨hd', hm'.trans hm, hk'.trans hk⟩

/-- INIT alone writes the configuration, and it does not complete while streaming. -/
theorem Completes.configKept {i : Instr} {s t : State} (h : Completes i s t) : ConfigKept s t := by
  cases h with
  | init _ _ _ _ hd =>
    intro hs
    rw [hd] at hs
    cases hs
  | _ => exact .of_eq rfl rfl rfl

/-- The parameters and the inputs that no step consumes. -/
def FixedKept (s t : State) : Prop := t.par = s.par ∧ t.prog = s.prog ∧ t.wire = s.wire ∧ t.endless = s.endless

theorem FixedKept.trans {s t u : State} (h1 : FixedKept s t) (h2 : FixedKept t u) : FixedKept s u := by
  obtain ⟨hp, hg, hw, he⟩ := h1
  obtain ⟨hp', hg', hw', he'⟩ := h2
  exact ⟨hp'.trans hp, hg'.trans hg, hw'.trans hw, he'.trans he⟩

theorem Completes.fixedKept {i : Instr} {s t : State} (h : Completes i s t) : FixedKept s t := by
  obtain ⟨-, -, -, -, hp, hg, hw, he, -⟩ := h.keeps
  exact ⟨hp, hg, hw, he⟩

/-- A completing command appends to EVENTS (10_state.md R44). -/
theorem Completes.events_prefix {i : Instr} {s t : State} (h : Completes i s t) : s.events <+: t.events := by
  cases h with
  | dmaFrame => exact List.prefix_append ..
  | updall => exact List.prefix_append ..
  | alloc16 => exact List.prefix_append ..
  | alloc16Fail =>
    simp only [List.append_assoc]
    exact List.prefix_append ..
  | fwd => exact List.prefix_append ..
  | _ => exact List.prefix_refl _

/-- RAW is the 64N bytes from RAW_BASE, and WPOS names a frame of it (10_state.md R32, R42). -/
def RawInRange (s : State) : Prop :=
  s.wpos < 2 * s.par.n ∧ ∀ c ∈ s.raw, s.par.rawBase ≤ c.1 ∧ c.1 < s.par.rawBase + 64 * s.par.n

theorem RawInRange.congr {s t : State} (h : RawInRange s) (hw : t.wpos = s.wpos) (hr : t.raw = s.raw)
    (hp : t.par = s.par) : RawInRange t := by
  unfold RawInRange
  rwa [hw, hr, hp]

/-- The frame that WPOS names lies in the buffer (20_memory.md R61). -/
theorem RawInRange.frame {s : State} (h : RawInRange s) (fv : Frame) : RawInRange (afterFrame fv s) := by
  obtain ⟨hw, hr⟩ := h
  refine ⟨Nat.mod_lt _ (by omega), fun c hc => ?_⟩
  rcases mem_dmaWriteFrame hc with hc | ⟨h1, h2⟩
  · exact hr c hc
  · show s.par.rawBase ≤ c.1 ∧ c.1 < s.par.rawBase + 64 * s.par.n
    unfold wposAddr at h1 h2
    omega

theorem RawInRange.completes {i : Instr} {s t : State} (h : RawInRange s) (hc : Completes i s t) : RawInRange t := by
  cases hc with
  | dmaFrame fv => exact h.frame fv
  | init => exact ⟨by have := h.1; show 0 < 2 * s.par.n; omega, h.2⟩
  | _ => exact h.congr rfl rfl rfl

/-- SLOT is written by SWAP alone, inside the critical section (44_block_exchange.md R164). -/
theorem Completes.slot {i : Instr} {s t : State} (h : Completes i s t) :
    t.slot = s.slot ∨ (i = .swap ∧ s.actor = .coop ∧ s.irqMask = true ∧ t.slot = s.new ∧ t.ret = s.slot) := by
  cases h with
  | swap _ ha _ hm => exact .inr ⟨rfl, ha, hm, rfl, rfl⟩
  | _ => exact .inl rfl

/-- The issuing agent's index moves by one and no other; IRET sets the handler's to 0 (10_state.md R22). -/
def IndexMoves (i : Instr) (s t : State) : Prop :=
  t.pcCoop = (if s.actor = .coop then s.pcCoop + 1 else s.pcCoop) ∧
  t.pcDma = (if s.actor = .dma then s.pcDma + 1 else s.pcDma) ∧
  t.pcIsr = (if i = .iret then 0 else if s.actor = .isr then s.pcIsr + 1 else s.pcIsr)

theorem indexMoves_coop {i : Instr} {s t : State} (ha : s.actor = .coop) (hi : i ≠ .iret) (hc : t.pcCoop = s.pcCoop + 1)
    (hd : t.pcDma = s.pcDma) (hr : t.pcIsr = s.pcIsr) : IndexMoves i s t := by
  simp [IndexMoves, ha, hi, hc, hd, hr]

theorem indexMoves_isr {i : Instr} {s t : State} (ha : s.actor = .isr) (hi : i ≠ .iret) (hc : t.pcCoop = s.pcCoop)
    (hd : t.pcDma = s.pcDma) (hr : t.pcIsr = s.pcIsr + 1) : IndexMoves i s t := by
  simp [IndexMoves, ha, hi, hc, hd, hr]

theorem Completes.indexMoves {i : Instr} {s t : State} (h : Completes i s t) : IndexMoves i s t := by
  cases h with
  | dmaFrame fv _ ha => simp [IndexMoves, ha, afterFrame]
  | iret _ ha => simp [IndexMoves, ha]
  | transcodeSkip _ _ _ _ _ hi ha => exact indexMoves_isr ha hi.ne_iret_sel.1 rfl rfl rfl
  | transcode _ _ _ _ _ _ _ _ hi ha => exact indexMoves_isr ha hi.ne_iret_sel.1 rfl rfl rfl
  | sel _ ha => exact indexMoves_isr ha nofun rfl rfl rfl
  | cinvSkip _ _ ha => exact indexMoves_isr ha nofun rfl rfl rfl
  | cinv _ _ ha => exact indexMoves_isr ha nofun rfl rfl rfl
  | updall _ ha => exact indexMoves_isr ha nofun rfl rfl rfl
  | updallSkip _ ha => exact indexMoves_isr ha nofun rfl rfl rfl
  | _ => exact indexMoves_coop (by assumption) nofun rfl rfl rfl

end Sys2Proof.Machine

namespace Sys2Proof.Proofs

open Sys2Proof.Machine Sys2Proof.Safety

/-- Settles O19: of the commands only INIT writes the configuration, and it does not complete while streaming. -/
theorem configurationIsFixed : Obligations.ConfigurationIsFixed := fun _ _ h =>
  step_keeps ConfigKept (fun _ _ _ => .trans) (fun _ _ _ hu => by rw [stepStart_frame hu]; exact .of_eq rfl rfl rfl)
    (fun _ _ _ => .of_eq (by simp) (by simp) (by simp)) (fun _ _ _ => Completes.configKept) (fun _ => .of_eq rfl rfl rfl) h

/-- Settles O23: the frame that WPOS names lies in the buffer, and nothing else writes RAW. -/
theorem stepKeepsRawInItsRange : Obligations.StepKeepsRawInItsRange := fun _ _ hw hr h =>
  step_keeps (fun s t => RawInRange s → RawInRange t) (fun _ _ _ h1 h2 h => h2 (h1 h))
    (fun _ _ _ hu h => by rw [stepStart_frame hu]; exact h.congr rfl rfl rfl)
    (fun _ _ _ h => h.congr (by simp) (by simp) (by simp)) (fun _ _ _ hc h => h.completes hc)
    (fun _ h => h.congr rfl rfl rfl) h ⟨hw, hr⟩

/-- Settles O49, from what a fault and each completing command do to SLOT. -/
theorem onlySwapWritesSlot : Obligations.OnlySwapWritesSlot := by
  intro i s t h
  rcases exec_cases h with ⟨c, -, rfl⟩ | h
  · exact .inl (raiseFault_slot ..)
  · exact h.slot

/-- Settles O51, the new list beginning with the old one being the relation that every part of a step keeps. -/
theorem eventsOnlyGrow : Obligations.EventsOnlyGrow := by
  intro s t h
  have hp : s.events <+: t.events :=
    step_keeps (fun s t => s.events <+: t.events) (fun _ _ _ => List.IsPrefix.trans)
      (fun _ _ _ hu => by rw [stepStart_frame hu]) (fun _ _ _ => by rw [raiseFault_events])
      (fun _ _ _ => Completes.events_prefix) (fun _ => List.prefix_refl _) h
  exact hp.imp fun _ => Eq.symm

/-- Settles O52, from what no part of a step writes. -/
theorem parametersAndProgramsAreFixed : Obligations.ParametersAndProgramsAreFixed := fun _ _ h =>
  step_keeps FixedKept (fun _ _ _ => .trans) (fun _ _ _ hu => by rw [stepStart_frame hu]; exact ⟨rfl, rfl, rfl, rfl⟩)
    (fun _ _ _ => by simp [FixedKept]) (fun _ _ _ => Completes.fixedKept) (fun _ => ⟨rfl, rfl, rfl, rfl⟩) h

/-- Settles O53: a command that ends without a fault completed, and moved its agent's index. -/
theorem commandIndexAdvances : Obligations.CommandIndexAdvances := fun _ _ _ hf h ht =>
  (exec_completes hf h ht).indexMoves

end Sys2Proof.Proofs
end

section
/-! PROOFS. The word that COOP issued stands in FWORD after its fault (10_state.md R49). -/

namespace Sys2Proof

/-- Bits that a row fixes at 0 are 0 in every word of the row (30_encoding.md R91, R94). -/
theorem reserved_eq_zero {w : Word} {o : Op} (h : w &&& maskOf o = matchOf o) {a n : Nat}
    (hm : (maskOf o).extractLsb' a n = BitVec.allOnes n) (hz : (matchOf o).extractLsb' a n = 0#n) :
    w.extractLsb' a n = 0#n := by
  rw [← hz, ← h, BitVec.extractLsb'_and, hm, BitVec.and_allOnes]

/-- Bits 23:0 of a format X word are its frame operand over zeros (R92). -/
theorem operands_format_x {w : Word} (h : w.extractLsb' 16 8 = 0#8) :
    (0#8 ++ BitVec.ofNat 16 (frameField w) : BitVec 24) = w.extractLsb' 0 24 := by
  unfold frameField
  rw [BitVec.ofNat_toNat, BitVec.setWidth_eq, ← h]
  exact BitVec.extractLsb'_append_extractLsb'_eq_extractLsb' rfl

/-- Bits 23:0 of a format I word are its depth and timekeeper operands over zeros (R92). -/
theorem operands_format_i {w : Word} (h : w.extractLsb' 9 15 = 0#15) :
    (0#15 ++ BitVec.ofBool (tkField w) ++ BitVec.ofNat 8 (depthField w) : BitVec 24) = w.extractLsb' 0 24 := by
  have ht : BitVec.ofBool (tkField w) = w.extractLsb' 8 1 := by
    ext k hk
    simp [tkField, show k = 0 by omega]
  unfold depthField
  rw [BitVec.ofNat_toNat, BitVec.setWidth_eq, ← h, ht,
    BitVec.extractLsb'_append_extractLsb'_eq_extractLsb' (start₁ := 8) (len₁ := 1) rfl]
  exact BitVec.extractLsb'_append_extractLsb'_eq_extractLsb' rfl

/-- Bits 23:0 of a word that matches a row are those of the row's command. -/
theorem operandBits_assemble {c : Command} {o : Op} (h : c.word &&& maskOf o = matchOf o) :
    operandBits (assemble o c) = c.word.extractLsb' 0 24 := by
  cases o with
  | init => exact operands_format_i (reserved_eq_zero h (by decide) (by decide))
  | xc16 => exact operands_format_x (reserved_eq_zero h (by decide) (by decide))
  | xc24 => exact operands_format_x (reserved_eq_zero h (by decide) (by decide))
  | xc32 => exact operands_format_x (reserved_eq_zero h (by decide) (by decide))
  | xcuns => exact operands_format_x (reserved_eq_zero h (by decide) (by decide))
  | _ => exact (reserved_eq_zero h (by decide) (by decide)).symm

/-- A decoded command encodes to the word it came from (R94). -/
theorem encodeWord_of_decode {c : Command} {i : Instr} (h : decode c = .ok i) : encodeWord i = c.word := by
  obtain ⟨o, ho, rfl⟩ := decode_eq_ok.1 h
  have hm := decodeOp_eq_some.1 ho
  rw [word_split c.word, opcField_of_match hm, ← operandBits_assemble hm, encodeWord, opOf_assemble]

end Sys2Proof

namespace Sys2Proof.Proofs

open Sys2Proof.Machine Sys2Proof.Safety

/-- Settles O16: COOP's step fetches from the program as it was, and each fault writes the fetched word. -/
theorem faultRecordsTheIssuedWord : Obligations.FaultRecordsTheIssuedWord := by
  intro s t c h hact hf hc
  obtain ⟨a, u, he, -, hu, hstep⟩ := step_cases h
  have hnone := stepStart_fault he hu
  have hv := stepStart_frame (a := a) hu
  rcases hstep with ⟨rfl, -, rfl⟩ | ⟨-, c', hn, hx⟩
  · cases hact
  · generalize stepStart a u = v at hnone hv hn hx
    have hva : v.actor = a := by rw [hv]
    obtain ⟨hta, htw⟩ : t.actor = v.actor ∧ t.fword = c'.word := by
      rcases hx with ⟨i, hd, hx⟩ | ⟨e, -, rfl⟩
      · rcases exec_cases hx with ⟨code, -, rfl⟩ | hx
        · rw [raiseFault_of_none hnone]
          exact ⟨rfl, encodeWord_of_decode hd⟩
        · obtain ⟨-, hkeep, -⟩ := hx.keeps
          exact absurd (hkeep.trans hnone) hf
      · rw [raiseFault_of_none hnone]
        exact ⟨rfl, rfl⟩
    obtain rfl : a = .coop := hva.symm.trans (hta.symm.trans hact)
    have hc' : s.prog[s.pcCoop]? = some c' := by
      rw [hv] at hn
      exact hn
    rw [htw, Option.some.inj (hc'.symm.trans hc)]

end Sys2Proof.Proofs
end

section
/-! PROOFS. The register view (10_state.md R45): each register's word, field by field. -/

namespace Sys2Proof

/-! ### A flag below a word -/

variable {w : Nat} (x : BitVec w) (b : Bool)

theorem getLsbD_append_flag : (x ++ BitVec.ofBool b).getLsbD 0 = b := by
  rw [BitVec.getLsbD_append]
  simp

theorem getLsbD_append_flag_succ (k : Nat) : (x ++ BitVec.ofBool b).getLsbD (k + 1) = x.getLsbD k := by
  rw [BitVec.getLsbD_append, if_neg (by omega)]
  rfl

theorem extractLsb'_append_flag (k n : Nat) : (x ++ BitVec.ofBool b).extractLsb' (k + 1) n = x.extractLsb' k n :=
  BitVec.extractLsb'_append_eq_of_le (by omega)

end Sys2Proof

namespace Sys2Proof.Machine

/-! ### STAT -/

/-- STAT's six flags, from IRQ_MASK in bit 0 up (10_state.md R27). -/
theorem statWord_flags (s : State) :
    (statWord s).getLsbD 0 = s.irqMask ∧ (statWord s).getLsbD 1 = s.irqPending ∧ (statWord s).getLsbD 2 = s.inIsr ∧
    (statWord s).getLsbD 3 = decide (s.src = some .h1) ∧ (statWord s).getLsbD 4 = s.src.isSome ∧
    (statWord s).getLsbD 5 = slotsFull s := by
  unfold statWord
  refine ⟨?_, ?_, ?_, ?_, ?_, ?_⟩
  · rw [getLsbD_append_flag]
  · rw [getLsbD_append_flag_succ, getLsbD_append_flag]
  · rw [getLsbD_append_flag_succ, getLsbD_append_flag_succ, getLsbD_append_flag]
  · iterate 3 rw [getLsbD_append_flag_succ]
    rw [getLsbD_append_flag]
  · iterate 4 rw [getLsbD_append_flag_succ]
    rw [getLsbD_append_flag, srcValid]
  · iterate 5 rw [getLsbD_append_flag_succ]
    rw [getLsbD_append_flag]

/-- Above STAT's six flags stand FAGENT, FAULT and the reserved bits (R27). -/
theorem extractLsb'_statWord (s : State) (k n : Nat) :
    (statWord s).extractLsb' (k + 6) n = (0#16 ++ faultNumber s.fault ++ agentBits s.fagent).extractLsb' k n := by
  unfold statWord
  iterate 6 rw [extractLsb'_append_flag]

theorem statWord_fields (s : State) :
    (statWord s).extractLsb' 6 2 = agentBits s.fagent ∧ (statWord s).extractLsb' 8 8 = faultNumber s.fault ∧
    (statWord s).extractLsb' 16 16 = 0#16 := by
  refine ⟨(extractLsb'_statWord s 0 2).trans ?_, (extractLsb'_statWord s 2 8).trans ?_,
    (extractLsb'_statWord s 10 16).trans ?_⟩
  · exact BitVec.extractLsb'_append_eq_right
  · rw [BitVec.extractLsb'_append_eq_of_le (by decide)]
    exact BitVec.extractLsb'_append_eq_right
  · rw [BitVec.extractLsb'_append_eq_of_le (by decide)]
    exact BitVec.extractLsb'_append_eq_left

/-! ### CFG and WPOS -/

/-- CFG once MODE holds a value (10_state.md R23). -/
theorem cfgWord_fields {s : State} {m : BitDepth} (hm : s.mode = some m) :
    ∃ w, cfgWord s = some w ∧ w.extractLsb' 0 2 = modeBits m ∧ w.getLsbD 2 = s.tk ∧
      w.getLsbD 3 = decide (s.drv = .streaming) ∧ w.extractLsb' 4 28 = 0#28 := by
  refine ⟨_, by rw [cfgWord, hm, Option.map_some], BitVec.extractLsb'_append_eq_right, ?_, ?_, ?_⟩
  · rw [BitVec.getLsbD_append]
    exact getLsbD_append_flag ..
  · rw [BitVec.getLsbD_append]
    exact (getLsbD_append_flag_succ _ _ 0).trans (getLsbD_append_flag ..)
  · rw [BitVec.extractLsb'_append_eq_of_le (by decide)]
    exact ((extractLsb'_append_flag _ _ 1 28).trans (extractLsb'_append_flag _ _ 0 28)).trans BitVec.extractLsb'_eq_self

/-- WPOS fits its 17 bits, N being at most 65536 (R32). -/
theorem wposWord_fields {s : State} (h : s.wpos < 2 * s.par.n) :
    (wposWord s).toNat = s.wpos ∧ (wposWord s).extractLsb' 17 15 = 0#15 := by
  have hlt : s.wpos < 131072 := by have := (params_n s.par).2; omega
  refine ⟨?_, BitVec.extractLsb'_append_eq_left⟩
  have ht : (wposWord s).toNat = (0#15).toNat <<< 17 ||| (BitVec.ofNat 17 s.wpos).toNat := BitVec.toNat_append ..
  simpa [ht] using hlt

/-! ### The numbers -/

theorem regView_slot (s : State) {k : Nat} (hk : k < 16) : regView s (0x10 + k) = s.slot.list[k]? := by
  unfold regView
  iterate 5 rw [if_neg (by omega)]
  rw [if_pos (by omega), Nat.add_sub_cancel_left]

theorem regView_new (s : State) {k : Nat} (hk : k < 16) : regView s (0x20 + k) = s.new.list[k]? := by
  unfold regView
  iterate 6 rw [if_neg (by omega)]
  rw [if_pos (by omega), Nat.add_sub_cancel_left]

theorem regView_ret (s : State) {k : Nat} (hk : k < 16) : regView s (0x30 + k) = s.ret.list[k]? := by
  unfold regView
  iterate 7 rw [if_neg (by omega)]
  rw [if_pos (by omega), Nat.add_sub_cancel_left]

theorem regView_none (s : State) {k : Nat} (hk : (5 ≤ k ∧ k < 0x10) ∨ 0x40 ≤ k) : regView s k = Option.none := by
  unfold regView
  iterate 8 rw [if_neg (by omega)]

/-! ### EMPTY -/

theorem allEmpty_iff {b : Bank} : allEmpty b = true ↔ ∀ h ∈ b.list, h = emptyHandle := by
  simp [allEmpty]

theorem allFull_iff {b : Bank} : allFull b = true ↔ ∀ h ∈ b.list, h ≠ emptyHandle := by
  simp [allFull]

end Sys2Proof.Machine

namespace Sys2Proof.Proofs

open Sys2Proof.Machine Sys2Proof.Safety

/-- Settles O54, register by register. -/
theorem registerViewHasTheFields : Obligations.RegisterViewHasTheFields := by
  refine ⟨⟨rfl, rfl, rfl, rfl⟩, ⟨rfl, rfl, rfl, rfl, rfl, rfl, rfl, rfl, rfl, rfl⟩, ⟨rfl, rfl, rfl, rfl⟩, fun s => ?stat,
    fun s m hm => cfgWord_fields hm, fun s hw => ⟨_, rfl, wposWord_fields hw⟩, fun s => ⟨rfl, rfl⟩,
    fun s k hk => ⟨regView_slot s hk, regView_new s hk, regView_ret s hk⟩, rfl,
    fun b => ⟨b.len, allEmpty_iff, allFull_iff⟩, fun s k hk => regView_none s hk⟩
  case stat =>
    obtain ⟨hmask, hpend, hisr, hsrc, hvalid, hfull⟩ := statWord_flags s
    exact ⟨rfl, hmask, hpend, hisr, hsrc, hvalid, rfl, by rw [hfull]; exact allFull_iff, statWord_fields s⟩

end Sys2Proof.Proofs
end

section
/-! PROOFS. Who writes RAW and what a read's window rests on (20_memory.md R66, R67, R69, R81). -/

namespace Sys2Proof.Machine

/-! ### Which command writes what a read depends on -/

/-- DMA.FRAME alone writes RAW and its record (20_memory.md R69). -/
theorem Completes.rawAndPast {i : Instr} {s t : State} (h : Completes i s t) :
    (t.raw = s.raw ∧ t.rawPast = s.rawPast) ∨ (s.actor = .dma ∧ ∃ fv, i = .dmaFrame fv) := by
  cases h with
  | dmaFrame fv _ ha => exact .inr ⟨ha, fv, rfl⟩
  | _ => exact .inl ⟨rfl, rfl⟩

/-- SEL alone writes its mark, and CINV alone LASTINV (20_memory.md R67, R81). -/
theorem Completes.windowMarks {i : Instr} {s t : State} (h : Completes i s t) :
    (t.selAt = s.selAt ∨ (i = .sel ∧ t.selAt = s.now)) ∧ (t.lastInv = s.lastInv ∨ i = .cinv) := by
  cases h with
  | sel => exact ⟨.inr ⟨rfl, rfl⟩, .inl rfl⟩
  | cinv => exact ⟨.inl rfl, .inr rfl⟩
  | _ => exact ⟨.inl rfl, .inl rfl⟩

theorem exec_now {i : Instr} {s t : State} (h : exec i s = .next t) : t.now = s.now := by
  rcases exec_cases h with ⟨c, -, rfl⟩ | h
  · exact raiseFault_now ..
  · obtain ⟨-, -, -, -, -, -, -, -, -, -, hnow, -⟩ := h.keeps
    exact hnow

/-- The step's number is set as it begins, and no part of the step writes it again (10_state.md R43). -/
theorem step_now {s t : State} (h : step s = .next t) : t.now = s.now + 1 := by
  obtain ⟨a, u, -, -, hu, hc⟩ := step_cases h
  have hstart : (stepStart a u).now = s.now + 1 := by rw [stepStart_frame hu]
  rcases hc with ⟨rfl, -, rfl⟩ | ⟨-, c, -, ⟨i, -, hx⟩ | ⟨e, -, rfl⟩⟩
  · exact hstart
  · exact (exec_now hx).trans hstart
  · exact (raiseFault_now ..).trans hstart

/-! ### The window's start -/

theorem windowStart_cached {s : State} (h : s.par.hasDcache = true) (x : Nat) : windowStart s x = lastInvOf s x :=
  if_pos h

theorem windowStart_uncached {s : State} (h : s.par.hasDcache = false) (x : Nat) : windowStart s x = s.selAt := by
  simp [windowStart, h]

theorem halfIndex_eq (h : Half) : halfIndex h = if h = .h0 then 0 else 1 := by
  cases h <;> rfl

theorem execSel_ok {s : State} (ha : s.actor = .isr) (hd : s.drv = .streaming) :
    execSel s = .next { s with src := some (otherHalf (whalf s)), selAt := s.now, pcIsr := s.pcIsr + 1 } := by
  unfold execSel
  rw [streamingCommand_ok ha hd, advance_isr (by exact ha)]

theorem execCinv_ok {s : State} {h : Half} (ha : s.actor = .isr) (hd : s.drv = .streaming) (hs : s.src = some h)
    (he : allEmpty s.slot = false) :
    execCinv s = .next { s with lastInv := (invalidateHalf h s).lastInv, pcIsr := s.pcIsr + 1 } := by
  unfold execCinv
  rw [streamingCommand_ok ha hd]
  split
  · rename_i hnone
    exact absurd (hnone.symm.trans hs) nofun
  · rename_i hf hsrc
    obtain rfl : hf = h := Option.some.inj (hsrc.symm.trans hs)
    rw [if_neg (by simp [he]), invalidateHalf_eq, advance_isr (by exact ha)]

theorem cellGet_putAll {α : Type} (ks : List Nat) (v : α) (m : List (Nat × α)) (x : Nat) :
    cellGet (ks.foldl (fun m k => cellPut m k v) m) x = if x ∈ ks then some v else cellGet m x := by
  induction ks generalizing m with
  | nil => simp
  | cons k ks ih =>
    simp only [List.foldl_cons, ih, cellGet_cellPut, List.mem_cons]
    by_cases hx : x ∈ ks
    · simp [hx]
    · simp [hx, eq_comm]

/-- LINE divides RAW_BASE and 32N, so a byte's line is one of a half's lines exactly when the byte lies in the half (20_memory.md
R67, R71). -/
theorem lineBase_mem_halfLines {p : Params} (hc : p.hasDcache = true) (h : Half) (x : Nat) :
    lineBase p x ∈ halfLines p h ↔ halfBase p h ≤ x ∧ x < halfBase p h + 32 * p.n := by
  obtain ⟨hpos, ⟨c, hbase⟩, ⟨d, hhalf⟩⟩ := params_line p hc
  have hfirst : halfBase p h = p.line * (c + d * halfIndex h) := by
    rw [halfBase, hbase, hhalf]
    ring
  have hcount : 32 * p.n / p.line = d := by rw [hhalf, Nat.mul_div_cancel_left _ hpos]
  have hmem : lineBase p x ∈ halfLines p h ↔ ∃ k < d, c + d * halfIndex h + k = x / p.line := by
    simp only [halfLines, List.mem_map, List.mem_range, hcount, hfirst, lineBase, ← Nat.mul_add, Nat.mul_comm _ p.line,
      Nat.mul_right_inj hpos.ne']
  have hlow : halfBase p h ≤ x ↔ c + d * halfIndex h ≤ x / p.line := by
    rw [hfirst, Nat.le_div_iff_mul_le hpos, Nat.mul_comm]
  have hhigh : x < halfBase p h + 32 * p.n ↔ x / p.line < c + d * halfIndex h + d := by
    rw [hfirst, hhalf, ← Nat.mul_add, Nat.div_lt_iff_lt_mul hpos, Nat.mul_comm]
  rw [hmem, hlow, hhigh]
  constructor
  · rintro ⟨k, hk, e⟩
    omega
  · rintro ⟨h1, h2⟩
    exact ⟨x / p.line - (c + d * halfIndex h), by omega, by omega⟩

/-- With a cache, CINV sets LASTINV of the half's bytes to the current step, and of no other byte (20_memory.md R67). -/
theorem lastInvOf_invalidateHalf {s : State} (hc : s.par.hasDcache = true) (h : Half) (x : Nat) :
    lastInvOf (invalidateHalf h s) x =
      if halfBase s.par h ≤ x ∧ x < halfBase s.par h + 32 * s.par.n then s.now else lastInvOf s x := by
  unfold lastInvOf
  rw [invalidateHalf_par, invalidateHalf_lastInv, if_pos hc, cellGet_putAll]
  simp only [lineBase_mem_halfLines hc]
  split <;> rfl

/-! ### The record of what was overwritten -/

/-- A value that was overwritten after the window's start may still be read (20_memory.md R66). -/
theorem mem_heldSince_of_overwritten {s : State} {w a : Nat} {v : Option Byte} {o : Overwrite} (ho : o ∈ s.rawPast)
    (hw : w < o.step) (hv : overwrittenAt o a = some v) : v ∈ heldSince s w a :=
  mem_distinct.2 (List.mem_cons_of_mem _ (List.mem_filterMap.2 ⟨o, List.mem_filter.2 ⟨ho, decide_eq_true hw⟩, hv⟩))

end Sys2Proof.Machine

namespace Sys2Proof.Proofs

open Sys2Proof.Machine Sys2Proof.Safety

/-- Settles O22, from what a fault and each completing command do to RAW. -/
theorem onlyDmaWritesRaw : Obligations.OnlyDmaWritesRaw := by
  intro i s t h
  rcases exec_cases h with ⟨c, -, rfl⟩ | h
  · exact .inl ⟨raiseFault_raw .., raiseFault_rawPast ..⟩
  · exact h.rawAndPast

/-- Settles O60, clause by clause. -/
theorem readWindowIsRecorded : Obligations.ReadWindowIsRecorded := by
  refine ⟨fun _ _ => step_now, fun _ x hc => windowStart_cached hc x, fun _ x hc => windowStart_uncached hc x,
    fun s ha hd => ⟨_, execSel_ok ha hd, rfl⟩, ?cinv, ?marks, ?record⟩
  case cinv =>
    intro s h x ha hd hs he hc a hlow hhigh
    have ha' : a = halfBase s.par h := by rw [halfBase, halfIndex_eq, Nat.mul_assoc]
    refine ⟨_, execCinv_ok ha hd hs he, (windowStart_cached (by exact hc) x).trans ?_⟩
    have hinv := lastInvOf_invalidateHalf hc h x
    rw [← ha', if_pos ⟨hlow, hhigh⟩, invalidateHalf_eq] at hinv
    exact hinv
  case marks =>
    intro i s t h
    rcases exec_cases h with ⟨c, -, rfl⟩ | h
    · exact ⟨.inl (raiseFault_selAt ..), .inl (raiseFault_lastInv ..)⟩
    · exact h.windowMarks
  case record =>
    intro s t fv ha h a
    obtain rfl : afterFrame fv s = t := next_inj ((execDmaFrame_ok ha).symm.trans h)
    obtain ⟨added, hpast, honly, hall⟩ := rawPast_dmaWriteFrame a fv s
    refine ⟨added, hpast, honly, hall, fun x hlow hhigh hw => ?_⟩
    obtain ⟨o, ho, hv⟩ := hall x hlow hhigh
    have hmem : o ∈ (afterFrame fv s).rawPast := hpast ▸ List.mem_append_left _ ho
    exact mem_heldSince_of_overwritten hmem ((honly o ho).1.symm ▸ hw) hv

end Sys2Proof.Proofs
end

section
/-! PROOFS. A frame that the DMA wrote reads back whole, in either layout (20_memory.md R62 to R64). -/

namespace Sys2Proof.Machine

/-! ### A frame value and its slot words -/

/-- A field of a field is a field of the whole. -/
theorem extractLsb'_extractLsb' {w len k n : Nat} (x : BitVec w) {start : Nat} (h : k + n ≤ len) :
    (x.extractLsb' start len).extractLsb' k n = x.extractLsb' (start + k) n := by
  ext i hi
  have hlen : k + i < len := by omega
  simp [hlen, Nat.add_assoc]

/-- The upper halfword of word `j` is slot `2j` (R62). -/
theorem hi32_frameWord (fv : Frame) {j : Nat} (h : j < 8) : hi32 (frameWord fv j) = slotWord fv (2 * j) := by
  unfold hi32 frameWord slotWord
  rw [extractLsb'_extractLsb' fv (by decide)]
  congr 1
  omega

/-- The lower halfword of word `j` is slot `2j+1` (R62). -/
theorem lo32_frameWord (fv : Frame) {j : Nat} (h : j < 8) : lo32 (frameWord fv j) = slotWord fv (2 * j + 1) := by
  unfold lo32 frameWord slotWord
  rw [extractLsb'_extractLsb' fv (by decide)]
  congr 1
  omega

/-- The sixteen slot words of a frame value, in order (R64). -/
def slotWords (fv : Frame) : List Sample := (List.range 16).map (slotWord fv)

theorem halves_frameWords (fv : Frame) :
    ((List.range 8).map (frameWord fv)).flatMap (fun w => [hi32 w, lo32 w]) = slotWords fv := by
  have hw : ∀ j ∈ List.range 8,
      [hi32 (frameWord fv j), lo32 (frameWord fv j)] = [slotWord fv (2 * j), slotWord fv (2 * j + 1)] :=
    fun j hj => by rw [hi32_frameWord fv (List.mem_range.1 hj), lo32_frameWord fv (List.mem_range.1 hj)]
  rw [List.flatMap_map, List.flatMap_congr hw]
  rfl

/-- The first `n` slot words spell the frame's upper `16n` bits. -/
theorem foldl_slotWords (fv : Frame) {n : Nat} (h : n ≤ 16) :
    ((List.range n).map (slotWord fv)).foldl (fun acc w => 65536 * acc + w.toNat) 0 = fv.toNat / 2 ^ (256 - 16 * n) := by
  induction n with
  | zero => exact (Nat.div_eq_of_lt fv.isLt).symm
  | succ n ih =>
    have hsplit : 256 - 16 * n = 240 - 16 * n + 16 := by omega
    have hslot : (slotWord fv n).toNat = fv.toNat / 2 ^ (240 - 16 * n) % 65536 := by
      rw [slotWord, BitVec.extractLsb'_toNat, Nat.shiftRight_eq_div_pow]
    rw [List.range_succ, List.map_append, List.foldl_append, ih (by omega), hsplit, Nat.pow_add, ← Nat.div_div_eq_div_mul,
      show 256 - 16 * (n + 1) = 240 - 16 * n by omega]
    simp only [List.map_cons, List.map_nil, List.foldl_cons, List.foldl_nil, hslot]
    exact Nat.div_add_mod _ 65536

/-- The frame value of a frame's slot words is the frame (R64). -/
theorem frameOfSlots_slotWords (fv : Frame) : frameOfSlots (slotWords fv) = fv := by
  unfold frameOfSlots slotWords
  rw [foldl_slotWords fv (le_refl 16)]
  simp

/-- DMA.FRAME changes the 32 bytes of the frame that WPOS names and no other (41_raw_buffer.md R111). -/
theorem cellGet_afterFrame (fv : Frame) (s : State) (x : Nat) :
    cellGet (afterFrame fv s).raw x =
      if wposAddr s.par s.wpos ≤ x ∧ x < wposAddr s.par s.wpos + 32 then
        some (frameByte s.par.layout fv (x - wposAddr s.par s.wpos))
      else cellGet s.raw x :=
  cellGet_dmaWriteFrame ..

/-! ### Reads of bytes that have one value -/

/-- A byte that no recorded write covered since the window's start is read at its present value. -/
theorem cpuByte_settled {a : Nat} {s : State} {v : Byte} (hv : cellGet s.raw a = some v)
    (h : ∀ o ∈ s.rawPast, overwrittenAt o a ≠ Option.none → o.step ≤ windowStart s a) : cpuByte a s = (v, s) := by
  have hheld : heldSince s (windowStart s a) a = [some v] := by
    unfold heldSince
    rw [hv]
    refine distinct_eq_singleton fun y hy => ?_
    obtain ⟨o, ho, hoy⟩ := List.mem_filterMap.1 hy
    obtain ⟨hmem, hlate⟩ := List.mem_filter.1 ho
    have hle := h o hmem (by simp [hoy])
    exact absurd (of_decide_eq_true hlate) (Nat.not_lt.2 hle)
  simp [cpuByte_eq, hheld]

theorem memRead_of_bytes {bs : List Byte} {a : Nat} {s : State} (h : ∀ b v, bs[b]? = some v → cpuByte (a + b) s = (v, s)) :
    memRead a bs.length s = (bs, s) := by
  induction bs generalizing a with
  | nil => rfl
  | cons b bs ih =>
    have hfirst : cpuByte a s = (b, s) := h 0 b rfl
    have hrest : memRead (a + 1) bs.length s = (bs, s) := ih fun k v hk => by
      rw [Nat.add_assoc, Nat.add_comm 1 k]
      exact h (k + 1) v hk
    rw [List.length_cons, memRead_succ, hfirst, hrest]

/-- A value whose bytes are read one by one is read whole (R62, R63). -/
theorem memRead_leBytes {w k a : Nat} {v : BitVec w} {s : State}
    (h : ∀ b < k, cpuByte (a + b) s = (v.extractLsb' (8 * b) 8, s)) : memRead a k s = (leBytes k v, s) := by
  have hread := memRead_of_bytes (bs := leBytes k v) (a := a) (s := s) fun b x hx => by
    have hb : b < k := by simpa using (List.getElem?_eq_some_iff.1 hx).1
    rw [leBytes_getElem? v hb] at hx
    rw [h b hb, Option.some.inj hx]
  rwa [leBytes_length] at hread

theorem readSlots32_of_words {ws : List Word} {a : Nat} {s : State}
    (h : ∀ j w, ws[j]? = some w → memRead (a + 4 * j) 4 s = (leBytes 4 w, s)) :
    readSlots32 a ws.length s = (ws.flatMap fun w => [hi32 w, lo32 w], s) := by
  induction ws generalizing a with
  | nil => rfl
  | cons w ws ih =>
    have hfirst : memRead a 4 s = (leBytes 4 w, s) := h 0 w rfl
    have hrest := ih (a := a + 4) fun j x hx => by
      rw [show a + 4 + 4 * j = a + 4 * (j + 1) by omega]
      exact h (j + 1) x hx
    rw [List.length_cons, readSlots32_succ, hfirst, hrest, ofLeBytes_leBytes w (by decide)]
    rfl

theorem readSlots16_of_words {ws : List Sample} {a : Nat} {s : State}
    (h : ∀ k w, ws[k]? = some w → memRead (a + 2 * k) 2 s = (leBytes 2 w, s)) :
    readSlots16 a ws.length s = (ws, s) := by
  induction ws generalizing a with
  | nil => rfl
  | cons w ws ih =>
    have hfirst : memRead a 2 s = (leBytes 2 w, s) := h 0 w rfl
    have hrest := ih (a := a + 2) fun k x hx => by
      rw [show a + 2 + 2 * k = a + 2 * (k + 1) by omega]
      exact h (k + 1) x hx
    rw [List.length_cons, readSlots16_succ, hfirst, hrest, ofLeBytes_leBytes w (by decide)]

/-- Where each of a frame's bytes is read as DMA.FRAME wrote it, the frame is read whole, with no choice (R62 to R64). -/
theorem readFrame_of_bytes {h : Half} {f : Nat} {s : State} {fv : Frame}
    (hb : ∀ o < 32, cpuByte (frameAddr s.par h f + o) s = (frameByte s.par.layout fv o, s)) : readFrame h f s = (fv, s) := by
  suffices hslots : frameSlots h f s = (slotWords fv, s) by rw [readFrame_eq, hslots, frameOfSlots_slotWords]
  unfold frameSlots
  split
  case h_1 hl =>
    have hread := readSlots32_of_words (ws := (List.range 8).map (frameWord fv)) (a := frameAddr s.par h f) (s := s)
      fun j w hw => memRead_leBytes fun b hb4 => by
        obtain ⟨hj, rfl⟩ : j < 8 ∧ frameWord fv j = w := by simpa using List.getElem?_eq_some_iff.1 hw
        rw [Nat.add_assoc, hb (4 * j + b) (by omega), hl, frameByte]
        rw [show (4 * j + b) / 4 = j by omega, show (4 * j + b) % 4 = b by omega]
    rwa [halves_frameWords, List.length_map, List.length_range] at hread
  case h_2 hl =>
    have hread := readSlots16_of_words (ws := slotWords fv) (a := frameAddr s.par h f) (s := s)
      fun k w hw => memRead_leBytes fun b hb2 => by
        obtain ⟨hk, rfl⟩ : k < 16 ∧ slotWord fv k = w := by simpa [slotWords] using List.getElem?_eq_some_iff.1 hw
        rw [Nat.add_assoc, hb (2 * k + b) (by omega), hl, frameByte]
        rw [show (2 * k + b) / 2 = k by omega, show (2 * k + b) % 2 = b by omega]
    rwa [slotWords, List.length_map, List.length_range] at hread

end Sys2Proof.Machine

namespace Sys2Proof.Proofs

open Sys2Proof.Machine Sys2Proof.Safety

/-- Settles O21: each byte of the frame has one value that the window admits, the one DMA.FRAME wrote. -/
theorem settledFrameReadsBack : Obligations.SettledFrameReadsBack := by
  intro s t u fv h f k a ha hw ht hp hkept hwindow
  obtain rfl : afterFrame fv s = t := next_inj ((execDmaFrame_ok ha).symm.trans ht)
  have hread : frameAddr u.par h f = a := by rw [frameAddr, hp, halfIndex_eq]
  have hwritten : wposAddr s.par s.wpos = a := by rw [wposAddr, hw]
  refine readFrame_of_bytes fun o ho => ?_
  rw [hread, hp]
  refine cpuByte_settled ?_ (hwindow · · (a + o) (by omega) (by omega))
  rw [hkept (a + o) (by omega) (by omega), cellGet_afterFrame, hwritten, if_pos (by omega), Nat.add_sub_cancel_left]

end Sys2Proof.Proofs
end

section
/-! PROOFS. The decoder against the table of 30_encoding.md R93 to R96: its rows, the words it rejects, and what an illegal word
or a command of the wrong agent does when it is issued. -/

namespace Sys2Proof

/-- The fields of a word lie in their operand ranges (R92). -/
theorem assemble_wellFormed (o : Op) (c : Command) : (assemble o c).wellFormed = true := by
  have hdepth : depthField c.word < 256 := (c.word.extractLsb' 0 8).isLt
  have hframe : frameField c.word < 65536 := (c.word.extractLsb' 0 16).isLt
  cases o with
  | init => exact decide_eq_true hdepth
  | xc16 => exact decide_eq_true hframe
  | xc24 => exact decide_eq_true hframe
  | xc32 => exact decide_eq_true hframe
  | xcuns => exact decide_eq_true hframe
  | _ => rfl

/-- The row of a decoded command is the one that matches its word (R94). -/
theorem decode_row {c : Command} {o : Op} : (∃ i, decode c = .ok i ∧ opOf i = o) ↔ c.word &&& maskOf o = matchOf o := by
  constructor
  · rintro ⟨i, hi, rfl⟩
    obtain ⟨o, ho, rfl⟩ := decode_eq_ok.1 hi
    rw [opOf_assemble]
    exact decodeOp_eq_some.1 ho
  · exact fun h => ⟨assemble o c, decode_eq_ok.2 ⟨o, decodeOp_eq_some.2 h, rfl⟩, opOf_assemble o c⟩

/-- At most one row matches a word (R94). -/
theorem row_unique {w : Word} {o1 o2 : Op} (h1 : w &&& maskOf o1 = matchOf o1) (h2 : w &&& maskOf o2 = matchOf o2) :
    o1 = o2 :=
  opcOf_injective ((opcField_of_match h1).symm.trans (opcField_of_match h2))

/-- A word does not decode exactly when no row matches it (R95). -/
theorem decode_error_iff {c : Command} : (∃ e, decode c = .error e) ↔ ∀ o : Op, c.word &&& maskOf o ≠ matchOf o := by
  rw [decode_eq_error, Option.eq_none_iff_forall_ne_some]
  exact forall_congr' fun o => not_congr decodeOp_eq_some

/-- The bits below the opcode, as the mask 0x00FFFFFF selects them. -/
theorem and_lowMask (x : Word) : x &&& 0x00FFFFFF#32 = 0#8 ++ x.extractLsb' 0 24 := by
  rw [show 0x00FFFFFF#32 = 0#8 ++ BitVec.allOnes 24 by decide]
  conv_lhs => rw [word_split x]
  rw [BitVec.and_append, BitVec.and_zero, BitVec.and_allOnes]

/-- Masking with a row's mask keeps the opcode (R94). -/
theorem opcField_and_maskOf (w : Word) (o : Op) : opcField (w &&& maskOf o) = opcField w := by
  have hm : opcField (maskOf o) = BitVec.allOnes 8 := by cases o <;> decide
  unfold opcField at hm ⊢
  rw [BitVec.extractLsb'_and, hm, BitVec.and_allOnes]

/-- A word matches a row exactly when it has the row's opcode and zeros in the reserved bits of the row's format (R91, R94). -/
theorem match_iff {w : Word} {o : Op} :
    w &&& maskOf o = matchOf o ↔ opcOf o = opcField w ∧ w &&& maskOf o &&& 0x00FFFFFF#32 = 0#32 := by
  constructor
  · intro h
    refine ⟨(opcField_of_match h).symm, ?_⟩
    rw [h]
    cases o <;> decide
  · rintro ⟨hopc, hlow⟩
    have hzero : (w &&& maskOf o).extractLsb' 0 24 = 0#24 := by
      rw [and_lowMask] at hlow
      exact (BitVec.append_right_inj 0#8).1 hlow
    rw [word_split (w &&& maskOf o), opcField_and_maskOf, hzero, ← hopc, matchOf]

end Sys2Proof

namespace Sys2Proof.Machine

/-- Every command first checks who issued it (60_exceptions.md R212, R221). -/
theorem exec_eq_issuedBy (i : Instr) (s : State) : ∃ k, exec i s = issuedBy (agentOf (opOf i)) i s k := by
  cases i <;> exact ⟨_, rfl⟩

theorem issuedBy_wrongContext {a : Agent} {i : Instr} {s : State} {k : Result} (ha : s.actor ≠ a) :
    issuedBy a i s k = .next (raiseFault .wrongContext (encodeWord i) s) := by
  simp [issuedBy, ha]

/-- The first fault of a run, raised by agent `a` (60_exceptions.md R211). -/
theorem raiseFault_of_actor {a : Agent} {code : FaultCode} {w : Word} {s : State} (hf : s.fault = .none) (ha : s.actor = a) :
    raiseFault code w s = { s with fault := code, fagent := some a, fword := w } := by
  subst ha
  exact raiseFault_of_none hf

theorem fetchFor_of_error {a : Agent} {s : State} {c : Command} {e : DecodeError} (hc : nextCommand a s = some c)
    (hd : decode c = .error e) : fetchFor a s = .illegal (raiseFault .illegalCommand c.word s) := by
  simp only [fetchFor, hc, hd]

/-- The agent that takes a step is the issuing agent of its command (log entry 15). -/
theorem stepStart_actor {a : Agent} {s u : State} (hu : ChoiceOnly s u) : (stepStart a u).actor = a := by
  rw [stepStart_frame hu]

/-- The start of a step leaves the agent's next command as it was: no other pool client writes the program. -/
theorem nextCommand_stepStart {a : Agent} {s u : State} (hu : ChoiceOnly s u) :
    nextCommand a (stepStart a u) = nextCommand a s := by
  rw [stepStart_frame hu]
  cases a <;> rfl

/-- An enabled agent that heads the schedule, and does not enter the handler, fetches its next command. -/
theorem nextTurn_of_head {s : State} {a : Agent} {rest : List Agent} (hs : s.sched = a :: rest) (he : enabled a s = true)
    (ha : a = .isr → s.inIsr = true) : nextTurn s = fetchFor a (stepStart a { s with sched := rest }) := by
  unfold nextTurn
  rw [chooseAgent_of_head hs he]
  exact turnOf_eq_fetchFor (u := { s with sched := rest }) ha

/-- The same agent's illegal word faults (30_encoding.md R95). -/
theorem step_of_head_illegal {s : State} {a : Agent} {rest : List Agent} {c : Command} {e : DecodeError}
    (hs : s.sched = a :: rest) (he : enabled a s = true) (ha : a = .isr → s.inIsr = true)
    (hc : nextCommand a s = some c) (hd : decode c = .error e) :
    step s = .next { stepStart a { s with sched := rest } with
      fault := .illegalCommand, fagent := some a, fword := c.word } := by
  have hu : ChoiceOnly s { s with sched := rest } := rfl
  unfold step
  rw [nextTurn_of_head hs he ha, fetchFor_of_error ((nextCommand_stepStart hu).trans hc) hd,
    ← raiseFault_of_actor (stepStart_fault he hu) (stepStart_actor hu)]

end Sys2Proof.Machine

namespace Sys2Proof.Proofs

open Sys2Proof.Machine Sys2Proof.Safety

/-- Settles O2: an encoded word matches its own row, and each operand's field gives the operand back. -/
theorem decodeOfEncode : Obligations.DecodeOfEncode := fun _ => decode_encode

/-- Settles O3; of the rows only DMA.FRAME takes its operand from the payload. -/
theorem encodeOfDecode : Obligations.EncodeOfDecode := by
  intro c i h
  have hword := encodeWord_of_decode h
  obtain ⟨o, -, rfl⟩ := decode_eq_ok.1 h
  refine ⟨assemble_wellFormed o c, hword, fun ho => ?_⟩
  rw [opOf_assemble] at ho
  rw [ho]
  rfl

/-- Settles O4, clause by clause; that the rows are disjoint follows from their opcodes. -/
theorem decodingFollowsMaskAndMatch : Obligations.DecodingFollowsMaskAndMatch := by
  refine ⟨fun _ _ => decode_row, fun _ _ => opcOf_injective, fun o => ?_, fun _ _ _ => row_unique,
    fun _ => decode_error_iff.symm⟩
  cases o <;> decide

/-- Settles O5: a word that matches no row has no row's opcode, or a row's opcode and a 1 in a reserved bit. -/
theorem illegalWordsAreTheReservedOnes : Obligations.IllegalWordsAreTheReservedOnes := by
  intro c
  rw [decode_error_iff]
  constructor
  · intro hno
    by_cases hopc : ∃ o : Op, opcOf o = opcField c.word
    · obtain ⟨o, ho⟩ := hopc
      exact .inr ⟨o, ho, fun hlow => hno o (match_iff.2 ⟨ho, hlow⟩)⟩
    · exact .inl (not_exists.1 hopc)
  · rintro (hopc | ⟨o, ho, hlow⟩) o' hmatch
    · exact hopc o' (match_iff.1 hmatch).1
    · obtain ⟨ho', hlow'⟩ := match_iff.1 hmatch
      obtain rfl := opcOf_injective (ho.trans ho'.symm)
      exact hlow hlow'

/-- Settles O15: the first check of every command is who issued it. -/
theorem wrongContextFaults : Obligations.WrongContextFaults := by
  intro i s hf ha
  obtain ⟨k, hk⟩ := exec_eq_issuedBy i s
  rw [hk, issuedBy_wrongContext ha, raiseFault_of_none hf]
  rfl

/-- Settles O1: the decoder evaluates to the given answer on each of the sixteen words. -/
theorem exampleWordsDecode : Obligations.ExampleWordsDecode :=
  ⟨rfl, rfl, rfl, rfl, rfl, rfl, rfl, rfl, rfl, rfl, rfl, rfl, rfl, rfl, rfl, rfl⟩

/-- Settles O14: COOP heads the schedule and its word is illegal, in a state without a fault. -/
theorem illegalWordFaultsWhenIssued : Obligations.IllegalWordFaultsWhenIssued := by
  intro s rest c e hf hin hs hc hd
  exact step_of_head_illegal hs (enabled_coop_iff.2 ⟨hf, hin, by simp [hc]⟩) nofun hc hd

end Sys2Proof.Proofs
end

section
/-! PROOFS. What DMA.FRAME writes, byte by byte, and the state it leaves (41_raw_buffer.md R111). -/

namespace Sys2Proof

/-- The opcode 0x01 over 24 zero bits (30_encoding.md R91, R93). -/
theorem encodeWord_dmaFrame (fv : Frame) : encodeWord (.dmaFrame fv) = 0x01000000#32 := by
  show 0x01#8 ++ 0#24 = 0x01000000#32
  decide

end Sys2Proof

namespace Sys2Proof.Machine

/-- Byte `b` of word `j` is the byte of the frame that R62 puts there. -/
theorem frameByte_word32 (fv : Frame) {j b : Nat} (hb : b < 4) :
    frameByte .word32HiFirst fv (4 * j + b) = fv.extractLsb' (224 - 32 * j + 8 * b) 8 := by
  have hword : (4 * j + b) / 4 = j := by omega
  have hbyte : (4 * j + b) % 4 = b := by omega
  rw [frameByte, hword, hbyte, frameWord, extractLsb'_extractLsb' fv (by omega)]

/-- Byte `b` of halfword `k` is the byte of the frame that R63 puts there. -/
theorem frameByte_half16 (fv : Frame) {k b : Nat} (hb : b < 2) :
    frameByte .half16Seq fv (2 * k + b) = fv.extractLsb' (240 - 16 * k + 8 * b) 8 := by
  have hslot : (2 * k + b) / 2 = k := by omega
  have hbyte : (2 * k + b) % 2 = b := by omega
  rw [frameByte, hslot, hbyte, slotWord, extractLsb'_extractLsb' fv (by omega)]

/-- DMA.FRAME puts byte `o` of the frame at offset `o` from the position that WPOS names. -/
theorem cellGet_afterFrame_offset (fv : Frame) (s : State) {o : Nat} (ho : o < 32) :
    cellGet (afterFrame fv s).raw (wposAddr s.par s.wpos + o) = some (frameByte s.par.layout fv o) := by
  rw [cellGet_afterFrame, if_pos (by omega), Nat.add_sub_cancel_left]

end Sys2Proof.Machine

namespace Sys2Proof.Proofs

open Sys2Proof.Machine Sys2Proof.Safety

/-- Settles O20: DMA.FRAME of the DMA agent ends in `afterFrame`, whose memory is read off byte by byte in each layout. -/
theorem dmaFrameWritesAndAdvances : Obligations.DmaFrameWritesAndAdvances := by
  refine ⟨encodeWord_dmaFrame, fun s fv => wrongContextFaults (.dmaFrame fv) s, ?_⟩
  intro s fv ha a w
  have hbyte : ∀ o < 32, cellGet (afterFrame fv s).raw (a + o) = some (frameByte s.par.layout fv o) :=
    fun _ => cellGet_afterFrame_offset fv s
  refine ⟨afterFrame fv s, execDmaFrame_ok ha, ?word32, ?half16, ?outside, rfl⟩
  case word32 =>
    intro hl j hj b hb
    rw [Nat.add_assoc, hbyte (4 * j + b) (by omega), hl, frameByte_word32 fv hb]
  case half16 =>
    intro hl k hk b hb
    rw [Nat.add_assoc, hbyte (2 * k + b) (by omega), hl, frameByte_half16 fv hb]
  case outside =>
    intro x hx
    exact (cellGet_afterFrame fv s x).trans (if_neg (show ¬(a ≤ x ∧ x < a + 32) by omega))

end Sys2Proof.Proofs
end

section
/-! PROOFS. The frame transcoder (42_transcoder.md): one account of the four XC* commands, by the mode each belongs to, then
what each writes. -/

namespace Sys2Proof

/-- A format X word is its row's match over the frame operand (30_encoding.md R91, R92). -/
theorem encodeWord_format_x {i : Instr} {o : Op} {w : Word} {f : Nat} (ho : opOf i = o) (hw : matchOf o = w)
    (hi : operandBits i = 0#8 ++ BitVec.ofNat 16 f) (hf : f < 65536) : encodeWord i = w ||| BitVec.ofNat 32 f := by
  have hoperand : BitVec.ofNat 32 f = 0#8 ++ operandBits i := by
    have hmod : f % 4294967296 = f % 65536 := by omega
    refine BitVec.eq_of_toNat_eq ?_
    rw [hi, BitVec.toNat_append, BitVec.toNat_append]
    simpa using hmod
  rw [encodeWord, ho, ← hw, matchOf, hoperand, BitVec.or_append, BitVec.or_zero, BitVec.zero_or]

end Sys2Proof

namespace Sys2Proof.Machine

/-! ### The sixteen values of a mode -/

/-- The values a mode's transcoder command writes, by block (R123 to R126). -/
def lanesOf : BitDepth → Frame → List Sample
  | .bits16, _ => silentLanes
  | .bits24, fv => lanes24 fv
  | .bits32, fv => lanes32 fv
  | .unsupported, _ => silentLanes

theorem lanesOf_length (m : BitDepth) (fv : Frame) : (lanesOf m fv).length = 16 := by
  cases m <;> rfl

/-- The entries of a list of pairs: pair `i` stands at places `2i` and `2i+1` (R130). -/
theorem getElem?_pairs {α : Type} (a b : Nat → α) {n i : Nat} (h : i < n) :
    ((List.range n).flatMap fun j => [a j, b j])[2 * i]? = some (a i) ∧
      ((List.range n).flatMap fun j => [a j, b j])[2 * i + 1]? = some (b i) := by
  induction n with
  | zero => omega
  | succ n ih =>
    have hlen : ((List.range n).flatMap fun j => [a j, b j]).length = 2 * n := by
      simp [List.length_flatMap, Nat.mul_comm]
    rw [List.range_succ, List.flatMap_append]
    by_cases hi : i < n
    · rw [List.getElem?_append_left (by omega), List.getElem?_append_left (by omega)]
      exact ih hi
    · obtain rfl : i = n := by omega
      rw [List.getElem?_append_right (by omega), List.getElem?_append_right (by omega), hlen, Nat.sub_self,
        Nat.add_sub_cancel_left]
      exact ⟨rfl, rfl⟩

/-- The hi and lo words of the eight 32-bit channels are the frame's slot words in order (R125). -/
theorem lanes32_eq (fv : Frame) : lanes32 fv = slotWords fv := by
  have hpair : ∀ i, [hi32 (channel32 fv i), lo32 (channel32 fv i)] = [slotWord fv (2 * i), slotWord fv (2 * i + 1)] :=
    fun i => by rw [hi32, lo32, channel32, BitVec.extractLsb'_append_eq_left, BitVec.extractLsb'_append_eq_right]
  rw [lanes32, List.flatMap_congr fun i _ => hpair i]
  rfl

theorem lanes32_getElem? (fv : Frame) {k : Nat} (hk : k < 16) : (lanes32 fv)[k]? = some (slotWord fv k) := by
  rw [lanes32_eq, slotWords, List.getElem?_map, List.getElem?_range hk]
  rfl

/-- The hi word of a packed field is its top 16 bits (R132). -/
theorem hi24_channel24 (fv : Frame) {i : Nat} (hi : i < 8) : hi24 (channel24 fv i) = fv.extractLsb' (240 - 24 * i) 16 := by
  rw [hi24, channel24, extractLsb'_extractLsb' fv (by decide)]
  congr 1
  omega

/-- The lo word of a packed field is its low 8 bits over a zero byte (R132). -/
theorem lo24_channel24 (fv : Frame) (i : Nat) : lo24 (channel24 fv i) = fv.extractLsb' (232 - 24 * i) 8 ++ 0#8 := by
  have hshift : ∀ b : Byte, b.setWidth 16 <<< 8 = b ++ 0#8 := by decide
  rw [lo24, hshift, channel24]
  exact congrArg (· ++ 0#8) (extractLsb'_extractLsb' fv (by decide))

theorem lanes24_getElem? (fv : Frame) {i : Nat} (hi : i < 8) :
    (lanes24 fv)[2 * i]? = some (fv.extractLsb' (240 - 24 * i) 16) ∧
      (lanes24 fv)[2 * i + 1]? = some (fv.extractLsb' (232 - 24 * i) 8 ++ 0#8) := by
  rw [← hi24_channel24 fv hi, ← lo24_channel24]
  exact getElem?_pairs _ _ hi

/-! ### Writing the lanes -/

/-- At index `f` a listed block ends with one of the lanes' values, whatever the storage was before. -/
theorem blkRead_writeLanes_mem {hs : List Handle} {vs : List Sample} {g : Handle} (f : Nat)
    (hlen : hs.length ≤ vs.length) (hg : g ∈ hs) (he : g ≠ emptyHandle) :
    ∃ v ∈ vs, ∀ s, blkRead (writeLanes hs vs f s) g f = v := by
  induction hs generalizing vs with
  | nil => cases hg
  | cons h hs ih =>
    cases vs with
    | nil => simp at hlen
    | cons v vs =>
      by_cases htail : g ∈ hs
      · obtain ⟨u, hu, hread⟩ := ih (by simpa using hlen) htail
        exact ⟨u, List.mem_cons_of_mem _ hu, fun s => hread _⟩
      · obtain rfl : g = h := (List.mem_cons.1 hg).resolve_right htail
        refine ⟨v, List.mem_cons_self .., fun s => ?_⟩
        rw [writeLanes, blkRead_writeLanes_other (.inl htail), blkRead_blkWrite, if_pos ⟨he, rfl, rfl⟩]

/-! ### The command of a mode -/

/-- Each transcoder command belongs to a mode. -/
theorem isTranscoder_of_command {i : Instr} {f : Nat} (hi : i = .xc16 f ∨ i = .xc24 f ∨ i = .xc32 f ∨ i = .xcuns f) :
    ∃ m, IsTranscoder i m f := by
  rcases hi with rfl | rfl | rfl | rfl
  · exact ⟨_, .inl ⟨rfl, rfl⟩⟩
  · exact ⟨_, .inr (.inl ⟨rfl, rfl⟩)⟩
  · exact ⟨_, .inr (.inr (.inl ⟨rfl, rfl⟩))⟩
  · exact ⟨_, .inr (.inr (.inr ⟨rfl, rfl⟩))⟩

/-- The state after the read of a mode's command: only the two wide modes read RAW (R123, R126). -/
def afterRead (m : BitDepth) (h : Half) (f : Nat) (s : State) : State :=
  match m with
  | .bits16 => s
  | .bits24 => (readFrame h f s).2
  | .bits32 => (readFrame h f s).2
  | .unsupported => s

theorem afterRead_drawsOnly (m : BitDepth) (h : Half) (f : Nat) (s : State) : DrawsOnly s (afterRead m h f s) := by
  cases m with
  | bits16 => exact .refl s
  | bits24 => exact readFrame_drawsOnly h f s
  | bits32 => exact readFrame_drawsOnly h f s
  | unsupported => exact .refl s

/-- Every transcoder command is its mode's check, read and write (R120 to R126). -/
theorem exec_transcoder {i : Instr} {m : BitDepth} {f : Nat} (hi : IsTranscoder i m f) (s : State) :
    exec i s = xcCheck m f i s fun h => transcodeTo (lanesOf m (readFrame h f s).1) f (afterRead m h f s) := by
  rcases hi with ⟨rfl, rfl⟩ | ⟨rfl, rfl⟩ | ⟨rfl, rfl⟩ | ⟨rfl, rfl⟩ <;> rfl

/-- The state in which a mode's command completes when SLOT is not all EMPTY. -/
def transcoded (m : BitDepth) (h : Half) (f : Nat) (s : State) : State :=
  { s with
    blk := (writeLanes s.slot.list (lanesOf m (readFrame h f s).1) f s).blk
    draws := (afterRead m h f s).draws
    drawn := (afterRead m h f s).drawn
    pcIsr := s.pcIsr + 1 }

theorem transcodeTo_afterRead (m : BitDepth) (h : Half) (f : Nat) {s : State} (ha : s.actor = .isr) :
    transcodeTo (lanesOf m (readFrame h f s).1) f (afterRead m h f s) = .next (transcoded m h f s) := by
  have hr := afterRead_drawsOnly m h f s
  have hstate : Transcoded s _ (lanesOf m (readFrame h f s).1) f (afterRead m h f s) := ⟨hr, rfl⟩
  rw [transcodeTo_eq (by rw [hr]; exact ha), hstate.eq]
  rfl

/-- A populated SLOT is not all EMPTY (10_state.md R36). -/
theorem allEmpty_of_allFull {b : Bank} (h : allFull b = true) : allEmpty b = false := by
  have hpos : 0 < b.list.length := by simp [b.len]
  have hmem := List.getElem_mem hpos
  refine Bool.eq_false_iff.2 fun he => ?_
  exact allFull_iff.1 h _ hmem (allEmpty_iff.1 he _ hmem)

/-- A command of the configured mode, issued in the handler with a source and a populated SLOT, completes. -/
theorem exec_transcoder_full {i : Instr} {m : BitDepth} {f : Nat} {s : State} {h : Half} (hi : IsTranscoder i m f)
    (ha : s.actor = .isr) (hd : s.drv = .streaming) (hm : s.mode = some m) (hs : s.src = some h) (hf : f < s.par.n)
    (hfull : allFull s.slot = true) : exec i s = .next (transcoded m h f s) := by
  rw [exec_transcoder hi, xcCheck_ok ha hd hm hs hf, allEmpty_of_allFull hfull, transcodeTo_afterRead m h f ha]
  rfl

/-- A transcoder command that ends without a fault skipped an all-EMPTY SLOT or transcoded its frame. -/
theorem exec_transcoder_completes {i : Instr} {m : BitDepth} {f : Nat} {s t : State} (hi : IsTranscoder i m f)
    (hf : s.fault = .none) (hx : exec i s = .next t) (ht : t.fault = .none) :
    ∃ h, s.src = some h ∧
      ((allEmpty s.slot = true ∧ t = { s with pcIsr := s.pcIsr + 1 }) ∨
       (allEmpty s.slot = false ∧ t = transcoded m h f s)) := by
  rw [exec_transcoder hi] at hx
  obtain ⟨ha, -, -, -, h, hs, hcase⟩ := (xcCheck_cases hx).resolve_left fun hfault => (hfault.eq hf).1 ht
  refine ⟨h, hs, hcase.imp id fun ⟨he, hw⟩ => ⟨he, ?_⟩⟩
  rw [transcodeTo_afterRead m h f ha] at hw
  exact (next_inj hw).symm

/-! ### The samples afterwards -/

/-- Only index `f` of the SLOT blocks changes (R127). -/
theorem blkRead_transcoded_other (m : BitDepth) (h : Half) {f : Nat} {s : State} {g : Handle} {j : Nat}
    (hg : g ∉ s.slot.list ∨ j ≠ f) : blkRead (transcoded m h f s) g j = blkRead s g j :=
  blkRead_writeLanes_other hg

/-- With distinct blocks, block `SLOT[k]` holds lane `k` (R130). -/
theorem blkRead_transcoded_lane {m : BitDepth} {h : Half} {f : Nat} {s : State} (hfull : allFull s.slot = true)
    (hn : s.slot.list.Nodup) {k : Nat} {g : Handle} {v : Sample} (hk : s.slot.list[k]? = some g)
    (hv : (lanesOf m (readFrame h f s).1)[k]? = some v) : blkRead (transcoded m h f s) g f = v :=
  blkRead_writeLanes hn (fun he => allFull_iff.1 hfull _ he rfl) hk hv

/-- A SLOT block holds one of the sixteen values at index `f`, which one being fixed by SLOT and those values (R127). -/
theorem blkRead_transcoded_mem (f : Nat) (lanes : List Sample) (b : Bank) {g : Handle} (hl : lanes.length = 16)
    (hg : g ∈ b.list) (he : g ≠ emptyHandle) :
    ∃ v ∈ lanes, ∀ (m : BitDepth) (h : Half) (s : State), lanesOf m (readFrame h f s).1 = lanes → s.slot = b →
      blkRead (transcoded m h f s) g f = v := by
  obtain ⟨v, hv, hread⟩ := blkRead_writeLanes_mem (vs := lanes) f (by rw [b.len, hl]) hg he
  refine ⟨v, hv, fun m h s hlanes hslot => ?_⟩
  subst hlanes hslot
  exact hread s

/-! ### Blindness to the raw buffer -/

/-- The state over another raw buffer. -/
def withRaw (m : Memory) (past : List Overwrite) (s : State) : State := { s with raw := m, rawPast := past }

/-- The outcome over another raw buffer. -/
def withRawResult (m : Memory) (past : List Overwrite) : Result → Result
  | .next t => .next (withRaw m past t)
  | .fault r => .fault r
  | .refused r => .refused r

section

variable (m : Memory) (past : List Overwrite)

@[simp] theorem withRaw_actor (s : State) : (withRaw m past s).actor = s.actor := rfl
@[simp] theorem withRaw_drv (s : State) : (withRaw m past s).drv = s.drv := rfl
@[simp] theorem withRaw_mode (s : State) : (withRaw m past s).mode = s.mode := rfl
@[simp] theorem withRaw_src (s : State) : (withRaw m past s).src = s.src := rfl
@[simp] theorem withRaw_par (s : State) : (withRaw m past s).par = s.par := rfl
@[simp] theorem withRaw_slot (s : State) : (withRaw m past s).slot = s.slot := rfl
@[simp] theorem withRawResult_next (s : State) : withRawResult m past (.next s) = .next (withRaw m past s) := rfl

theorem raiseFault_withRaw (c : FaultCode) (w : Word) (s : State) :
    raiseFault c w (withRaw m past s) = withRaw m past (raiseFault c w s) := by
  by_cases hf : s.fault = .none
  · rw [raiseFault_of_none hf, raiseFault_of_none (by exact hf)]
    rfl
  · rw [raiseFault_of_fault hf, raiseFault_of_fault (by exact hf)]

theorem require_withRaw (b : Bool) (c : FaultCode) (i : Instr) (s : State) (k : Result) :
    require b c i (withRaw m past s) (withRawResult m past k) = withRawResult m past (require b c i s k) := by
  cases b with
  | true => rfl
  | false => exact congrArg Host.Outcome.next (raiseFault_withRaw m past c _ s)

theorem advance_withRaw (s : State) : advance (withRaw m past s) = withRaw m past (advance s) := by
  cases ha : s.actor with
  | coop =>
    rw [advance_coop ha, advance_coop (by exact ha)]
    rfl
  | isr =>
    rw [advance_isr ha, advance_isr (by exact ha)]
    rfl
  | dma =>
    rw [advance_dma ha, advance_dma (by exact ha)]
    rfl

theorem transcodeTo_withRaw (lanes : List Sample) (f : Nat) (s : State) :
    transcodeTo lanes f (withRaw m past s) = withRawResult m past (transcodeTo lanes f s) := by
  have hwrite : writeLanes s.slot.list lanes f (withRaw m past s) = withRaw m past (writeLanes s.slot.list lanes f s) := by
    rw [writeLanes_eq, writeLanes_eq _ _ _ s, writeLanes_blk_congr _ _ _ (show (withRaw m past s).blk = s.blk from rfl)]
    rfl
  refine congrArg Host.Outcome.next ?_
  rw [← advance_withRaw, ← hwrite]
  rfl

/-- The checks of R120 do not look at RAW. -/
theorem xcCheck_withRaw (d : BitDepth) (f : Nat) (i : Instr) (s : State) (k : Result) :
    xcCheck d f i (withRaw m past s) (fun _ => withRawResult m past k) =
      withRawResult m past (xcCheck d f i s fun _ => k) := by
  unfold xcCheck streamingCommand issuedBy
  simp only [← require_withRaw, withRaw_actor, withRaw_drv, withRaw_mode, withRaw_src, withRaw_par, withRaw_slot]
  cases s.src with
  | none =>
    rw [raiseFault_withRaw, withRawResult_next]
    rfl
  | some h =>
    simp only [← require_withRaw, advance_withRaw, apply_ite (withRawResult m past), withRawResult_next]
    rfl

end

end Sys2Proof.Machine

namespace Sys2Proof.Proofs

open Sys2Proof.Machine Sys2Proof.Safety

/-- Settles O25: lane `k` of mode Bits32 is slot word `k`. -/
theorem xc32WritesSlotWords : Obligations.Xc32WritesSlotWords := by
  refine ⟨fun f hf => encodeWord_format_x (o := .xc32) rfl (by decide) rfl hf, fun s h f ha hd hm hs hf hfull hn => ?_⟩
  refine ⟨transcoded .bits32 h f s, exec_transcoder_full (.inr (.inr (.inl ⟨rfl, rfl⟩))) ha hd hm hs hf hfull,
    fun k g hk => ?_, fun _ _ => blkRead_transcoded_other .bits32 h, rfl⟩
  have hk16 : k < 16 := by
    rw [← s.slot.len]
    exact (List.getElem?_eq_some_iff.1 hk).1
  exact blkRead_transcoded_lane hfull hn hk (lanes32_getElem? _ hk16)

/-- Settles O26: lanes `2i` and `2i+1` of mode Bits24 are the two parts of packed field `i`. -/
theorem xc24WritesHiAndLo : Obligations.Xc24WritesHiAndLo := by
  refine ⟨fun f hf => encodeWord_format_x (o := .xc24) rfl (by decide) rfl hf, fun s h f ha hd hm hs hf hfull hn => ?_⟩
  exact ⟨transcoded .bits24 h f s, exec_transcoder_full (.inr (.inl ⟨rfl, rfl⟩)) ha hd hm hs hf hfull,
    fun i g hi hk => blkRead_transcoded_lane hfull hn hk (lanes24_getElem? _ hi).1,
    fun i g hi hk => blkRead_transcoded_lane hfull hn hk (lanes24_getElem? _ hi).2,
    fun _ _ => blkRead_transcoded_other .bits24 h, rfl⟩

/-- Settles O27: every lane of the two silent modes is zero, and they read nothing. -/
theorem xc16AndXcunsWriteSilence : Obligations.Xc16AndXcunsWriteSilence := by
  refine ⟨fun f hf => ⟨encodeWord_format_x (o := .xc16) rfl (by decide) rfl hf,
    encodeWord_format_x (o := .xcuns) rfl (by decide) rfl hf⟩, ?_⟩
  intro i m s h f hi ha hd hm hs hf hfull
  have hsilent : lanesOf m (readFrame h f s).1 = silentLanes ∧ afterRead m h f s = s := by
    rcases hi with ⟨-, rfl⟩ | ⟨-, rfl⟩ <;> exact ⟨rfl, rfl⟩
  obtain ⟨hlanes, hread⟩ := hsilent
  refine ⟨transcoded m h f s, exec_transcoder_full (hi.imp id (.inr ∘ .inr)) ha hd hm hs hf hfull, fun g hg => ?_,
    fun _ _ => blkRead_transcoded_other m h, ?_⟩
  · obtain ⟨v, hv, hw⟩ := blkRead_transcoded_mem f silentLanes s.slot rfl hg (allFull_iff.1 hfull g hg)
    rw [hw m h s hlanes rfl]
    exact List.eq_of_mem_replicate hv
  · simp only [transcoded, hread]

/-- Settles O28: after its checks each command skips (42_transcoder.md R120). -/
theorem emptySlotSkipsTranscoding : Obligations.EmptySlotSkipsTranscoding := by
  intro i m s h f hi ha hd hm hs hf he
  rw [exec_transcoder hi, xcCheck_ok ha hd hm hs hf, if_pos he]

/-- Settles O29: checks, fault, skip and zero-fill each commute with replacing RAW and its history. -/
theorem silenceIgnoresRaw : Obligations.SilenceIgnoresRaw := by
  intro i s t f m past hi h
  have hblind : exec i (withRaw m past s) = withRawResult m past (exec i s) := by
    rcases hi with rfl | rfl <;>
    · refine Eq.trans ?_ (xcCheck_withRaw m past _ f _ s (transcodeTo silentLanes f s))
      rw [← transcodeTo_withRaw]
      rfl
  exact hblind.trans (congrArg (withRawResult m past) h)

/-- Settles O30: both ways to complete have that frame; a SLOT block's last lane decides its sample. -/
theorem transcoderIsPure : Obligations.TranscoderIsPure := by
  constructor
  case left =>
    intro i f s t hi hf hx ht
    obtain ⟨m, hi⟩ := isTranscoder_of_command hi
    obtain ⟨h, -, ⟨-, rfl⟩ | ⟨-, rfl⟩⟩ := exec_transcoder_completes hi hf hx ht
    · exact ⟨rfl, fun _ _ _ => rfl⟩
    · exact ⟨rfl, fun _ _ => blkRead_transcoded_other m h⟩
  case right =>
    intro i f s s' t t' h h' hi hf hf' hx hx' ht ht' _ hslot hs hs' hframe g hg he
    obtain ⟨m, hi⟩ := isTranscoder_of_command hi
    have hnotEmpty : ¬allEmpty s.slot = true := fun hall => he (allEmpty_iff.1 hall g hg)
    obtain ⟨k, hk, hcase⟩ := exec_transcoder_completes hi hf hx ht
    obtain ⟨k', hk', hcase'⟩ := exec_transcoder_completes hi hf' hx' ht'
    obtain rfl : h = k := Option.some.inj (hs.symm.trans hk)
    obtain rfl : h' = k' := Option.some.inj (hs'.symm.trans hk')
    obtain ⟨-, rfl⟩ := hcase.resolve_left fun hskip => hnotEmpty hskip.1
    obtain ⟨-, rfl⟩ := hcase'.resolve_left fun hskip => hnotEmpty (hslot ▸ hskip.1)
    obtain ⟨v, -, hv⟩ := blkRead_transcoded_mem f _ s.slot (lanesOf_length m (readFrame h f s).1) hg he
    rw [hv m h s rfl rfl, hv m h' s' (by rw [hframe]) hslot.symm]

/-- Settles O31, from O25 and O26: the two samples are the two parts of the channel's bits. -/
theorem pairsReconstructChannels : Obligations.PairsReconstructChannels := by
  intro s t h f i hi lo ha hd hs hf hfull hn hi8 hhi hlo
  constructor
  case left =>
    intro hm hx
    obtain ⟨u, hu, hread, -, -⟩ := xc32WritesSlotWords.2 s h f ha hd hm hs hf hfull hn
    obtain rfl : u = t := next_inj (hu.symm.trans hx)
    rw [hread _ _ hhi, hread _ _ hlo]
    rfl
  case right =>
    intro hm hx
    obtain ⟨u, hu, hreadHi, hreadLo, -, -⟩ := xc24WritesHiAndLo.2 s h f ha hd hm hs hf hfull hn
    obtain rfl : u = t := next_inj (hu.symm.trans hx)
    rw [hreadHi i hi hi8 hhi, hreadLo i lo hi8 hlo, BitVec.extractLsb'_append_eq_left, BitVec.extractLsb'_append_eq_right]
    exact ⟨BitVec.extractLsb'_append_extractLsb'_eq_extractLsb' (by omega), rfl⟩

end Sys2Proof.Proofs
end

section
/-! PROOFS. The interrupt handler's body and its own commands (43_interrupt_handler.md R140 to R144): what each does where it
completes, and the fault before INIT. -/

namespace Sys2Proof.Machine

open Sys2Proof.Safety

/-! ### The body -/

theorem handlerBody_length (m : BitDepth) (n : Nat) : (handlerBody m n).length = n + 4 := by
  simp [handlerBody, xcall]

/-- Between CINV and UPDALL stands the mode's transcoder command for each frame (R140). -/
theorem handlerBody_transcoder (m : BitDepth) {n f : Nat} (hf : f < n) : (handlerBody m n)[f + 2]? = some (xcOf m f) := by
  show (xcall m n ++ [.updall, .iret])[f]? = some (xcOf m f)
  rw [List.getElem?_append_left (by simpa [xcall] using hf)]
  simp [xcall, hf]

/-- The body ends with UPDALL and IRET (R140). -/
theorem handlerBody_end (m : BitDepth) (n k : Nat) :
    (handlerBody m n)[n + k + 2]? = [Instr.updall, .iret][k]? := by
  show (xcall m n ++ [.updall, .iret])[n + k]? = _
  rw [List.getElem?_append_right (by simp [xcall])]
  simp [xcall]

theorem nextCommand_isr {s : State} {m : BitDepth} (hm : s.mode = some m) :
    nextCommand .isr s = ((handlerBody m s.par.n)[s.pcIsr]?).map encode := by
  simp [nextCommand, hm]

/-! ### The commands -/

/-- Before INIT a command that checks for streaming faults with NOT_STREAMING (60_exceptions.md R210, R212). -/
theorem exec_notStreaming {a : Agent} {i : Instr} {s : State} {k : Result} (hi : exec i s = streamingCommand a i s k)
    (hf : s.fault = .none) (ha : s.actor = a) (hd : s.drv ≠ .streaming) :
    exec i s = .next (faultedWith .notStreaming i s) := by
  rw [hi, streamingCommand_notStreaming ha hd, raiseFault_of_none hf]
  rfl

/-- CINV without a source faults (43_interrupt_handler.md R142). -/
theorem execCinv_noSource {s : State} (hf : s.fault = .none) (ha : s.actor = .isr) (hd : s.drv = .streaming)
    (hs : s.src = Option.none) : execCinv s = .next (faultedWith .noSource .cinv s) := by
  unfold execCinv
  rw [streamingCommand_ok ha hd, hs, raiseFault_of_none hf]
  rfl

/-- With SLOT all EMPTY, CINV only moves on (R142). -/
theorem execCinv_skip {s : State} {h : Half} (ha : s.actor = .isr) (hd : s.drv = .streaming) (hs : s.src = some h)
    (he : allEmpty s.slot = true) : execCinv s = .next { s with pcIsr := s.pcIsr + 1 } := by
  unfold execCinv
  rw [streamingCommand_ok ha hd, ← advance_isr ha, hs]
  exact if_pos he

/-- Without a cache there is no LASTINV to write (20_memory.md R67). -/
theorem invalidateHalf_uncached {s : State} (h : Half) (hc : s.par.hasDcache = false) : invalidateHalf h s = s := by
  simp [invalidateHalf, hc]

/-- UPDALL of the timekeeper (R143). -/
theorem execUpdall_timekeeper {s : State} (ha : s.actor = .isr) (hd : s.drv = .streaming) (hk : s.tk = true) :
    execUpdall s = .next { s with
      updreq := s.updreq + 1, events := s.events ++ [.runAllUpdates], pcIsr := s.pcIsr + 1 } := by
  unfold execUpdall
  rw [streamingCommand_ok ha hd, if_pos hk, advance_isr (by exact ha)]
  rfl

/-- UPDALL of another unit only moves on (R143). -/
theorem execUpdall_skip {s : State} (ha : s.actor = .isr) (hd : s.drv = .streaming) (hk : s.tk = false) :
    execUpdall s = .next { s with pcIsr := s.pcIsr + 1 } := by
  unfold execUpdall
  rw [streamingCommand_ok ha hd, if_neg (by simp [hk]), advance_isr ha]

theorem execIret_ok {s : State} (ha : s.actor = .isr) (hd : s.drv = .streaming) :
    execIret s = .next (interruptReturn s) :=
  streamingCommand_ok ha hd

/-! ### The half being written -/

/-- SEL's half: 1 while WPOS is in half 0, else 0 (R141). -/
theorem otherHalf_whalf (s : State) : otherHalf (whalf s) = if s.wpos < s.par.n then .h1 else .h0 := by
  unfold whalf
  split <;> rfl

/-- The position after a completion is the first of the half that did not complete (41_raw_buffer.md R111). -/
theorem wpos_afterFrame_of_completion {s : State} {fv : Frame} {h : Half}
    (he : (afterFrame fv s).events = s.events ++ [.completion h]) :
    (afterFrame fv s).wpos = if h = .h0 then s.par.n else 0 := by
  have hc := List.append_cancel_left he
  show (s.wpos + 1) % (2 * s.par.n) = _
  split at hc
  case isTrue hn =>
    cases hc
    exact hn
  case isFalse =>
    split at hc
    case isTrue h0 =>
      cases hc
      exact h0
    case isFalse => cases hc

/-- Without a completion WPOS moves on inside its half. -/
theorem whalf_afterFrame_of_no_completion {s : State} {fv : Frame} (hw : s.wpos < 2 * s.par.n)
    (he : (afterFrame fv s).events = s.events) : whalf (afterFrame fv s) = whalf s := by
  have hc := List.append_right_eq_self.1 he
  split at hc
  case isTrue => cases hc
  case isFalse hn =>
    split at hc
    case isTrue => cases hc
    case isFalse h0 =>
      have hlt : s.wpos + 1 < 2 * s.par.n := by
        refine Nat.lt_of_le_of_ne hw fun hend => h0 ?_
        rw [hend, Nat.mod_self]
      have hnext : (afterFrame fv s).wpos = s.wpos + 1 := Nat.mod_eq_of_lt hlt
      rw [Nat.mod_eq_of_lt hlt] at hn
      have hsame : s.wpos + 1 < s.par.n ↔ s.wpos < s.par.n := by omega
      unfold whalf
      rw [hnext]
      exact if_congr hsame rfl rfl

/-- Of the commands only DMA.FRAME and INIT write WPOS (10_state.md R32). -/
theorem Completes.wpos {i : Instr} {s t : State} (h : Completes i s t) :
    t.wpos = s.wpos ∨ s.actor = .dma ∨ s.drv = .uninitialized := by
  cases h with
  | dmaFrame _ _ ha => exact .inr (.inl ha)
  | init _ _ _ _ hd => exact .inr (.inr hd)
  | _ => exact .inl rfl

end Sys2Proof.Machine

namespace Sys2Proof.Proofs

open Sys2Proof.Machine Sys2Proof.Safety

/-- Settles O34: SEL reads WPOS, which after a completion is the first position of the other half, and in streaming moves
with frames alone. -/
theorem completedHalfIsSelected : Obligations.CompletedHalfIsSelected := by
  refine ⟨?sel, ?completion, ?frame, ?others⟩
  case sel =>
    intro s t ha hd h
    obtain rfl := next_inj ((execSel_ok ha hd).symm.trans h)
    rfl
  case completion =>
    intro s t fv h ha hx he
    obtain rfl : afterFrame fv s = t := next_inj ((execDmaFrame_ok ha).symm.trans hx)
    have hn := (params_n s.par).1
    have hpar : (afterFrame fv s).par = s.par := rfl
    have hw := wpos_afterFrame_of_completion he
    rw [otherHalf_whalf, hw, hpar]
    cases h with
    | h0 => exact ⟨if_neg (Nat.lt_irrefl _), le_refl s.par.n, show s.par.n < 2 * s.par.n by omega⟩
    | h1 => exact ⟨if_pos hn, hn⟩
  case frame =>
    intro s t fv ha hw hx he
    obtain rfl : afterFrame fv s = t := next_inj ((execDmaFrame_ok ha).symm.trans hx)
    exact whalf_afterFrame_of_no_completion hw he
  case others =>
    intro i s t ha hd h
    rcases exec_cases h with ⟨c, -, rfl⟩ | h
    · exact raiseFault_wpos ..
    · rcases h.wpos with hw | hdma | hinit
      · exact hw
      · exact absurd hdma ha
      · exact absurd (hd.symm.trans hinit) nofun

/-- Settles O35: a byte's line is one of the half's lines exactly when the byte lies in the half. -/
theorem cinvCoversExactlyTheHalf : Obligations.CinvCoversExactlyTheHalf := by
  refine ⟨rfl, fun s hf ha => wrongContextFaults .cinv s hf ha, fun _ => exec_notStreaming rfl,
    fun s hf ha hd hs => execCinv_noSource hf ha hd (Option.isNone_iff_eq_none.1 (by simpa [srcValid] using hs)),
    ?covers, ?skip⟩
  case covers =>
    intro s h ha hd hs he hc a
    have ha' : a = halfBase s.par h := by rw [halfBase, halfIndex_eq, Nat.mul_assoc]
    refine ⟨_, execCinv_ok ha hd hs he, fun x => ?_, rfl⟩
    have hinv := lastInvOf_invalidateHalf hc h x
    rw [← ha', invalidateHalf_eq] at hinv
    exact hinv
  case skip =>
    intro s h ha hd hs hskip
    cases he : allEmpty s.slot with
    | true => exact execCinv_skip ha hd hs he
    | false =>
      have hc : s.par.hasDcache = false := hskip.resolve_left (by simp [he])
      exact (execCinv_ok ha hd hs he).trans (by rw [invalidateHalf_uncached h hc])

/-- Settles O32, place by place. -/
theorem handlerBodyIsFixed : Obligations.HandlerBodyIsFixed := by
  refine ⟨fun m n => ⟨handlerBody_length m n, rfl, rfl, fun f hf => ?_, handlerBody_end m n 0, handlerBody_end m n 1⟩,
    fun s m hm => ⟨nextCommand_isr hm, nextCommand_isr (s := interruptEntry s) hm⟩⟩
  rw [handlerBody_transcoder m hf]
  cases m <;> rfl

/-- Settles O33: the half that is not being written, by the side of N on which WPOS stands. -/
theorem selChoosesTheStableHalf : Obligations.SelChoosesTheStableHalf := by
  refine ⟨rfl, fun s hf ha => wrongContextFaults .sel s hf ha, fun _ => exec_notStreaming rfl,
    fun s ha hd => ⟨_, execSel_ok ha hd, ?_⟩⟩
  rw [otherHalf_whalf]

/-- Settles O36: UPDREQ is a 32-bit word, so its count is taken modulo 2^32. -/
theorem updallTriggersTheGraph : Obligations.UpdallTriggersTheGraph := by
  refine ⟨rfl, fun s hf ha => wrongContextFaults .updall s hf ha, fun _ => exec_notStreaming rfl, fun s ha hd hk => ?_,
    fun s => execUpdall_skip⟩
  have hcount : BitVec.ofNat 32 (s.updreq.toNat + 1) = s.updreq + 1#32 := by
    rw [BitVec.ofNat_add, BitVec.ofNat_toNat, BitVec.setWidth_eq]
  rw [hcount]
  exact execUpdall_timekeeper ha hd hk

/-- Settles O37: after the return each agent's own condition for a step is left. -/
theorem iretLeavesTheHandler : Obligations.IretLeavesTheHandler := by
  refine ⟨rfl, fun s hf ha => wrongContextFaults .iret s hf ha, fun _ => exec_notStreaming rfl, fun s ha hd => ?_⟩
  exact ⟨interruptReturn s, execIret_ok ha hd, rfl, rfl, fun hf hp hm => enabled_isr_iff.2 ⟨hf, .inr ⟨rfl, hp, hm⟩⟩,
    fun hf hc => enabled_coop_iff.2 ⟨hf, rfl, hc⟩⟩

end Sys2Proof.Proofs
end

section
/-! PROOFS. Steps inside the handler (43_interrupt_handler.md R145, R147, R148): COOP takes none, what they leave unchanged, and
how the handler comes to its end. -/

namespace Sys2Proof.Machine

/-! ### Whose step -/

/-- After a fault no agent is enabled (60_exceptions.md R211). -/
theorem fault_of_enabled {a : Agent} {s : State} (h : enabled a s = true) : s.fault = .none :=
  of_decide_eq_true (Bool.and_eq_true_iff.1 h).1

theorem exec_actor {i : Instr} {s t : State} (h : exec i s = .next t) : t.actor = s.actor := by
  rcases exec_cases h with ⟨c, -, rfl⟩ | h
  · exact raiseFault_actor ..
  · obtain ⟨-, -, -, -, -, -, -, -, -, -, -, hactor⟩ := h.keeps
    exact hactor

/-- The agent that a step leaves as its issuing agent is the one that was chosen (log entry 15). -/
theorem chooseAgent_of_step {s t : State} (h : step s = .next t) : ∃ u, chooseAgent s = some (t.actor, u) := by
  obtain ⟨a, u, -, hch, hu, hc⟩ := step_cases h
  have hstart : (stepStart a u).actor = a := stepStart_actor hu
  suffices hact : t.actor = a from ⟨u, hact ▸ hch⟩
  rcases hc with ⟨rfl, -, rfl⟩ | ⟨-, c, -, ⟨i, -, hx⟩ | ⟨e, -, rfl⟩⟩
  · rfl
  · exact (exec_actor hx).trans hstart
  · exact (raiseFault_actor ..).trans hstart

/-- A step inside the handler is a command of the handler or of the DMA, or an illegal word of theirs: COOP is not enabled
(10_state.md R21), and no entry nests. -/
theorem step_inHandler {s t : State} (h : step s = .next t) (hin : s.inIsr = true) :
    ∃ (a : Agent) (u : State), a ≠ .coop ∧ ChoiceOnly s u ∧
      ((∃ i, exec i (beginStep a u) = .next t) ∨ ∃ w, t = raiseFault .illegalCommand w (beginStep a u)) := by
  obtain ⟨a, u, he, -, hu, hc⟩ := step_cases h
  have ha : a ≠ .coop := by
    rintro rfl
    obtain ⟨-, hout, -⟩ := enabled_coop he
    exact absurd (hin.symm.trans hout) nofun
  have hstart : stepStart a u = beginStep a u := by
    cases a with
    | coop => exact absurd rfl ha
    | isr => rfl
    | dma => rfl
  rw [hstart] at hc
  rcases hc with ⟨-, hout, -⟩ | ⟨-, c, -, ⟨i, -, hx⟩ | ⟨e, -, ht⟩⟩
  · exact absurd (hin.symm.trans hout) nofun
  · exact ⟨a, u, ha, hu, .inl ⟨i, hx⟩⟩
  · exact ⟨a, u, ha, hu, .inr ⟨_, ht⟩⟩

/-! ### The cooperative context -/

/-- What a handler run must leave to COOP (43_interrupt_handler.md R147, 60_exceptions.md R222): the three sets, the mask, COOP's
index, the pool and STATE. -/
def coopPart (s : State) : Bank × Bank × Bank × Bool × Nat × List Handle × Nat × DriverState :=
  (s.slot, s.new, s.ret, s.irqMask, s.pcCoop, s.free, s.allocs, s.drv)

/-- No command of the handler or of the DMA writes it. -/
theorem Completes.coopPart_eq {i : Instr} {s t : State} (h : Completes i s t) (ha : s.actor ≠ .coop) :
    coopPart t = coopPart s := by
  cases h with
  | dmaFrame | transcodeSkip | transcode | sel | cinvSkip | cinv | updall | updallSkip | iret => rfl
  | _ => exact absurd ‹s.actor = .coop› ha

/-! ### The handler's own steps -/

/-- The mode's transcoder command at a frame. -/
theorem isTranscoder_xcOf (m : BitDepth) (f : Nat) : IsTranscoder (xcOf m f) m f := by
  cases m <;> simp [IsTranscoder, xcOf]

theorem HandlerAt.nextCommand_eq {i : Instr} {s : State} (h : HandlerAt i s) : nextCommand .isr s = some (encode i) := by
  obtain ⟨-, m, hm, hb⟩ := h
  rw [nextCommand_isr hm, hb, Option.map_some]

/-- IRET stands at the end of the handler body. -/
theorem HandlerAt.pc_eq {s : State} (h : HandlerAt .iret s) : s.pcIsr = s.par.n + 3 := by
  obtain ⟨-, m, -, hb⟩ := h
  rcases handlerBody_cases hb with ⟨-, hi⟩ | ⟨-, hi⟩ | ⟨-, -, hi⟩ | ⟨-, hi⟩ | ⟨hk, -⟩
  · cases hi
  · cases hi
  · exact absurd hi.symm (isTranscoder_xcOf m _).ne_iret_sel.1
  · cases hi
  · exact hk

/-- IRET alone leaves the handler (43_interrupt_handler.md R144). -/
theorem Completes.inIsr {i : Instr} {s t : State} (h : Completes i s t) :
    (i = .iret ∧ t.inIsr = false) ∨ (i ≠ .iret ∧ t.inIsr = s.inIsr) := by
  cases h with
  | iret => exact .inl ⟨rfl, rfl⟩
  | transcodeSkip _ _ _ _ _ hi => exact .inr ⟨hi.ne_iret_sel.1, rfl⟩
  | transcode _ _ _ _ _ _ _ _ hi => exact .inr ⟨hi.ne_iret_sel.1, rfl⟩
  | _ => exact .inr ⟨nofun, rfl⟩

/-- With SLOT all EMPTY a handler command touches no data: it writes no sample and no line and draws nothing (R148). -/
theorem Completes.emptySlot {i : Instr} {s t : State} (h : Completes i s t) (ha : s.actor = .isr)
    (he : allEmpty s.slot = true) :
    (s.tk = false → t.updreq = s.updreq ∧ t.events = s.events) ∧
    t = { s with
      src := t.src, updreq := t.updreq, events := t.events, inIsr := t.inIsr, pcIsr := t.pcIsr, selAt := t.selAt } := by
  cases h with
  | transcodeSkip | sel | cinvSkip | updallSkip | iret => exact ⟨fun _ => ⟨rfl, rfl⟩, rfl⟩
  | updall _ _ _ hk => exact ⟨fun hno => absurd (hk.symm.trans hno) nofun, rfl⟩
  | transcode | cinv => exact absurd (he.symm.trans ‹allEmpty s.slot = false›) nofun
  | dmaFrame => exact absurd (ha.symm.trans ‹s.actor = .dma›) nofun
  | _ => exact absurd (ha.symm.trans ‹s.actor = .coop›) nofun

end Sys2Proof.Machine

namespace Sys2Proof.Safety

open Sys2Proof.Machine

/-- Inside the handler its index names a command of the body (43_interrupt_handler.md R140). -/
theorem ControlSound.handlerAt {s : State} (h : ControlSound s) (hin : s.inIsr = true) : ∃ i, HandlerAt i s := by
  have hmode : s.mode.isSome = true := h.mode.trans (decide_eq_true (h.handlerStreaming hin))
  obtain ⟨m, hm⟩ := Option.isSome_iff_exists.1 hmode
  have hpc : s.pcIsr < (handlerBody m s.par.n).length := by
    simpa [hin, handlerBody_length] using h.handlerPc
  exact ⟨_, hin, m, hm, List.getElem?_eq_getElem hpc⟩

/-- After SEL the handler has its source (R141). -/
theorem ControlSound.source_isSome {s : State} (h : ControlSound s) (hin : s.inIsr = true) (hpc : 0 < s.pcIsr) :
    ∃ hf, s.src = some hf :=
  Option.isSome_iff_exists.1 (by simpa [hin, hpc] using h.source)

/-- A command in its place in the handler body passes every check: the unit streams, after SEL there is a source, and the body
was built for MODE and N (60_exceptions.md R210). -/
theorem ControlSound.handler_faultless {i : Instr} {s : State} (h : ControlSound s) (hat : HandlerAt i s)
    (ha : s.actor = .isr) : ∃ t, exec i s = .next t ∧ t.fault = s.fault := by
  obtain ⟨hin, m, hm, hb⟩ := hat
  have hd := h.handlerStreaming hin
  rcases handlerBody_cases hb with ⟨-, rfl⟩ | ⟨hk, rfl⟩ | ⟨hk, hn, rfl⟩ | ⟨-, rfl⟩ | ⟨-, rfl⟩
  · exact ⟨_, execSel_ok ha hd, rfl⟩
  · obtain ⟨hf, hs⟩ := h.source_isSome hin (by omega)
    cases he : allEmpty s.slot with
    | true => exact ⟨_, execCinv_skip ha hd hs he, rfl⟩
    | false => exact ⟨_, execCinv_ok ha hd hs he, rfl⟩
  · obtain ⟨hf, hs⟩ := h.source_isSome hin (by omega)
    rw [exec_transcoder (isTranscoder_xcOf m _), xcCheck_ok ha hd hm hs (by omega)]
    split
    · exact ⟨_, rfl, rfl⟩
    · exact ⟨_, transcodeTo_afterRead m hf _ ha, rfl⟩
  · cases hk : s.tk with
    | true => exact ⟨_, execUpdall_timekeeper ha hd hk, rfl⟩
    | false => exact ⟨_, execUpdall_skip ha hd hk, rfl⟩
  · exact ⟨_, execIret_ok ha hd, rfl⟩

/-- A handler step is the completing command at the handler's place (R145). -/
theorem ControlSound.handler_step {s t u : State} (h : ControlSound s) (hin : s.inIsr = true)
    (hch : chooseAgent s = some (.isr, u)) (hs : Machine.step s = .next t) :
    ∃ i, HandlerAt i s ∧ Completes i (beginStep .isr u) t := by
  obtain ⟨a, v, he, hch', hu, hc⟩ := step_cases hs
  obtain ⟨rfl, rfl⟩ : a = .isr ∧ v = u := by simpa using hch'.symm.trans hch
  have hnone : (beginStep .isr v).fault = .none := stepStart_fault (a := .isr) he hu
  have hstart : ControlSound (beginStep .isr v) := h.congr (by rw [hu]; rfl)
  obtain ⟨i, hat⟩ := h.handlerAt hin
  have hat' : HandlerAt i (beginStep .isr v) := by
    rw [hu]
    exact hat
  rcases hc with ⟨-, hout, -⟩ | ⟨-, c, hn, hx⟩
  · exact absurd (hin.symm.trans hout) nofun
  · obtain rfl : encode i = c := Option.some.inj (hat'.nextCommand_eq.symm.trans hn)
    obtain ⟨m, -, hb⟩ := hat.2
    have hdec := decode_encode (handlerBody_wellFormed (params_n s.par).2 hb)
    obtain ⟨w, hw, hf⟩ := hstart.handler_faultless hat' rfl
    rcases hx with ⟨j, hj, hx⟩ | ⟨e, hj, -⟩
    · obtain rfl : i = j := Except.ok.inj (hdec.symm.trans hj)
      obtain rfl : w = t := next_inj (hw.symm.trans hx)
      exact ⟨i, hat, exec_completes hnone hx (hf.trans hnone)⟩
    · exact absurd (hdec.symm.trans hj) nofun

/-- While the handler runs it has a next command (R145). -/
theorem ControlSound.handler_enabled {s : State} (h : ControlSound s) (hin : s.inIsr = true) (hf : s.fault = .none) :
    enabled .isr s = true := by
  obtain ⟨i, hat⟩ := h.handlerAt hin
  exact enabled_isr_iff.2 ⟨hf, .inl ⟨hin, by rw [hat.nextCommand_eq]; rfl⟩⟩

end Sys2Proof.Safety

namespace Sys2Proof.Proofs

open Sys2Proof.Machine Sys2Proof.Safety

/-- Settles O41: only COOP's commands and the other pool clients write the cooperative context, and neither acts in a step inside
the handler. -/
theorem handlerLeavesCooperativeState : Obligations.HandlerLeavesCooperativeState := by
  intro s t h hin
  obtain ⟨a, u, ha, hu, hx⟩ := step_inHandler h hin
  have hstart : coopPart (beginStep a u) = coopPart s := by
    rw [hu]
    rfl
  have hkeep : coopPart t = coopPart (beginStep a u) := by
    rcases hx with ⟨i, hx⟩ | ⟨w, rfl⟩
    · rcases exec_cases hx with ⟨c, -, rfl⟩ | hx
      · simp [coopPart]
      · exact hx.coopPart_eq ha
    · simp [coopPart]
  simpa only [coopPart, Prod.mk.injEq] using hkeep.trans hstart

/-- Settles O42: each handler step completes the command at the handler's place, of which IRET is the last. -/
theorem handlerMovesOnToItsEnd : Obligations.HandlerMovesOnToItsEnd := by
  refine ⟨fun s hinv hin hf => hinv.control.handler_enabled hin hf, fun s t hinv h hin hact => ?_⟩
  obtain ⟨u, hch⟩ := chooseAgent_of_step h
  rw [hact] at hch
  obtain ⟨-, hu⟩ := chooseAgent_some hch
  obtain ⟨i, hat, hx⟩ := hinv.control.handler_step hin hch h
  obtain ⟨-, -, hpc⟩ := hx.indexMoves
  have hlt := hat.pc_lt
  rw [hu] at hx hpc
  rcases hx.inIsr with ⟨rfl, hout⟩ | ⟨hi, hstay⟩
  · exact .inr ⟨hat.pc_eq, hout, hpc⟩
  · refine .inl ⟨by have := hlt hi; omega, hstay.trans hin, hpc.trans ?_⟩
    rw [if_neg hi]
    rfl

/-- Settles O43: the handler is enabled, so it takes the listed turn, and its command finds SLOT all EMPTY. -/
theorem emptySlotHandlerStepTouchesNoData : Obligations.EmptySlotHandlerStepTouchesNoData := by
  intro s t rest hinv hin he hs h
  obtain ⟨a, -, hen, -⟩ := step_cases h
  have hch := chooseAgent_of_head hs (hinv.control.handler_enabled hin (fault_of_enabled hen))
  obtain ⟨i, -, hx⟩ := hinv.control.handler_step hin hch h
  exact hx.emptySlot rfl he

end Sys2Proof.Proofs
end

section
/-! PROOFS. Downstream receives what a block held at the SWAP (44_block_exchange.md R169): no part of a step writes a block of
RET. -/

namespace Sys2Proof.Machine

open Sys2Proof.Safety

/-- What a block reads depends on block storage only. -/
theorem blkRead_congr {s t : State} (h : t.blk = s.blk) (g : Handle) (f : Nat) : blkRead t g f = blkRead s g f := by
  simp only [blkRead, blockOf, h]

/-- How a step ends, from the state it starts in: the handler is entered, a fault is recorded, or a command completes. -/
theorem step_effect {s t : State} (h : step s = .next t) :
    ∃ (a : Agent) (u : State), ChoiceOnly s u ∧
      (t = interruptEntry (stepStart a u) ∨ (∃ c w, t = raiseFault c w (stepStart a u)) ∨
        ∃ i, Completes i (stepStart a u) t) := by
  obtain ⟨a, u, -, -, hu, hc⟩ := step_cases h
  refine ⟨a, u, hu, ?_⟩
  rcases hc with ⟨rfl, -, ht⟩ | ⟨-, c, -, ⟨i, -, hx⟩ | ⟨e, -, ht⟩⟩
  · exact .inl ht
  · rcases exec_cases hx with ⟨c, -, ht⟩ | hx
    · exact .inr (.inl ⟨c, _, ht⟩)
    · exact .inr (.inr ⟨i, hx⟩)
  · exact .inr (.inl ⟨_, _, ht⟩)

/-- A completing command changes no block but those that SLOT holds or the pool has free (10_state.md R41, 42_transcoder.md
R127). -/
theorem Completes.blkRead_eq {i : Instr} {s t : State} (hc : Completes i s t) {g : Handle} (hslot : g ∉ s.slot.list)
    (hfree : g ∉ s.free) (f : Nat) : blkRead t g f = blkRead s g f := by
  cases hc with
  | transcode => exact blkRead_writeLanes_other (.inl hslot)
  | alloc16 _ u taken _ _ _ hsub _ _ _ hread =>
    exact (blkRead_congr rfl g f).trans (hread g (fun hm => hfree (hsub g hm)) f)
  | alloc16Fail _ u taken _ _ _ hsub _ _ _ hread =>
    exact (blkRead_congr rfl g f).trans (hread g (fun hm => hfree (hsub g hm)) f)
  | _ => exact blkRead_congr rfl g f

end Sys2Proof.Machine

namespace Sys2Proof.Safety

open Sys2Proof.Machine

/-- A block of RET is exclusive (10_state.md R40): SLOT does not hold it and the pool does not have it free. -/
theorem HandlesSound.retired_exclusive {s : State} (h : HandlesSound s) {g : Handle} (hg : g ∈ s.ret.list)
    (he : g ≠ emptyHandle) : g ∉ s.slot.list ∧ g ∉ s.free := by
  have hret : g ∈ heldOf s.ret := mem_heldOf.2 ⟨hg, he⟩
  have hd := h.ownership.distinct
  have hfree := h.ownership.notFree g
  rw [heldHandles_eq] at hd hfree
  refine ⟨fun hs => ?_, hfree (List.mem_append_right _ hret)⟩
  exact List.disjoint_of_nodup_append hd (List.mem_append_left _ (mem_heldOf.2 ⟨hs, he⟩)) hret

end Sys2Proof.Safety

namespace Sys2Proof.Proofs

open Sys2Proof.Machine Sys2Proof.Safety

/-- Settles O50: a step's start leaves block storage and RET as they were and the handles sound, so a block of RET is none of those
that a command writes. -/
theorem retiredBlocksKeepTheirContents : Obligations.RetiredBlocksKeepTheirContents := by
  intro s t g f hinv h hg he
  obtain ⟨a, u, hu, hc⟩ := step_effect h
  have hsound : HandlesSound (stepStart a u) := hinv.handlesSound.stepStart hu
  have hfr := stepStart_frame (a := a) hu
  have hblk : (stepStart a u).blk = s.blk := by rw [hfr]
  have hret : (stepStart a u).ret = s.ret := by rw [hfr]
  refine Eq.trans ?_ (blkRead_congr hblk g f)
  rcases hc with rfl | ⟨c, w, rfl⟩ | ⟨i, hc⟩
  · exact blkRead_congr rfl g f
  · exact blkRead_congr (raiseFault_blk ..) g f
  · obtain ⟨hslot, hfree⟩ := hsound.retired_exclusive (hret ▸ hg) he
    exact hc.blkRead_eq hslot hfree f

end Sys2Proof.Proofs
end

section
/-! PROOFS. The commands of the block exchange that the pool cannot fail (44_block_exchange.md R162 to R165): what each does where
it completes, and SWAP's own faults. -/

namespace Sys2Proof.Machine

open Sys2Proof.Safety

/-- CSD sets the mask whatever it was (R162). -/
theorem execCsd_ok {s : State} (ha : s.actor = .coop) (hd : s.drv = .streaming) :
    execCsd s = .next { s with irqMask := true, pcCoop := s.pcCoop + 1 } := by
  unfold execCsd
  rw [streamingCommand_ok ha hd, advance_coop (by exact ha)]

/-- CSE clears the mask whatever it was (R163). -/
theorem execCse_ok {s : State} (ha : s.actor = .coop) (hd : s.drv = .streaming) :
    execCse s = .next { s with irqMask := false, pcCoop := s.pcCoop + 1 } := by
  unfold execCse
  rw [streamingCommand_ok ha hd, advance_coop (by exact ha)]

/-- With the mask set, the handler does not enter (60_exceptions.md R216). -/
theorem enabled_isr_of_masked {s : State} (hin : s.inIsr = false) (hm : s.irqMask = true) : enabled .isr s = false := by
  rw [Bool.eq_false_iff]
  intro h
  obtain ⟨-, ⟨hin', -⟩ | ⟨-, -, hm'⟩⟩ := enabled_isr h
  · exact absurd (hin.symm.trans hin') nofun
  · exact absurd (hm.symm.trans hm') nofun

/-- SWAP outside the critical section faults (R164). -/
theorem execSwap_unmasked {s : State} (hf : s.fault = .none) (ha : s.actor = .coop) (hd : s.drv = .streaming)
    (hm : s.irqMask = false) : execSwap s = .next (faultedWith .swapUnmasked .swap s) := by
  unfold execSwap
  rw [streamingCommand_ok ha hd, hm, require_false, raiseFault_of_none hf]
  rfl

/-- SWAP over a set that FWD has not retired faults (R164). -/
theorem execSwap_busy {s : State} (hf : s.fault = .none) (ha : s.actor = .coop) (hd : s.drv = .streaming)
    (hm : s.irqMask = true) (hr : allEmpty s.ret = false) : execSwap s = .next (faultedWith .worksetBusy .swap s) := by
  unfold execSwap
  rw [streamingCommand_ok ha hd, hm, require_true, hr, require_false, raiseFault_of_none hf]
  rfl

/-- SWAP moves the two sets on (R164). -/
theorem execSwap_ok {s : State} (ha : s.actor = .coop) (hd : s.drv = .streaming) (hm : s.irqMask = true)
    (hr : allEmpty s.ret = true) :
    execSwap s = .next { s with ret := s.slot, slot := s.new, new := Bank.empty, pcCoop := s.pcCoop + 1 } := by
  unfold execSwap
  rw [streamingCommand_ok ha hd, hm, require_true, hr, require_true, advance_coop (by exact ha)]

/-- With RET all EMPTY, FWD only moves on (R165). -/
theorem execFwd_skip {s : State} (ha : s.actor = .coop) (hd : s.drv = .streaming) (hr : allEmpty s.ret = true) :
    execFwd s = .next { s with pcCoop := s.pcCoop + 1 } := by
  unfold execFwd
  rw [streamingCommand_ok ha hd, if_pos hr, advance_coop ha]

/-- FWD appends RET's entries, releases its blocks and empties it (R165). -/
theorem execFwd_ok {s : State} (ha : s.actor = .coop) (hd : s.drv = .streaming) (hr : allEmpty s.ret = false) :
    execFwd s = .next { s with
      free := (forwardFrom 0 s.ret.list s).free
      events := s.events ++ forwardEvents s 0 s.ret.list
      ret := Bank.empty
      pcCoop := s.pcCoop + 1 } := by
  unfold execFwd
  rw [streamingCommand_ok ha hd, if_neg (by simp [hr]), forwardFrom_frame, advance_coop (by exact ha)]

/-- A forwarding's entries, block by block: the transmit with the block's N samples, then the release (R165). -/
theorem forwardEvents_eq (s : State) (k : Nat) (hs : List Handle) :
    forwardEvents s k hs = (hs.zipIdx k).flatMap fun (h, k) =>
      [.transmit k h ((List.range s.par.n).map fun f => blkRead s h f), .release h] := by
  induction hs generalizing k with
  | nil => rfl
  | cons h hs ih =>
    rw [forwardEvents, ih]
    rfl

end Sys2Proof.Machine

namespace Sys2Proof.Proofs

open Sys2Proof.Machine Sys2Proof.Safety

/-- Settles O38: ISR's own condition fails with the mask set, and DMA's reads neither field that CSD writes. -/
theorem csdMasksInterrupts : Obligations.CsdMasksInterrupts := by
  refine ⟨rfl, fun s hf ha => wrongContextFaults .csd s hf ha, fun _ => exec_notStreaming rfl, fun s ha hd => ?_⟩
  exact ⟨_, execCsd_ok ha hd, rfl, fun hin => enabled_isr_of_masked hin rfl, rfl⟩

/-- Settles O39: with the mask cleared, the pending completion meets ISR's condition for entry. -/
theorem cseUnmasksInterrupts : Obligations.CseUnmasksInterrupts := by
  refine ⟨rfl, fun s hf ha => wrongContextFaults .cse s hf ha, fun _ => exec_notStreaming rfl, fun s ha hd => ?_⟩
  exact ⟨_, execCse_ok ha hd, rfl, fun hf hin hp => enabled_isr_iff.2 ⟨hf, .inr ⟨hin, hp, rfl⟩⟩⟩

/-- Settles O44, check by check. -/
theorem swapExchangesTheSets : Obligations.SwapExchangesTheSets :=
  ⟨rfl, fun s hf ha => wrongContextFaults .swap s hf ha, fun _ => exec_notStreaming rfl, fun _ => execSwap_unmasked,
    fun _ => execSwap_busy, fun _ => execSwap_ok⟩

/-- Settles O47: none of RET's handles is EMPTY, so each is released to the pool. -/
theorem fwdTransmitsAndReleases : Obligations.FwdTransmitsAndReleases := by
  refine ⟨rfl, fun s hf ha => wrongContextFaults .fwd s hf ha, fun _ => exec_notStreaming rfl, fun s => execFwd_skip,
    fun s ha hd hfull => ?_⟩
  have hx := execFwd_ok ha hd (allEmpty_of_allFull hfull)
  rw [forwardEvents_eq] at hx
  refine ⟨_, hx, fun h => ?_, rfl⟩
  have hne := allFull_iff.1 hfull h
  rw [mem_forwardFrom_free]
  tauto

end Sys2Proof.Proofs
end

section
/-! PROOFS. ALLOC16 (44_block_exchange.md R161): when its sixteen allocations succeed, and what it does when they do and when one
fails. -/

namespace Sys2Proof.Machine

open Sys2Proof.Safety

/-! ### When the allocations succeed -/

/-- A free set that nothing is left of was all taken. -/
theorem subset_of_withoutHandles_nil {free taken : List Handle} (h : withoutHandles free taken = []) : free ⊆ taken :=
  fun g hg => by simpa using List.filter_eq_nil_iff.1 h g hg

/-- From the default pool, allocations that the free set has handles for succeed (45_init_and_interfaces.md R196). -/
theorem allocateMore_default {k : Nat} {s : State} (hp : s.par.poolMayFail = false) (hr : handlesRising s.free)
    (hk : k ≤ s.free.length) : ∃ taken u, allocateMore k [] s = (some taken, u) := by
  obtain ⟨taken, u, -, -, -, hfree, -, -, -, ⟨-, -, hall⟩ | ⟨hl, -, hnone, -⟩⟩ := allocateMore_cases k [] s
  · exact ⟨_, u, hall⟩
  · have hempty : u.free = [] := hnone.resolve_right (by simp [hp])
    have := ((handlesRising_nodup hr).subperm (subset_of_withoutHandles_nil (hfree ▸ hempty))).length_le
    omega

/-- More allocations than the free set has handles for do not all succeed (R196). -/
theorem allocateMore_exhausts {k : Nat} {s : State} (hk : s.free.length < k) :
    ∃ u, allocateMore k [] s = (Option.none, u) := by
  obtain ⟨taken, u, -, hsub, hnd, -, -, -, -, ⟨hl, -⟩ | ⟨-, -, -, hall⟩⟩ := allocateMore_cases k [] s
  · have := (hnd.subperm hsub).length_le
    omega
  · exact ⟨_, hall⟩

/-! ### What ALLOC16 does -/

/-- ALLOC16 over a set that SWAP has not installed faults (44_block_exchange.md R161). -/
theorem execAlloc16_busy {s : State} (hf : s.fault = .none) (ha : s.actor = .coop) (hd : s.drv = .streaming)
    (hn : allEmpty s.new = false) : execAlloc16 s = .next (faultedWith .worksetBusy .alloc16 s) := by
  unfold execAlloc16
  rw [streamingCommand_ok ha hd, hn, require_false, raiseFault_of_none hf]
  rfl

section

variable {s : State} (ha : s.actor = .coop) (hd : s.drv = .streaming) (hn : allEmpty s.new = true)
include ha hd hn

/-- ALLOC16 where its allocations succeed. -/
theorem execAlloc16_of_some {taken : List Handle} {u : State} (h : allocateMore 16 [] s = (some taken, u)) :
    execAlloc16 s = .next (advance { u with new := bankOf taken }) := by
  unfold execAlloc16
  rw [streamingCommand_ok ha hd, hn, require_true, h]

/-- ALLOC16 where an allocation fails. -/
theorem execAlloc16_of_none {u : State} (h : allocateMore 16 [] s = (Option.none, u)) :
    execAlloc16 s = .next (advance u) := by
  unfold execAlloc16
  rw [streamingCommand_ok ha hd, hn, require_true, h]

/-- Where its allocations succeed, ALLOC16 takes sixteen blocks. -/
theorem execAlloc16_takes {got : List Handle} {v : State} (h : allocateMore 16 [] s = (some got, v)) :
    ∃ t, execAlloc16 s = .next t ∧ TookSixteen s t := by
  obtain ⟨taken, u, hu, hsub, hnd, hfree, -, hread, hnew, ⟨hl, hev, hall⟩ | ⟨-, -, -, hall⟩⟩ := allocateMore_cases 16 [] s
  · have hact : u.actor = .coop := by rw [hu]; exact ha
    refine ⟨_, execAlloc16_of_some ha hd hn hall, ?_⟩
    rw [List.nil_append, advance_coop (by exact hact)]
    refine ⟨?_, ?_, ?_, ?_, ?_, ?_, ?_⟩ <;> simp only [bankOf_list hl]
    · exact hnd
    · exact hsub
    · exact fun g => hfree ▸ mem_withoutHandles
    · exact hev
    · exact fun g f hg => (blkRead_congr rfl g f).trans (hread g hg f)
    · intro g hg
      obtain ⟨k, hk, hf⟩ := hnew g hg
      exact ⟨k, hk, fun f => (blkRead_congr rfl g f).trans (hf f)⟩
    · rw [hu]
  · exact absurd (h.symm.trans hall) nofun

/-- Where an allocation fails, ALLOC16 rolls back; the default pool has by then handed out every free handle. -/
theorem execAlloc16_rollsBack {v : State} (h : allocateMore 16 [] s = (Option.none, v)) (hr : handlesRising s.free)
    (he : emptyHandle ∉ s.free) :
    ∃ t taken, execAlloc16 s = .next t ∧ RolledBack s t taken ∧ (s.free ⊆ taken ∨ s.par.poolMayFail = true) := by
  obtain ⟨taken, u, hu, hsub, hnd, hfree, -, hread, -, ⟨-, -, hall⟩ | ⟨hl, hev, hnone, hall⟩⟩ := allocateMore_cases 16 [] s
  · exact absurd (h.symm.trans hall) nofun
  · have hact : u.actor = .coop := by rw [hu]; exact ha
    have hback : (rollback taken u).free = s.free := by
      refine handlesRising_ext (rollback_rising (hfree ▸ withoutHandles_rising hr)) hr fun g => ?_
      rw [mem_rollback_free, hfree, mem_withoutHandles]
      have hne : g ∈ s.free → g ≠ emptyHandle := fun hg e => he (e ▸ hg)
      have := hsub g
      tauto
    refine ⟨_, taken, execAlloc16_of_none ha hd hn hall, ?_, hnone.imp (fun hempty => ?_) id⟩
    · rw [List.nil_append, rollback_frame, hback, hev, advance_coop (by exact hact)]
      refine ⟨hnd, hsub, hl, fun g f hg => (blkRead_congr rfl g f).trans (hread g hg f), ?_⟩
      rw [hu]
    · exact subset_of_withoutHandles_nil (hfree ▸ hempty)

end

end Sys2Proof.Machine

namespace Sys2Proof.Safety

open Sys2Proof.Machine

/-- A roll-back logs each handle that it gave back twice, and the failure once. -/
theorem RolledBack.events_length {s t : State} {taken : List Handle} (h : RolledBack s t taken) :
    t.events.length = s.events.length + 2 * taken.length + 1 := by
  obtain ⟨-, -, -, -, ht⟩ := h
  have hev := congrArg (fun u : State => u.events.length) ht
  simp only [List.length_append, List.length_map, List.length_singleton] at hev
  omega

end Sys2Proof.Safety

namespace Sys2Proof.Proofs

open Sys2Proof.Machine Sys2Proof.Safety

/-- Settles O45: with sixteen handles free the default pool's allocations succeed, and the other pool's do by some choices. -/
theorem alloc16TakesSixteenBlocks : Obligations.Alloc16TakesSixteenBlocks := by
  refine ⟨rfl, fun s hf ha => wrongContextFaults .alloc16 s hf ha, fun _ => exec_notStreaming rfl, fun _ => execAlloc16_busy,
    fun s ha hd hn hr hk => ⟨fun hp => ?_, ?_⟩⟩
  · obtain ⟨taken, u, hall⟩ := allocateMore_default hp hr hk
    exact execAlloc16_takes ha hd hn hall
  · obtain ⟨ds, taken, u, -, hall⟩ := allocateMore_canSucceed hr hk
    exact ⟨ds, execAlloc16_takes (s := { s with draws := ds }) ha hd hn hall⟩

/-- Settles O46. The default pool fails only when every free handle is taken. Of the pool that may fail, EVENTS tells that the
handles rolled back are as many as the allocations that succeeded. -/
theorem alloc16RollsBackAFailure : Obligations.Alloc16RollsBackAFailure := by
  intro s ha hd hn hr he
  refine ⟨fun hp hk => ?_, fun hp k hk hlen => ?_, ?_⟩
  · obtain ⟨u, hall⟩ := allocateMore_exhausts hk
    obtain ⟨t, taken, hx, hback, hsub⟩ := execAlloc16_rollsBack ha hd hn hall hr he
    obtain ⟨hnd, hfree, -⟩ := id hback
    have hsub : s.free ⊆ taken := hsub.resolve_right (by simp [hp])
    have hperm : taken.Perm s.free :=
      (List.perm_ext_iff_of_nodup hnd (handlesRising_nodup hr)).2 fun g => ⟨hfree g, fun hg => hsub hg⟩
    exact ⟨t, taken, hx, hperm, hback⟩
  · obtain ⟨ds, got, u, hgot, hev, hall⟩ := allocateMore_canFail hr hlen hk hp
    obtain ⟨t, taken, hx, hback, -⟩ := execAlloc16_rollsBack (s := { s with draws := ds }) ha hd hn hall hr he
    refine ⟨ds, t, taken, hx, ?_, hback⟩
    have ht := next_inj (hx.symm.trans (execAlloc16_of_none (s := { s with draws := ds }) ha hd hn hall))
    have hlog : t.events = s.events ++ got.map .alloc ++ [.allocFail] ++ got.map .release := by
      rw [ht, advance_events, rollback_frame, logEvent_events, hev]
    have hcount := hback.events_length
    simp only [hlog, List.length_append, List.length_map, List.length_singleton] at hcount
    omega
  · rcases hall : allocateMore 16 [] s with ⟨_ | got, u⟩
    · obtain ⟨t, taken, hx, hback, -⟩ := execAlloc16_rollsBack ha hd hn hall hr he
      exact ⟨t, hx, .inr ⟨taken, hback⟩⟩
    · obtain ⟨t, hx, htook⟩ := execAlloc16_takes ha hd hn hall
      exact ⟨t, hx, .inl htook⟩

end Sys2Proof.Proofs
end

section
/-! PROOFS. The end of a run (45_init_and_interfaces.md R200): which states are final, and that neither a final nor a faulted
state has a step. -/

namespace Sys2Proof.Machine

/-- The five conditions of R200. -/
theorem isFinal_iff {s : State} :
    isFinal s = true ↔ s.fault = .none ∧ s.prog[s.pcCoop]? = Option.none ∧ wireAt s s.pcDma = Option.none ∧
      s.inIsr = false ∧ (s.irqPending = false ∨ s.irqMask = true) := by
  simp [isFinal, nextCommand, and_assoc]

/-- An endless wire always delivers a frame (41_raw_buffer.md R110). -/
theorem wireAt_of_endless {s : State} (h : s.endless = true) (k : Nat) : wireAt s k ≠ Option.none := by
  unfold wireAt
  split
  · exact nofun
  · simp [h]

theorem isFinal_of_fault {s : State} (hf : s.fault ≠ .none) : isFinal s = false :=
  Bool.eq_false_iff.2 fun h => hf (isFinal_iff.1 h).1

/-- A recorded fault disables every agent (60_exceptions.md R211). -/
theorem enabled_of_fault {s : State} (hf : s.fault ≠ .none) (a : Agent) : enabled a s = false :=
  Bool.eq_false_iff.2 fun h => hf (fault_of_enabled h)

/-- R200 leaves each agent without a step: COOP and DMA have no next command, and ISR neither runs nor enters. -/
theorem enabled_of_isFinal {s : State} (h : isFinal s = true) (a : Agent) : enabled a s = false := by
  obtain ⟨-, hprog, hwire, hin, hirq⟩ := isFinal_iff.1 h
  refine Bool.eq_false_iff.2 fun he => ?_
  cases a with
  | coop =>
    obtain ⟨-, -, hnext⟩ := enabled_coop_iff.1 he
    simp [hprog] at hnext
  | dma =>
    obtain ⟨-, -, hnext⟩ := enabled_dma_iff.1 he
    simp [hwire] at hnext
  | isr =>
    obtain ⟨-, ⟨hin', -⟩ | ⟨-, hpending, hmask⟩⟩ := enabled_isr_iff.1 he
    · simp [hin] at hin'
    · simp [hpending, hmask] at hirq

/-- Without an enabled agent the step answers the model's stop reason (10_state.md R21). -/
theorem step_of_no_agent {s : State} (h : ∀ a, enabled a s = false) : step s = .fault (stopReason s) := by
  rcases step_total s with ⟨-, hs⟩ | ⟨⟨a, ha⟩, -⟩
  · exact hs
  · exact absurd ((h a).symm.trans ha) nofun

theorem stopReason_of_fault {s : State} (hf : s.fault ≠ .none) : stopReason s = .stoppedByFault := if_neg hf

theorem stopReason_of_isFinal {s : State} (h : isFinal s = true) : stopReason s = .runEnded := by
  simp [stopReason, h, (isFinal_iff.1 h).1]

end Sys2Proof.Machine

namespace Sys2Proof.Proofs

open Sys2Proof.Machine Sys2Proof.Safety

/-- Settles O10: in a faulted and in a final state no agent is enabled, and the stop reason tells the two apart. -/
theorem faultedAndFinalStatesHaveNoStep : Obligations.FaultedAndFinalStatesHaveNoStep := by
  refine ⟨fun _ => isFinal_iff, fun s he => ?_, fun s hf => ⟨?_, isFinal_of_fault hf⟩, fun s h => ?_⟩
  · refine Bool.eq_false_iff.2 fun h => ?_
    obtain ⟨-, -, hwire, -⟩ := isFinal_iff.1 h
    exact wireAt_of_endless he s.pcDma hwire
  · rw [step_of_no_agent (enabled_of_fault hf), stopReason_of_fault hf]
  · rw [step_of_no_agent (enabled_of_isFinal h), stopReason_of_isFinal h]

end Sys2Proof.Proofs
end

section
/-! PROOFS. The pool and its other clients (45_init_and_interfaces.md R195, R196). -/

namespace Sys2Proof.Machine

/-- What an allocation returns is the draw from its choices. -/
theorem poolAllocate_fst (s : State) : (poolAllocate s).1 = (drawFrom (allocChoices s) Option.none s).1 := by
  unfold poolAllocate
  split <;> simp [*]

/-- Any choice of the pool may be the one returned (R196). -/
theorem poolAllocate_any {s : State} {r : Option Handle} (h : r ∈ allocChoices s) :
    ∃ k, (poolAllocate { s with draws := [k] }).1 = r := by
  obtain ⟨k, hk⟩ := drawFrom_any Option.none s h
  exact ⟨k, (poolAllocate_fst _).trans hk⟩

/-- A returned handle was free, and leaves the free set (R196). -/
theorem poolAllocate_takes {s : State} {h : Handle} (hr : (poolAllocate s).1 = some h) :
    h ∈ s.free ∧ (poolAllocate s).2.free = removeHandle h s.free := by
  rcases poolAllocate_cases s with ⟨u, -, hp, -⟩ | ⟨g, u, hm, hd, hp⟩
  · simp [hp] at hr
  · obtain rfl : g = h := by simpa [hp] using hr
    have hfree : u.free = s.free := by rw [hd]
    exact ⟨hm, by rw [hp, handOut_free, hfree]⟩

theorem unitOwns_iff {s : State} {h : Handle} :
    unitOwns s h = true ↔ h ∈ s.slot.list ∨ h ∈ s.new.list ∨ h ∈ s.ret.list := by
  simp [unitOwns, or_assoc]

/-- A client releases a handle that it can hold (log entry 10). -/
theorem clientMove_giveBack {s : State} {h : Handle} (hh : h ∈ s.par.handles) (hu : unitOwns s h = false) :
    clientMove s (.giveBack h) = { s with free := insertHandle h s.free } :=
  if_pos (by simp [hh, hu])

/-- A client's release of a handle that it cannot hold is no move (log entry 10). -/
theorem clientMove_giveBack_ignored {s : State} {h : Handle} (hh : h ∉ s.par.handles ∨ unitOwns s h = true) :
    clientMove s (.giveBack h) = s :=
  if_neg (by simpa [imp_iff_not_or] using hh)

theorem clientsAct_of_none {s : State} (hc : s.clients = []) : clientsAct s = s := by
  simp [clientsAct, hc]

theorem clientsAct_of_listed {s : State} {ms : List ClientMove} {rest : List (List ClientMove)}
    (hc : s.clients = ms :: rest) : clientsAct s = ms.foldl clientMove { s with clients := rest } := by
  simp [clientsAct, hc]

/-- No client frees a handle that the unit holds (10_state.md R40). -/
theorem owned_not_mem_clientsAct_free {s : State} {h : Handle} (hu : unitOwns s h = true) (hf : h ∉ s.free)
    (hr : handlesRising s.free) : h ∉ (clientsAct s).free := by
  intro hm
  rcases (clientsAct_sound hr).2 h hm with hfree | ⟨-, hu'⟩
  · exact hf hfree
  · exact absurd (hu.symm.trans hu') nofun

end Sys2Proof.Machine

namespace Sys2Proof.Safety

open Sys2Proof.Machine

/-- EMPTY is in no HANDLE set, so a sound pool never returns it (10_state.md R35). -/
theorem PoolSound.not_allocates_empty {s : State} (h : PoolSound s) : (poolAllocate s).1 ≠ some emptyHandle := fun hr =>
  (params_handles s.par).1 (h.inHandle _ (poolAllocate_takes hr).1)

end Sys2Proof.Safety

namespace Sys2Proof.Proofs

open Sys2Proof.Machine Sys2Proof.Safety

/-- Settles O48: the pool's own duties first, then the other clients' moves. -/
theorem poolReturnsAnyFreeHandle : Obligations.PoolReturnsAnyFreeHandle := by
  refine ⟨fun _ => poolAllocate_default, fun _ _ => poolAllocate_takes, fun s h hm => ?any, fun s hp => ?fails,
    fun s h g hne => ?release, fun _ => PoolSound.not_allocates_empty, fun _ _ => unitOwns_iff,
    fun _ => clientsAct_of_none, fun _ _ _ => clientsAct_of_listed, clientMove_frame, fun _ _ _ => mem_removeHandle,
    fun s h g hh hu => ?giveBack, fun _ _ => clientMove_giveBack_ignored, fun _ _ => owned_not_mem_clientsAct_free⟩
  case any => exact poolAllocate_any (by simp [allocChoices, hm])
  case fails => exact poolAllocate_any (by simp [allocChoices, hp])
  case release => rw [mem_poolRelease, and_iff_left hne]
  case giveBack =>
    rw [clientMove_giveBack hh hu]
    exact mem_insertHandle

end Sys2Proof.Proofs
end

section
/-! PROOFS. INIT (45_init_and_interfaces.md R190, R191): its word, its two faults and the state it leaves. -/

namespace Sys2Proof

/-- A command's word is its row's match over its operand bits (30_encoding.md R91). -/
theorem encodeWord_eq_or {i : Instr} {o : Op} (ho : opOf i = o) :
    encodeWord i = matchOf o ||| (0#8 ++ operandBits i) := by
  rw [encodeWord, ho, matchOf, BitVec.or_append, BitVec.or_zero, BitVec.zero_or]

/-- INIT's operand fields, TK in bit 8 and DEPTH in bits 7:0 (R92). -/
theorem operandBits_init {d : Nat} (tk : Bool) (hd : d < 256) :
    (0#8 ++ operandBits (.init d tk) : Word) = BitVec.ofNat 32 (if tk then 1 else 0) <<< 8 ||| BitVec.ofNat 32 d := by
  have h8 : d % 256 = d := Nat.mod_eq_of_lt hd
  have h32 : d % 4294967296 = d := by omega
  refine BitVec.eq_of_toNat_eq ?_
  simp only [operandBits, BitVec.toNat_append, BitVec.toNat_or, BitVec.toNat_shiftLeft, BitVec.toNat_ofNat]
  cases tk <;> simp [h8, h32]

end Sys2Proof

namespace Sys2Proof.Machine

open Sys2Proof.Safety

/-- INIT while streaming faults (60_exceptions.md R210). -/
theorem execInit_reinit {s : State} (d : Nat) (tk : Bool) (hf : s.fault = .none) (ha : s.actor = .coop)
    (hd : s.drv = .streaming) : execInit d tk s = .next (faultedWith .reinit (.init d tk) s) := by
  have hno : decide (s.drv = .uninitialized) = false := by simp [hd]
  unfold execInit
  rw [issuedBy_ok ha, hno, require_false, raiseFault_of_none hf]
  rfl

/-- Before streaming, INIT completes (R190). -/
theorem execInit_ok {s : State} (d : Nat) (tk : Bool) (ha : s.actor = .coop) (hd : s.drv = .uninitialized) :
    execInit d tk s = .next { s with
      mode := some (modeOf d), tk := tk, drv := .streaming, wpos := 0, irqPending := false, pcCoop := s.pcCoop + 1 } := by
  unfold execInit
  rw [issuedBy_ok ha, hd, advance_coop (by exact ha)]
  rfl

end Sys2Proof.Machine

namespace Sys2Proof.Proofs

open Sys2Proof.Machine Sys2Proof.Safety

/-- Settles O17: INIT writes neither the wire nor DMA's index, and the handler body is read from the MODE it writes. -/
theorem initStartsStreaming : Obligations.InitStartsStreaming := by
  refine ⟨fun d tk hd => ?word, fun s d tk hf ha => wrongContextFaults (.init d tk) s hf ha, fun _ => execInit_reinit,
    fun s d tk ha hd => ?completes⟩
  case word =>
    have hmatch : matchOf .init = 0x10000000#32 := rfl
    rw [encodeWord_eq_or (o := .init) rfl, operandBits_init tk hd, hmatch, BitVec.or_assoc]
  case completes =>
    exact ⟨_, execInit_ok d tk ha hd, rfl, fun hf hw => enabled_dma_iff.2 ⟨rfl, hf, hw⟩, nextCommand_isr rfl⟩

end Sys2Proof.Proofs
end

section
/-! PROOFS. Which fault a command reports (60_exceptions.md R210, R212): its checks follow R212's order over the causes it can
have. -/

namespace Sys2Proof.Machine

open Sys2Proof.Safety

/-! ### The causes -/

/-- The causes that the commands of a row can have (60_exceptions.md R210), in R212's order. -/
def causesOf : Op → List FaultCode
  | .dmaFrame => [.wrongContext]
  | .init => [.wrongContext, .reinit]
  | .xc16 | .xc24 | .xc32 | .xcuns => [.wrongContext, .notStreaming, .modeMismatch, .noSource, .frameRange]
  | .cinv => [.wrongContext, .notStreaming, .noSource]
  | .alloc16 => [.wrongContext, .notStreaming, .worksetBusy]
  | .swap => [.wrongContext, .notStreaming, .swapUnmasked, .worksetBusy]
  | .sel | .updall | .iret | .fwd | .csd | .cse => [.wrongContext, .notStreaming]

theorem mem_causesOf_of_applies {c : FaultCode} {i : Instr} {s : State} (h : faultApplies c i s = true) :
    c ∈ causesOf (opOf i) := by
  cases c with
  | none | illegalCommand => cases h
  | wrongContext => cases i <;> exact List.mem_cons_self
  | notStreaming | reinit | modeMismatch | noSource | frameRange | swapUnmasked | worksetBusy =>
    cases i <;> simp [faultApplies, opOf] at h <;> simp [causesOf, opOf]

theorem faultOrder_filter_causesOf (o : Op) : faultOrder.filter (fun c => decide (c ∈ causesOf o)) = causesOf o := by
  cases o <;> rfl

/-- The first of some causes that applies to a command, `none` if none does. -/
def firstCause (cs : List FaultCode) (i : Instr) (s : State) : FaultCode :=
  (cs.find? fun c => faultApplies c i s).getD .none

/-- The reported fault is the first of the command's own causes: no other of R212's order can apply. -/
theorem reportedFault_eq (i : Instr) (s : State) : reportedFault i s = firstCause (causesOf (opOf i)) i s := by
  have hown : (fun c => decide (c ∈ causesOf (opOf i)) && faultApplies c i s) = fun c => faultApplies c i s := by
    funext c
    have := @mem_causesOf_of_applies c i s
    simpa
  unfold reportedFault firstCause
  rw [← faultOrder_filter_causesOf, List.find?_filter]
  simp only [Bool.decide_and, Bool.decide_eq_true, hown]

theorem firstCause_cons_of_not {c : FaultCode} {cs : List FaultCode} {i : Instr} {s : State}
    (h : faultApplies c i s = false) : firstCause (c :: cs) i s = firstCause cs i s := by
  simp [firstCause, h]

theorem firstCause_cons_of_applies {c : FaultCode} {cs : List FaultCode} {i : Instr} {s : State}
    (h : faultApplies c i s = true) : firstCause (c :: cs) i s = c := by
  simp [firstCause, h]

/-! ### The checks -/

/-- Every next state of an outcome has fault `c`. -/
def Reports (k : Result) (c : FaultCode) : Prop := ∀ t, k = .next t → t.fault = c

theorem reports_next {t : State} {c : FaultCode} (h : t.fault = c) : Reports (.next t) c := by
  rintro _ ⟨⟩
  exact h

/-- A command that completes reports no fault. -/
theorem reports_advance {t : State} (h : t.fault = .none) : Reports (.next (advance t)) .none :=
  reports_next ((advance_fault t).trans h)

theorem reports_raiseFault {s : State} (hf : s.fault = .none) (c : FaultCode) (w : Word) :
    Reports (.next (raiseFault c w s)) c :=
  reports_next (by rw [raiseFault_of_none hf])

theorem allocateMore_fault (k : Nat) (got : List Handle) (s : State) : (allocateMore k got s).2.fault = s.fault := by
  obtain ⟨taken, u, hu, -, -, -, -, -, -, ⟨-, -, hall⟩ | ⟨-, -, -, hall⟩⟩ := allocateMore_cases k got s
  · rw [hall, hu]
  · rw [hall, rollback_frame, hu]

section

variable {i : Instr} {s : State} {cs : List FaultCode} (hf : s.fault = .none)
include hf

/-- A check for a cause reports it, or goes on to the causes after it. -/
theorem require_reports {b : Bool} {c : FaultCode} {k : Result} (hb : faultApplies c i s = !b)
    (hk : Reports k (firstCause cs i s)) : Reports (require b c i s k) (firstCause (c :: cs) i s) := by
  cases b with
  | true =>
    rw [require_true, firstCause_cons_of_not hb]
    exact hk
  | false =>
    rw [require_false, firstCause_cons_of_applies hb]
    exact reports_raiseFault hf c _

/-- So does the check for a source (43_interrupt_handler.md R142, 42_transcoder.md R120). -/
theorem source_reports {k : Half → Result} (hs : faultApplies .noSource i s = !srcValid s)
    (hk : ∀ h, Reports (k h) (firstCause cs i s)) :
    Reports (match s.src with
      | Option.none => .next (raiseFault .noSource (encodeWord i) s)
      | some h => k h) (firstCause (.noSource :: cs) i s) := by
  unfold srcValid at hs
  split
  next hsrc =>
    rw [firstCause_cons_of_applies (by simp [hs, hsrc])]
    exact reports_raiseFault hf _ _
  next h hsrc =>
    rw [firstCause_cons_of_not (by simp [hs, hsrc])]
    exact hk h

/-- The first check of every command: who issued it. -/
theorem issuedBy_reports {a : Agent} {k : Result} (ha : agentOf (opOf i) = a) (hk : Reports k (firstCause cs i s)) :
    Reports (issuedBy a i s k) (firstCause (.wrongContext :: cs) i s) :=
  require_reports hf (by simp [faultApplies, ha]) hk

/-- The two checks of every command but INIT and DMA.FRAME. -/
theorem streamingCommand_reports {a : Agent} {k : Result} (ha : agentOf (opOf i) = a) (hinit : opOf i ≠ .init)
    (hdma : opOf i ≠ .dmaFrame) (hk : Reports k (firstCause cs i s)) :
    Reports (streamingCommand a i s k) (firstCause (.wrongContext :: .notStreaming :: cs) i s) := by
  refine issuedBy_reports hf ha (require_reports hf ?_ hk)
  cases hd : s.drv <;> simp [faultApplies, hinit, hdma, hd]

/-- A command with no cause but those two. -/
theorem plainCommand_reports {a : Agent} {k : Result} (ha : agentOf (opOf i) = a)
    (hi : causesOf (opOf i) = [.wrongContext, .notStreaming]) (hk : Reports k .none) :
    Reports (streamingCommand a i s k) (firstCause (causesOf (opOf i)) i s) := by
  have hop : opOf i ≠ .init ∧ opOf i ≠ .dmaFrame := by
    constructor <;> intro ho <;> rw [ho] at hi <;> cases hi
  rw [hi]
  exact streamingCommand_reports hf ha hop.1 hop.2 hk

/-! ### The commands -/

/-- The transcoder commands, each for its mode (42_transcoder.md R120). -/
theorem transcoder_reports {m : BitDepth} {f : Nat} (hi : IsTranscoder i m f) :
    Reports (exec i s) (firstCause (causesOf (opOf i)) i s) := by
  have hdone : ∀ h, Reports (if allEmpty s.slot then .next (advance s)
      else transcodeTo (lanesOf m (readFrame h f s).1) f (afterRead m h f s)) .none := by
    intro h
    split
    · exact reports_advance hf
    · exact reports_advance (by rw [writeLanes_eq, afterRead_drawsOnly]; exact hf)
  have hlt : decide (s.par.n ≤ f) = !decide (f < s.par.n) := by simp [← decide_not]
  rw [exec_transcoder hi]
  rcases hi with ⟨rfl, rfl⟩ | ⟨rfl, rfl⟩ | ⟨rfl, rfl⟩ | ⟨rfl, rfl⟩ <;>
    exact streamingCommand_reports hf rfl nofun nofun (require_reports hf (by simp [faultApplies])
      (source_reports hf (by simp [faultApplies, opOf]) fun h => require_reports hf hlt (hdone h)))

/-- Every command checks its causes in R212's order. -/
theorem exec_reports (i : Instr) : Reports (exec i s) (reportedFault i s) := by
  rw [reportedFault_eq]
  cases i with
  | dmaFrame fv =>
    exact issuedBy_reports hf rfl (reports_advance (by rw [completeAtBoundary_eq, dmaWriteFrame_eq]; exact hf))
  | init d tk =>
    refine issuedBy_reports hf rfl (require_reports hf ?_ (reports_advance hf))
    cases hd : s.drv <;> simp [faultApplies, opOf, hd]
  | xc16 f => exact transcoder_reports hf (.inl ⟨rfl, rfl⟩)
  | xc24 f => exact transcoder_reports hf (.inr (.inl ⟨rfl, rfl⟩))
  | xc32 f => exact transcoder_reports hf (.inr (.inr (.inl ⟨rfl, rfl⟩)))
  | xcuns f => exact transcoder_reports hf (.inr (.inr (.inr ⟨rfl, rfl⟩)))
  | sel => exact plainCommand_reports hf rfl rfl (reports_advance hf)
  | cinv =>
    refine streamingCommand_reports hf rfl nofun nofun (source_reports hf (by simp [faultApplies, opOf]) fun h => ?_)
    split
    · exact reports_advance hf
    · exact reports_advance ((invalidateHalf_fault h s).trans hf)
  | updall =>
    refine plainCommand_reports hf rfl rfl ?_
    split <;> exact reports_advance hf
  | iret => exact plainCommand_reports hf rfl rfl (reports_next hf)
  | alloc16 =>
    refine streamingCommand_reports hf rfl nofun nofun (require_reports hf (by simp [faultApplies, opOf]) ?_)
    have hkeep := (allocateMore_fault 16 [] s).trans hf
    split
    next u hall =>
      rw [hall] at hkeep
      exact reports_advance hkeep
    next got u hall =>
      rw [hall] at hkeep
      exact reports_advance hkeep
  | swap =>
    exact streamingCommand_reports hf rfl nofun nofun (require_reports hf (by simp [faultApplies, opOf])
      (require_reports hf (by simp [faultApplies, opOf]) (reports_advance hf)))
  | fwd =>
    refine plainCommand_reports hf rfl rfl ?_
    split
    · exact reports_advance hf
    · exact reports_advance (by rw [forwardFrom_frame]; exact hf)
  | csd => exact plainCommand_reports hf rfl rfl (reports_advance hf)
  | cse => exact plainCommand_reports hf rfl rfl (reports_advance hf)

end

end Sys2Proof.Machine

namespace Sys2Proof.Proofs

open Sys2Proof.Machine Sys2Proof.Safety

/-- Settles O13: each command checks its causes in R212's order; causes 2 and 3 belong to different commands. -/
theorem firstApplicableFaultIsReported : Obligations.FirstApplicableFaultIsReported := by
  refine ⟨fun i s t hf h => exec_reports hf i t h, fun i s ⟨h2, h3⟩ => ?_⟩
  simp only [faultApplies, Bool.and_eq_true, decide_eq_true_eq] at h2 h3
  exact h2.1.2 h3.2

end Sys2Proof.Proofs
end

section
/-! PROOFS. What a fault changes, and which commands fault in a run (60_exceptions.md R210, R211). -/

namespace Sys2Proof.Machine

open Sys2Proof.Safety

/-- A command that faults writes the record and nothing else (60_exceptions.md R211). -/
theorem exec_faulted {i : Instr} {s t : State} (hf : s.fault = .none) (h : exec i s = .next t) (ht : t.fault ≠ .none) :
    t = faultedWith (reportedFault i s) i s := by
  rcases exec_cases h with hx | hx
  · rw [← exec_reports hf i t h]
    exact (hx.eq hf).2
  · obtain ⟨-, hkeep, -⟩ := hx.keeps
    exact absurd (hkeep.trans hf) ht

/-- The record names the issuing agent (10_state.md R27). -/
theorem faultedWith_of_actor {a : Agent} {c : FaultCode} {i : Instr} {s : State} (ha : s.actor = a) :
    faultedWith c i s = { s with fault := c, fagent := some a, fword := encodeWord i } := by
  subst ha
  rfl

/-- A step that faults is the command or the illegal word that its agent had next, and beyond the record it changes what starting
the step changes (R211). -/
theorem step_faulted {s t : State} (h : step s = .next t) (ht : t.fault ≠ .none) :
    ∃ (a : Agent) (u : State), enabled a s = true ∧ chooseAgent s = some (a, u) ∧ ChoiceOnly s u ∧
      (a = .isr → s.inIsr = true) ∧
      t = { stepStart a u with fault := t.fault, fagent := some a, fword := t.fword } ∧
      ∃ c, nextCommand a s = some c ∧
        ((∃ i, decode c = .ok i ∧ t.fault = reportedFault i (stepStart a u)) ∨
         (∃ e, decode c = .error e ∧ t.fault = .illegalCommand)) := by
  obtain ⟨a, u, he, hch, hu, hstep⟩ := step_cases h
  have hnone := stepStart_fault he hu
  have hact : (stepStart a u).actor = a := stepStart_actor hu
  rcases hstep with ⟨rfl, -, rfl⟩ | ⟨hin, c, hc, hx⟩
  · exact absurd hnone ht
  · refine ⟨a, u, he, hch, hu, hin, ?_⟩
    rw [nextCommand_stepStart hu] at hc
    rcases hx with ⟨i, hd, hx⟩ | ⟨e, hd, rfl⟩
    · rw [exec_faulted hnone hx ht, faultedWith_of_actor hact]
      exact ⟨rfl, c, hc, .inl ⟨i, hd, rfl⟩⟩
    · rw [raiseFault_of_actor hnone hact]
      exact ⟨rfl, c, hc, .inr ⟨e, hd, rfl⟩⟩

/-- A reported fault is one of the command's causes. -/
theorem reportedFault_mem_causesOf {i : Instr} {s : State} (h : reportedFault i s ≠ .none) :
    reportedFault i s ∈ causesOf (opOf i) := by
  rw [reportedFault_eq] at h ⊢
  unfold firstCause at h ⊢
  cases hc : (causesOf (opOf i)).find? fun c => faultApplies c i s with
  | none => simp [hc] at h
  | some c => exact List.mem_of_find?_eq_some hc

/-- A command issued by an agent other than its own reports WRONG_CONTEXT (60_exceptions.md R212, R221). -/
theorem reportedFault_of_wrongAgent {i : Instr} {s : State} (h : s.actor ≠ agentOf (opOf i)) :
    reportedFault i s = .wrongContext := by
  simp [reportedFault, faultOrder, faultApplies, h]

/-- The codes 6, 7 and 9 of R210. -/
def HandlerCode (c : FaultCode) : Prop := c = .frameRange ∨ c = .modeMismatch ∨ c = .noSource

/-- They are causes of the handler's commands only. -/
theorem agentOf_of_handlerCode {c : FaultCode} {o : Op} (h : c ∈ causesOf o) (hc : HandlerCode c) : agentOf o = .isr := by
  cases o with
  | xc16 | xc24 | xc32 | xcuns | cinv => rfl
  | _ => rcases hc with rfl | rfl | rfl <;> simp [causesOf] at h

/-- COOP never reports them: of the handler's commands it may issue none (R221). -/
theorem not_handlerCode_of_coop {i : Instr} {s : State} (ha : s.actor = .coop) : ¬ HandlerCode (reportedFault i s) := by
  intro hc
  by_cases hown : s.actor = agentOf (opOf i)
  · have hne : reportedFault i s ≠ .none := fun h => by simp [h, HandlerCode] at hc
    have hisr := agentOf_of_handlerCode (reportedFault_mem_causesOf hne) hc
    rw [ha, hisr] at hown
    cases hown
  · simp [reportedFault_of_wrongAgent hown, HandlerCode] at hc

/-- The wire delivers DMA.FRAME only (41_raw_buffer.md R110). -/
theorem decode_of_wire {s : State} {c : Command} (hc : nextCommand .dma s = some c) :
    ∃ fv, decode c = .ok (.dmaFrame fv) := by
  obtain ⟨fv, -, rfl⟩ := Option.map_eq_some_iff.1 hc
  exact ⟨fv, decode_encode rfl⟩

/-- DMA.FRAME of the DMA agent never faults: a wrong agent is its one cause (R213). -/
theorem reportedFault_dmaFrame {fv : Frame} {s : State} (ha : s.actor = .dma) :
    reportedFault (.dmaFrame fv) s = .none := by
  simp [reportedFault_eq, causesOf, firstCause, faultApplies, opOf, agentOf, ha]

end Sys2Proof.Machine

namespace Sys2Proof.Safety

open Sys2Proof.Machine

/-- The handler never faults: each of its steps completes a command (60_exceptions.md R213). -/
theorem ControlSound.handler_step_fault {s t u : State} (h : ControlSound s) (hin : s.inIsr = true)
    (hch : chooseAgent s = some (.isr, u)) (hs : Machine.step s = .next t) : t.fault = .none := by
  obtain ⟨he, hu⟩ := chooseAgent_some hch
  obtain ⟨i, -, hx⟩ := h.handler_step hin hch hs
  obtain ⟨-, hkeep, -⟩ := hx.keeps
  exact hkeep.trans (stepStart_fault (a := .isr) he hu)

end Sys2Proof.Safety

namespace Sys2Proof.Proofs

open Sys2Proof.Machine Sys2Proof.Safety

/-- Settles O11: the command's record, what starting a step changes, and that a fault disables every agent. -/
theorem faultChangesOnlyItsRecord : Obligations.FaultChangesOnlyItsRecord := by
  refine ⟨fun _ _ _ => exec_faulted, fun s t h ht => ?_,
    fun t ht => ⟨enabled_of_fault ht, isFinal_of_fault ht, fun u h => ?_⟩, rfl, rfl, rfl⟩
  · obtain ⟨a, u, -, -, hu, -, heq, -⟩ := step_faulted h ht
    rw [stepStart_frame hu] at heq
    rw [heq]
  · rw [step_of_no_agent (enabled_of_fault ht)] at h
    cases h

/-- Settles O59: under the invariant neither the handler nor the DMA faults, and none of COOP's causes is one of the three. -/
theorem onlyCoopFaultsInARun : Obligations.OnlyCoopFaultsInARun := by
  intro s t hinv h ht
  obtain ⟨a, u, he, hch, hu, hin, heq, c, hc, hx⟩ := step_faulted h ht
  have hact : (stepStart a u).actor = a := stepStart_actor hu
  have hagent : t.fagent = some a := by rw [heq]
  cases a with
  | isr => exact absurd (hinv.control.handler_step_fault (hin rfl) hch h) ht
  | dma =>
    obtain ⟨fv, hframe⟩ := decode_of_wire hc
    rcases hx with ⟨i, hd, hrep⟩ | ⟨e, hd, -⟩
    · obtain rfl : Instr.dmaFrame fv = i := Except.ok.inj (hframe.symm.trans hd)
      exact absurd (hrep.trans (reportedFault_dmaFrame hact)) ht
    · exact absurd (hframe.symm.trans hd) nofun
  | coop =>
    have hcode : ¬ HandlerCode t.fault := by
      rcases hx with ⟨i, -, hrep⟩ | ⟨e, -, hill⟩
      · rw [hrep]
        exact not_handlerCode_of_coop hact
      · rw [hill]
        simp [HandlerCode]
    exact ⟨hagent, by simpa [HandlerCode] using hcode⟩

end Sys2Proof.Proofs
end

section
/-! PROOFS. Interrupt entry (60_exceptions.md R216): the step that takes it, and that no other step enters the handler. -/

namespace Sys2Proof.Machine

/-- Interrupt entry, when ISR heads the schedule outside the handler. -/
theorem step_of_head_entry {s : State} {rest : List Agent} (hs : s.sched = .isr :: rest) (he : enabled .isr s = true)
    (hin : s.inIsr = false) : step s = .next (interruptEntry (beginStep .isr { s with sched := rest })) := by
  unfold step nextTurn
  rw [chooseAgent_of_head hs he]
  simp [turnOf, hin]

/-- No command enters the handler. -/
theorem exec_inIsr_of_outside {i : Instr} {s t : State} (h : exec i s = .next t) (hin : s.inIsr = false) :
    t.inIsr = false := by
  rcases exec_cases h with ⟨c, -, rfl⟩ | hx
  · exact (raiseFault_inIsr ..).trans hin
  · rcases hx.inIsr with ⟨-, hout⟩ | ⟨-, hstay⟩
    · exact hout
    · exact hstay.trans hin

/-- A step that enters the handler is interrupt entry of an enabled ISR agent. -/
theorem step_enters {s t : State} (h : step s = .next t) (hout : s.inIsr = false) (hin : t.inIsr = true) :
    ∃ u, enabled .isr s = true ∧ ChoiceOnly s u ∧ t = interruptEntry (beginStep .isr u) := by
  obtain ⟨a, u, he, -, hu, hstep⟩ := step_cases h
  have hstart : (stepStart a u).inIsr = false := by rw [stepStart_frame hu, hout]
  rcases hstep with ⟨rfl, -, rfl⟩ | ⟨-, c, -, ⟨i, -, hx⟩ | ⟨e, -, rfl⟩⟩
  · exact ⟨u, he, hu, rfl⟩
  · exact absurd (hin.symm.trans (exec_inIsr_of_outside hx hstart)) nofun
  · exact absurd (hin.symm.trans ((raiseFault_inIsr ..).trans hstart)) nofun

end Sys2Proof.Machine

namespace Sys2Proof.Proofs

open Sys2Proof.Machine Sys2Proof.Safety

/-- Settles O40: the entry step, then that it alone enters, then the part of O41 that is COOP's context. -/
theorem interruptEntryIsPreciseAndUnmasked : Obligations.InterruptEntryIsPreciseAndUnmasked := by
  refine ⟨fun s rest hin hp hm hf hs => ?enters, fun s t h hout hin => ?alone, fun s t h hin => ?context⟩
  case enters =>
    have he : enabled .isr s = true := enabled_isr_iff.2 ⟨hf, .inr ⟨hin, hp, hm⟩⟩
    exact ⟨_, step_of_head_entry hs he hin, rfl, by simp [enabled, interruptEntry], fun m hm => nextCommand_isr hm⟩
  case alone =>
    obtain ⟨u, he, hu, rfl⟩ := step_enters h hout hin
    obtain ⟨hf, ⟨hin', -⟩ | ⟨-, hp, hm⟩⟩ := enabled_isr_iff.1 he
    · exact absurd (hout.symm.trans hin') nofun
    · rw [hu]
      exact ⟨hp, hm, hf, rfl, rfl, rfl, rfl, rfl, rfl, rfl⟩
  case context =>
    obtain ⟨-, hnew, hret, hmask, hpc, -⟩ := handlerLeavesCooperativeState s t h hin
    exact ⟨hnew, hret, hmask, hpc⟩

end Sys2Proof.Proofs
end

section
/-! PROOFS. Commands as stored bytes (30_encoding.md R90): what the decoder reads from a word that carries a payload, and from one
that does not. -/

namespace Sys2Proof

/-- A word of format P takes its payload from the 32 bytes that follow it. -/
theorem decodeBytes_withPayload {w : Word} {fv : Frame} {i : Instr} (rest : List Byte) (ho : opcField w = 0x01#8)
    (hd : decode ⟨w, fv⟩ = .ok i) : decodeBytes (leBytes 4 w ++ (leBytes 32 fv ++ rest)) = .ok (i, rest) := by
  obtain ⟨b0, b1, b2, b3, hbytes, hword⟩ := wordOfBytes_leBytes w
  have hlen : (leBytes 32 fv).length = 32 := Machine.leBytes_length 32 fv
  have hpayload : frameOfBytes (leBytes 32 fv) = fv := ofLeBytes_leBytes fv (by decide)
  rw [hbytes]
  simp [decodeBytes, hword, ho, List.take_left' hlen, List.drop_left' hlen, hlen, hpayload, hd]

/-- Any other word is a command by itself. -/
theorem decodeBytes_wordOnly {w : Word} {i : Instr} (rest : List Byte) (ho : opcField w ≠ 0x01#8)
    (hd : decode ⟨w, 0#256⟩ = .ok i) : decodeBytes (leBytes 4 w ++ rest) = .ok (i, rest) := by
  obtain ⟨b0, b1, b2, b3, hbytes, hword⟩ := wordOfBytes_leBytes w
  rw [hbytes]
  simp [decodeBytes, hword, ho, hd]

/-- A command that decodes is read back from its stored bytes, when it has a payload only where its word carries one. -/
theorem decodeBytes_commandBytes {c : Command} {i : Instr} (rest : List Byte) (hd : decode c = .ok i)
    (hp : opcField c.word ≠ 0x01#8 → c.payload = 0#256) : decodeBytes (commandBytes c ++ rest) = .ok (i, rest) := by
  obtain ⟨w, fv⟩ := c
  by_cases ho : opcField w = 0x01#8
  · simpa [commandBytes, ho] using decodeBytes_withPayload rest ho hd
  · obtain rfl : fv = 0#256 := hp ho
    simpa [commandBytes, ho] using decodeBytes_wordOnly rest ho hd

theorem opcField_encodeWord (i : Instr) : opcField (encodeWord i) = opcOf (opOf i) :=
  opcField_of_match (encodeWord_match i)

/-- The encoder gives a payload to the words of `OPC = 0x01` alone (R90, R91). -/
theorem encodePayload_of_opcField {i : Instr} (h : opcField (encodeWord i) ≠ 0x01#8) : encodePayload i = 0#256 := by
  rw [opcField_encodeWord] at h
  cases i with
  | dmaFrame fv => exact absurd rfl h
  | _ => rfl

end Sys2Proof

namespace Sys2Proof.Proofs

open Sys2Proof.Machine Sys2Proof.Safety

/-- Settles O6: the encoder's word decodes, and its payload is stored exactly where the decoder looks for one. -/
theorem storedBytesDecode : Obligations.StoredBytesDecode := fun _ rest h =>
  decodeBytes_commandBytes rest (decode_encode h) encodePayload_of_opcField

end Sys2Proof.Proofs
end

section
/-! PROOFS. What steps and commands keep: storage in canonical form (log entries 5 and 6), and the record of the first fault
(10_state.md R31, R49). -/

namespace Sys2Proof.Machine

/-- In a faulted state a command may still complete, but it writes no fault record (log entry 13). -/
theorem exec_keeps_faultRecord {i : Instr} {s t : State} (hf : s.fault ≠ .none) (h : exec i s = .next t) :
    t.fault = s.fault ∧ t.fagent = s.fagent ∧ t.fword = s.fword := by
  rcases exec_cases h with ⟨c, -, rfl⟩ | hx
  · rw [raiseFault_of_fault hf]
    exact ⟨rfl, rfl, rfl⟩
  · obtain ⟨-, hfault, hagent, hword, -⟩ := hx.keeps
    exact ⟨hfault, hagent, hword⟩

end Sys2Proof.Machine

namespace Sys2Proof.Proofs

open Sys2Proof.Machine Sys2Proof.Safety

/-- Settles O55, the storage part of O56. -/
theorem stepKeepsStorageCanonical : Obligations.StepKeepsStorageCanonical := fun _ _ h hs => h.step hs

/-- Settles O12: raising a second fault changes nothing, and no completing command writes the record. -/
theorem firstFaultIsKept : Obligations.FirstFaultIsKept := fun _ _ _ => exec_keeps_faultRecord

end Sys2Proof.Proofs
end

section
/-! PROOFS. The values that a CPU read of a byte may give (20_memory.md R66, R81). -/

namespace Sys2Proof.Machine

/-- What may still be read: the present value, and each one overwritten after the window's start (R66). -/
theorem mem_heldSince {s : State} {w a : Nat} {v : Option Byte} :
    v ∈ heldSince s w a ↔ v = cellGet s.raw a ∨ ∃ o ∈ s.rawPast, w < o.step ∧ overwrittenAt o a = some v := by
  simp [heldSince, mem_distinct, and_assoc]

theorem heldSince_ne_nil (s : State) (w a : Nat) : heldSince s w a ≠ [] :=
  List.ne_nil_of_mem (mem_heldSince.2 (.inl rfl))

/-- A CPU read gives a value of the byte's window. -/
theorem cpuByte_held (a : Nat) (s : State) :
    ∃ v ∈ heldSince s (windowStart s a) a, (cpuByte a s).1 = v.getD (Config.powerOnByte a) :=
  ⟨_, drawFrom_mem _ s (heldSince_ne_nil s _ a), by rw [cpuByte_eq]⟩

/-- Each value of the window is what some draw gives; the listed draws are no part of the window. -/
theorem cpuByte_any {a : Nat} {s : State} {v : Option Byte} (h : v ∈ heldSince s (windowStart s a) a) :
    ∃ k, (cpuByte a { s with draws := [k] }).1 = v.getD (Config.powerOnByte a) := by
  obtain ⟨k, hk⟩ := drawFrom_any Option.none s h
  exact ⟨k, congrArg (Option.getD · (Config.powerOnByte a)) hk⟩

end Sys2Proof.Machine

namespace Sys2Proof.Proofs

open Sys2Proof.Machine Sys2Proof.Safety

/-- Settles O24, clause by clause. -/
theorem cpuReadsAnyHeldValue : Obligations.CpuReadsAnyHeldValue := fun s a =>
  ⟨rfl, fun _ => mem_heldSince, cpuByte_held a s, fun _ => cpuByte_any, cpuByte_drawsOnly a s⟩

end Sys2Proof.Proofs
end

section
/-! PROOFS. The state after power-on (10_state.md R48). -/

namespace Sys2Proof.Machine

theorem empty_getElem? {k : Nat} (hk : k < 16) : Bank.empty.list[k]? = some emptyHandle :=
  List.getElem?_replicate_of_lt hk

/-- Where the three sets are EMPTY, so are their 48 registers (10_state.md R45). -/
theorem regView_of_empty {s : State} (hslot : s.slot = Bank.empty) (hnew : s.new = Bank.empty) (hret : s.ret = Bank.empty)
    {k : Nat} (hlow : 0x10 ≤ k) (hhigh : k < 0x40) : regView s k = some emptyHandle := by
  have hk : (∃ j < 16, k = 0x10 + j) ∨ (∃ j < 16, k = 0x20 + j) ∨ ∃ j < 16, k = 0x30 + j := by
    rcases lt_or_ge k 0x20 with h2 | h2
    · exact .inl ⟨k - 0x10, by omega, by omega⟩
    · rcases lt_or_ge k 0x30 with h3 | h3
      · exact .inr (.inl ⟨k - 0x20, by omega, by omega⟩)
      · exact .inr (.inr ⟨k - 0x30, by omega, by omega⟩)
  rcases hk with ⟨j, hj, rfl⟩ | ⟨j, hj, rfl⟩ | ⟨j, hj, rfl⟩
  · rw [regView_slot s hj, hslot, empty_getElem? hj]
  · rw [regView_new s hj, hnew, empty_getElem? hj]
  · rw [regView_ret s hj, hret, empty_getElem? hj]

/-- STAT's word is 0 before anything is set, the valueless SRC shown as 0 (R27, log entry 16). -/
theorem statWord_initial (p : Params) (inp : Inputs) : statWord (State.initial p inp) = 0#32 := by
  calc statWord (State.initial p inp)
    _ = 0#16 ++ faultNumber .none ++ agentBits Option.none ++ 0#1 ++ 0#1 ++ 0#1 ++ 0#1 ++ 0#1 ++ 0#1 := rfl
    _ = 0#32 := by decide

/-- A byte that nothing has written reads as its free value, and reading it is no choice (log entry 5). -/
theorem cpuByte_untouched {s : State} {a : Nat} (hraw : cellGet s.raw a = Option.none) (hpast : s.rawPast = []) :
    cpuByte a s = (Config.powerOnByte a, s) := by
  rw [cpuByte_exact (by simp [hpast]), hraw, Option.getD_none]

end Sys2Proof.Machine

namespace Sys2Proof.Proofs

open Sys2Proof.Machine Sys2Proof.Safety

/-- Settles O18: the tables are empty, so block storage, RAW and LASTINV read as their defaults; the registers and STAT's word
compute. -/
theorem powerOnState : Obligations.PowerOnState := by
  intro p inp s
  refine ⟨rfl, rfl, rfl, rfl, statWord_initial p inp, rfl, rfl, rfl, rfl, rfl, rfl, fun k => ?registers, fun h f => rfl,
    fun a => ?raw, fun a => rfl, rfl, rfl, rfl, rfl⟩
  case registers => exact regView_of_empty rfl rfl rfl
  case raw => exact cpuByte_untouched rfl rfl

end Sys2Proof.Proofs
end
